-- ==== Sys2Proof/Word.lean ====
section
/-! DEFINITION. The bit-vector types of the block: bytes of the stream, 16-bit tables, 32-bit addresses and data words,
the 36-bit threshold (00_scope.md R2). -/

namespace Sys2Proof

/-- A byte of the stream (00_scope.md section 6). -/
abbrev Byte := BitVec 8

/-- A 16-bit LUT constant or truth table, one half of a data word (R2, R85). -/
abbrev Half := BitVec 16

/-- A 32-bit chain address or chain data word (R2). -/
abbrev Word := BitVec 32

/-- A 36-bit timer threshold (R2, R15). -/
abbrev Threshold := BitVec 36

end Sys2Proof
end

