-- ==== Sys2Proof/Config.lean ====
section
/-! DEFINITION. What the spec leaves open: the four named parameters of R3 with their defaults, the framing assumption of
93_implementation_defined.md U2, and the byte sink's answers (R40), whose oracle is a free value. -/

namespace Sys2Proof

/-- The six words of a trigger sum's program, by the names of R140: `F`, `M`, `P[3]`, `P[2]`, `P[1]`, `P[0]`. -/
inductive SumWord where
  | F | M | P3 | P2 | P1 | P0
  deriving DecidableEq, Repr

/-- `HALF_ORDER` (R3, D6): which half of a range or edge word holds the table walked first. -/
inductive HalfOrder where
  | firstWalkedHigh | firstWalkedLow
  deriving DecidableEq, Repr

/-- `PAIR_HALF` (R3, D7): which half of a pair word holds the odd-numbered pair. -/
inductive PairHalf where
  | oddHigh | oddLow
  deriving DecidableEq, Repr

/-- The parameters of R3, fixed for one machine: no command writes them. `leafWiring` lists, for leaf positions 0 to 15,
the bank slot number of R16 that feeds it. `framingRestarts` is the assumption of U2, that the transport restarts framing
at the first command after a frame was cut short. -/
structure Params where
  sumOrder : List SumWord
  halfOrder : HalfOrder
  pairHalf : PairHalf
  leafWiring : List (Fin 16)
  framingRestarts : Bool
  deriving DecidableEq, Repr

/-- `SUM_ORDER`'s default (R146). -/
def Params.defaultSumOrder : List SumWord := [.F, .M, .P3, .P2, .P1, .P0]

/-- `LEAF_WIRING`'s default (R22, G1): A, B, C, Range1, D, Edge1, E, Timer1, F, G, H, Range2, I, Edge2, J, Timer2. -/
def Params.defaultLeafWiring : List (Fin 16) := [0, 1, 2, 10, 3, 12, 4, 14, 5, 6, 7, 11, 8, 13, 9, 15]

/-- The defaults of R3. That a cut frame is never resynchronised is a DESIGN CHOICE (entry 13, safe): U2 says a model
that wants to err safe does so. -/
def Params.default : Params where
  sumOrder := Params.defaultSumOrder
  halfOrder := .firstWalkedHigh
  pairHalf := .oddHigh
  leafWiring := Params.defaultLeafWiring
  framingRestarts := false

/-- `SUM_ORDER` is a permutation of the six named words, `LEAF_WIRING` a bijection onto the sixteen slots (R3, R22). -/
abbrev Params.wf (p : Params) : Prop :=
  p.sumOrder.Nodup ∧ p.sumOrder.length = 6 ∧ p.leafWiring.Nodup ∧ p.leafWiring.length = 16

/-- The oracle's answer to one sink call (R40): accept, or fail having taken a drawn prefix of 0 to 3 bytes (the draw
matters to `SinkU32BE` only, D18). -/
inductive SinkAnswer where
  | accept
  | fail (taken : Fin 4)
  deriving DecidableEq, Repr, Inhabited

/-- FREE VALUE (entry 10, U11): the answer of the oracle `SINK` to the n-th sink call, where the list of answers in
`State.sink` does not give it. It has no body: no claim can rest on what it answers. -/
opaque Config.sinkOracle : Nat → SinkAnswer

end Sys2Proof
end

