-- ==== Sys2Proof/Syntax.lean ====
section
/-! DEFINITION. The instructions as syntax: every row of spec/opcode_table.json is a constructor of `Instr` (two wire
commands, six chain-address formats, nine data-word formats, 28 host commands), with the operand types of R91, and the
lanes on which their bytes stand. -/

namespace Sys2Proof

/-- The tree level of a combinator: which LUT table applies (R91, R103). -/
inductive TreeLevel where
  | pair | mid | final
  deriving DecidableEq, Repr

/-- The role of a trigger sum (R75, R91). -/
inductive Role where
  | hit | els | capture
  deriving DecidableEq, Repr

/-- A reference to an Operation as it stands on the command port: `none` is the source's null reference, a code of 10 to
15 is no Operation (R91). -/
abbrev OpRef := Option (BitVec 4)

/-- A sum operand as presented (R91): the shape of a SumCfg over operation references and 2-bit input-state codes. -/
structure SumArg where
  pair : Vector OpRef 8
  mid : Vector OpRef 2
  final : OpRef
  leafIn : Vector (BitVec 2) 16
  deriving DecidableEq, Repr

/-- The data-word formats of 30_encoding.md section 3. -/
inductive WordFormat where
  | patw | rngw | edgw | tmrlo | tmrhi | sumf | summ | sump | ctrl
  deriving DecidableEq, Repr

/-- Where bytes stand, which decides how they are read. Only `command` is the block's own port (R90, R210). The other three
are internal, the model's way to run a wire command alone (DESIGN CHOICE, entry 1): a 5-byte frame (R71), the operand of a SELECT
(R74), the operand of a CHAIN in a named format (R76 to R83). -/
inductive Lane where
  | command
  | frame
  | address
  | data (f : WordFormat)
  deriving DecidableEq, Repr

/-- One constructor per row of spec/opcode_table.json. Range-checked operands are mathematical integers (D28). -/
inductive Instr where
  -- wire commands (R70)
  | select (a : Word)
  | chain (d : Word)
  -- chain-address formats (R74)
  | addrFsmDesc (s : BitVec 4)
  | addrPattern (k : BitVec 4)
  | addrRange (r b : BitVec 1)
  | addrEdge (e : BitVec 1)
  | addrTimer (t h : BitVec 1)
  | addrSum (s : BitVec 4) (r : BitVec 2)
  -- data-word formats (R76 to R83)
  | wordPatw (h l : Half)
  | wordRngw (f g : Half)
  | wordEdgw (f g : Half)
  | wordTmrlo (t : Word)
  | wordTmrhi (t : BitVec 4)
  | wordSumf (f : Half)
  | wordSumm (b a : Half)
  | wordSump (o e : Half)
  | wordCtrl (last raise start2 start1 clear2 clear1 stop2 stop1 : Bool) (elseState : BitVec 4) (count : BitVec 20)
  -- host commands (R90)
  | reset
  | lut (level : TreeLevel) (op : OpRef)
  | isInv (op : OpRef)
  | setPat (k : Int) (value mask : Word)
  | setRng (r : Int) (lower upper mask : Word)
  | setEdg (e : Int) (rising falling neither : Word)
  | setTmr (t : Int) (threshold : Threshold)
  | encPat (k : Int)
  | encRng (r : Int)
  | encEdg (e : Int)
  | encTmr (t : Int)
  | encSum (role : Role)
  | encState
  | forState (n : Int)
  | whileStoring (sum : Option SumArg)
  | ifTarget (sum : Option SumArg)
  | occurs (count : Int)
  | elseTarget (sum : Option SumArg) (n : Int)
  | lastState
  | continueToNextState
  | onHitRaiseTrigger
  | onHitStartTimer1
  | onHitStartTimer2
  | onHitStopTimer1
  | onHitStopTimer2
  | onHitClearTimer1
  | onHitClearTimer2
  | build
  deriving DecidableEq, Repr

end Sys2Proof
end

