-- ==== Sys2Proof/WellFormed.lean ====
section
/-! DEFINITION. Which terms of `Instr` are instructions of the table. The types already bound every field; what is left
are the two field values the table calls unmapped. A host operand out of range is NOT ill-formed: the command runs and
answers InvalidArgument (R232). -/

namespace Sys2Proof

/-- ADDR.PATTERN's field is 0 to 9 ("10..15 unmapped") and ADDR.SUM's role offset 0 to 2 ("3 unmapped") (R74, R75). -/
def Instr.wellFormed : Instr → Bool
  | .addrPattern k => decide (k.toNat < 10)
  | .addrSum _ r => decide (r ≠ 3#2)
  | .select _ | .chain _ | .addrFsmDesc _ | .addrRange _ _ | .addrEdge _ | .addrTimer _ _
  | .wordPatw _ _ | .wordRngw _ _ | .wordEdgw _ _ | .wordTmrlo _ | .wordTmrhi _ | .wordSumf _ | .wordSumm _ _
  | .wordSump _ _ | .wordCtrl .. | .reset | .lut _ _ | .isInv _ | .setPat .. | .setRng .. | .setEdg .. | .setTmr _ _
  | .encPat _ | .encRng _ | .encEdg _ | .encTmr _ | .encSum _ | .encState | .forState _ | .whileStoring _ | .ifTarget _
  | .occurs _ | .elseTarget _ _ | .lastState | .continueToNextState | .onHitRaiseTrigger | .onHitStartTimer1
  | .onHitStartTimer2 | .onHitStopTimer1 | .onHitStopTimer2 | .onHitClearTimer1 | .onHitClearTimer2 | .build => true

end Sys2Proof
end

