-- ==== Sys2Proof/Decode.lean ====
section
/-! DEFINITION. From bytes to instructions and back: the byte order (R41), the packings of the word formats (R76 to R83),
the bit fields of the chain addresses (R74), the frame format (R71), the host packets (command number of R90, then operand
bytes in a layout the spec does not give: DESIGN CHOICE, entry 4). Decoding is total and rejects by name. -/

namespace Sys2Proof

/-! ## Byte order and bit fields -/

/-- The four bytes of a 32-bit quantity, most significant first (R40, R41). -/
def beBytes32 (v : Word) : List Byte :=
  [v.extractLsb' 24 8, v.extractLsb' 16 8, v.extractLsb' 8 8, v.extractLsb' 0 8]

/-- The 32-bit quantity of four bytes, the first the most significant (R41, R50). -/
def be32 (b1 b2 b3 b4 : Byte) : Word := b1 ++ b2 ++ b3 ++ b4

/-- Two 16-bit tables side by side: `high` in bits 31:16, `low` in bits 15:0 (R84(g)). -/
def packHalves (high low : Half) : Word := high ++ low

def highHalf (w : Word) : Half := w.extractLsb' 16 16
def lowHalf (w : Word) : Half := w.extractLsb' 0 16

/-- A Bool as 0 or 1, shifted to bit `n` of a word (R161). -/
def flagAt (f : Bool) (n : Nat) : Word := (BitVec.ofBool f).setWidth 32 <<< n

/-- Format CTRL (R83, R160): the OR of the fields, each shifted to its position (R161). -/
def ctrlWord (last raise start2 start1 clear2 clear1 stop2 stop1 : Bool) (elseState : BitVec 4) (count : BitVec 20) : Word :=
  count.setWidth 32 ||| (elseState.setWidth 32 <<< 20) ||| flagAt stop1 24 ||| flagAt stop2 25 ||| flagAt clear1 26
    ||| flagAt clear2 27 ||| flagAt start1 28 ||| flagAt start2 29 ||| flagAt raise 30 ||| flagAt last 31

/-- Opcode byte of `SELECT` (R70). -/
def selectOpcode : Byte := 0x9E#8

/-- Opcode byte of `CHAIN` (R70). -/
def chainOpcode : Byte := 0x9F#8

/-! Format A32, the bit-field form (R74). -/

def addrFsmDescWord (s : BitVec 4) : Word := (0#28 ++ s : BitVec 32)
def addrPatternWord (k : BitVec 4) : Word := (0x2#28 ++ k : BitVec 32)
def addrRangeWord (r b : BitVec 1) : Word := (0xC#30 ++ r ++ b : BitVec 32)
def addrEdgeWord (e : BitVec 1) : Word := (0x1A#31 ++ e : BitVec 32)
def addrTimerWord (t h : BitVec 1) : Word := (0xE#30 ++ t ++ h : BitVec 32)
def addrSumWord (s : BitVec 4) (r : BitVec 2) : Word := (0x1#26 ++ s ++ r : BitVec 32)

/-! ## Encoding -/

/-- An unsigned integer as base-128 digits, least significant first, bit 7 set on every byte but the last (entry 4). The
first argument bounds the number of digits. -/
def encodeNatDigits : Nat → Nat → List Byte
  | 0, n => [BitVec.ofNat 8 (n % 128)]
  | fuel + 1, n =>
    if n < 128 then [BitVec.ofNat 8 n] else BitVec.ofNat 8 (128 + n % 128) :: encodeNatDigits fuel (n / 128)

def encodeNat (n : Nat) : List Byte := encodeNatDigits n n

/-- A mathematical integer operand (D28): a sign byte, 0 for `n` and 1 for `-(n+1)`, then the digits of `n` (entry 4). -/
def encodeInt : Int → List Byte
  | .ofNat n => 0#8 :: encodeNat n
  | .negSucc n => 1#8 :: encodeNat n

/-- An operation reference: 0x80 is the null reference, otherwise the 4-bit code (entry 4). -/
def encodeOpRef : OpRef → List Byte
  | none => [0x80#8]
  | some c => [c.setWidth 8]

/-- An input-state code, one byte (entry 4). -/
def encodeInputCode (c : BitVec 2) : List Byte := [c.setWidth 8]

/-- A sum operand: 0x80 is the null sum, otherwise 0x00 and the 27 fields in the order of R20 (entry 4). -/
def encodeSum : Option SumArg → List Byte
  | none => [0x80#8]
  | some a =>
    0x00#8 :: (a.pair.toList.flatMap encodeOpRef ++ a.mid.toList.flatMap encodeOpRef ++ encodeOpRef a.final
      ++ a.leafIn.toList.flatMap encodeInputCode)

/-- A 36-bit threshold in five bytes, most significant first (entries 4, 20). -/
def encodeThreshold (t : Threshold) : List Byte := (t.extractLsb' 32 4).setWidth 8 :: beBytes32 (t.extractLsb' 0 32)

def encodeLevel : TreeLevel → Byte
  | .pair => 0#8
  | .mid => 1#8
  | .final => 2#8

def encodeRole : Role → Byte
  | .hit => 0#8
  | .els => 1#8
  | .capture => 2#8

/-- The lane an instruction's bytes stand on. -/
def laneOf : Instr → Lane
  | .select _ | .chain _ => .frame
  | .addrFsmDesc _ | .addrPattern _ | .addrRange _ _ | .addrEdge _ | .addrTimer _ _ | .addrSum _ _ => .address
  | .wordPatw _ _ => .data .patw
  | .wordRngw _ _ => .data .rngw
  | .wordEdgw _ _ => .data .edgw
  | .wordTmrlo _ => .data .tmrlo
  | .wordTmrhi _ => .data .tmrhi
  | .wordSumf _ => .data .sumf
  | .wordSumm _ _ => .data .summ
  | .wordSump _ _ => .data .sump
  | .wordCtrl .. => .data .ctrl
  | .reset | .lut _ _ | .isInv _ | .setPat .. | .setRng .. | .setEdg .. | .setTmr _ _ | .encPat _ | .encRng _ | .encEdg _
  | .encTmr _ | .encSum _ | .encState | .forState _ | .whileStoring _ | .ifTarget _ | .occurs _ | .elseTarget _ _
  | .lastState | .continueToNextState | .onHitRaiseTrigger | .onHitStartTimer1 | .onHitStartTimer2 | .onHitStopTimer1
  | .onHitStopTimer2 | .onHitClearTimer1 | .onHitClearTimer2 | .build => .command

/-- The bytes of an instruction, from the encodings of spec/opcode_table.json (R71 to R83, R90). Words are in the layout
the table gives, which is that of the default parameters. -/
def encode : Instr → List Byte
  | .select a => selectOpcode :: beBytes32 a
  | .chain d => chainOpcode :: beBytes32 d
  | .addrFsmDesc s => beBytes32 (addrFsmDescWord s)
  | .addrPattern k => beBytes32 (addrPatternWord k)
  | .addrRange r b => beBytes32 (addrRangeWord r b)
  | .addrEdge e => beBytes32 (addrEdgeWord e)
  | .addrTimer t h => beBytes32 (addrTimerWord t h)
  | .addrSum s r => beBytes32 (addrSumWord s r)
  | .wordPatw h l => beBytes32 (packHalves h l)
  | .wordRngw f g => beBytes32 (packHalves f g)
  | .wordEdgw f g => beBytes32 (packHalves f g)
  | .wordTmrlo t => beBytes32 t
  | .wordTmrhi t => beBytes32 (t.setWidth 32)
  | .wordSumf f => beBytes32 (f.setWidth 32)
  | .wordSumm b a => beBytes32 (packHalves b a)
  | .wordSump o e => beBytes32 (packHalves o e)
  | .wordCtrl last raise start2 start1 clear2 clear1 stop2 stop1 elseState count =>
    beBytes32 (ctrlWord last raise start2 start1 clear2 clear1 stop2 stop1 elseState count)
  | .reset => [0x00#8]
  | .lut level op => 0x01#8 :: encodeLevel level :: encodeOpRef op
  | .isInv op => 0x02#8 :: encodeOpRef op
  | .setPat k value mask => 0x10#8 :: (encodeInt k ++ beBytes32 value ++ beBytes32 mask)
  | .setRng r lower upper mask => 0x11#8 :: (encodeInt r ++ beBytes32 lower ++ beBytes32 upper ++ beBytes32 mask)
  | .setEdg e rising falling neither =>
    0x12#8 :: (encodeInt e ++ beBytes32 rising ++ beBytes32 falling ++ beBytes32 neither)
  | .setTmr t threshold => 0x13#8 :: (encodeInt t ++ encodeThreshold threshold)
  | .encPat k => 0x20#8 :: encodeInt k
  | .encRng r => 0x21#8 :: encodeInt r
  | .encEdg e => 0x22#8 :: encodeInt e
  | .encTmr t => 0x23#8 :: encodeInt t
  | .encSum role => [0x24#8, encodeRole role]
  | .encState => [0x25#8]
  | .forState n => 0x30#8 :: encodeInt n
  | .whileStoring sum => 0x31#8 :: encodeSum sum
  | .ifTarget sum => 0x32#8 :: encodeSum sum
  | .occurs count => 0x33#8 :: encodeInt count
  | .elseTarget sum n => 0x34#8 :: (encodeSum sum ++ encodeInt n)
  | .lastState => [0x35#8]
  | .continueToNextState => [0x36#8]
  | .onHitRaiseTrigger => [0x37#8]
  | .onHitStartTimer1 => [0x38#8]
  | .onHitStartTimer2 => [0x39#8]
  | .onHitStopTimer1 => [0x3A#8]
  | .onHitStopTimer2 => [0x3B#8]
  | .onHitClearTimer1 => [0x3C#8]
  | .onHitClearTimer2 => [0x3D#8]
  | .build => [0x3F#8]

/-! ## Decoding -/

/-- Why bytes are no instruction. -/
inductive DecodeError where
  /-- the bytes end before the instruction does -/
  | truncated
  /-- bytes are left over after the instruction -/
  | trailing
  /-- a command number outside the 28 of R90 (U6) -/
  | unknownCommand (n : Byte)
  /-- a first frame byte other than 0x9E and 0x9F (U1) -/
  | unknownOpcode (b : Byte)
  /-- an address outside the map of R46 (U3) -/
  | unmappedAddress (a : Word)
  /-- a bit that is always zero in this word format is set (U5) -/
  | reservedBits (w : Word)
  /-- an operand byte that is no operation reference, input state, level, role, sign or presence mark (U4, entry 4) -/
  | badOperand (b : Byte)
  deriving DecidableEq, Repr

/-! A reader of the front of a byte list answers what it read and the rest. -/

def takeByte : List Byte → Except DecodeError (Byte × List Byte)
  | b :: rest => .ok (b, rest)
  | [] => .error .truncated

def takeWord : List Byte → Except DecodeError (Word × List Byte)
  | b1 :: b2 :: b3 :: b4 :: rest => .ok (be32 b1 b2 b3 b4, rest)
  | _ => .error .truncated

def takeNat : List Byte → Except DecodeError (Nat × List Byte)
  | [] => .error .truncated
  | b :: rest =>
    if b.toNat < 128 then .ok (b.toNat, rest)
    else match takeNat rest with
      | .ok (n, rest') => .ok (b.toNat - 128 + 128 * n, rest')
      | .error e => .error e

def takeInt (bytes : List Byte) : Except DecodeError (Int × List Byte) := do
  let (sign, rest) ← takeByte bytes
  let (n, rest) ← takeNat rest
  if sign = 0#8 then .ok (.ofNat n, rest) else if sign = 1#8 then .ok (.negSucc n, rest) else .error (.badOperand sign)

def takeOpRef (bytes : List Byte) : Except DecodeError (OpRef × List Byte) := do
  let (b, rest) ← takeByte bytes
  if b = 0x80#8 then .ok (none, rest)
  else if b.toNat < 16 then .ok (some (b.setWidth 4), rest)
  else .error (.badOperand b)

def takeInputCode (bytes : List Byte) : Except DecodeError ((BitVec 2) × List Byte) := do
  let (b, rest) ← takeByte bytes
  if b.toNat < 4 then .ok (b.setWidth 2, rest) else .error (.badOperand b)

/-- `n` items one after another. -/
def takeMany {α : Type} (take : List Byte → Except DecodeError (α × List Byte)) : Nat → List Byte → Except DecodeError ((List α) × List Byte)
  | 0, bytes => .ok ([], bytes)
  | n + 1, bytes => do
    let (x, rest) ← take bytes
    let (xs, rest) ← takeMany take n rest
    .ok (x :: xs, rest)

/-- The vector of a list of at least `n` items (`fill` stands for any that is missing). -/
def vectorOfList {α : Type} (n : Nat) (fill : α) (xs : List α) : Vector α n := Vector.ofFn fun i => xs.getD i.val fill

def takeSum (bytes : List Byte) : Except DecodeError ((Option SumArg) × List Byte) := do
  let (b, rest) ← takeByte bytes
  if b = 0x80#8 then .ok (none, rest)
  else if b = 0x00#8 then do
    let (pair, rest) ← takeMany takeOpRef 8 rest
    let (mid, rest) ← takeMany takeOpRef 2 rest
    let (final, rest) ← takeOpRef rest
    let (leafIn, rest) ← takeMany takeInputCode 16 rest
    .ok (some ⟨vectorOfList 8 none pair, vectorOfList 2 none mid, final, vectorOfList 16 0#2 leafIn⟩, rest)
  else .error (.badOperand b)

/-- Five bytes, of which bits 35:0 are kept (D21, entry 20). -/
def takeThreshold (bytes : List Byte) : Except DecodeError (Threshold × List Byte) := do
  let (top, rest) ← takeByte bytes
  let (low, rest) ← takeWord rest
  .ok ((top.setWidth 4 ++ low : BitVec 36), rest)

def takeLevel (bytes : List Byte) : Except DecodeError (TreeLevel × List Byte) := do
  let (b, rest) ← takeByte bytes
  if b = 0#8 then .ok (.pair, rest) else if b = 1#8 then .ok (.mid, rest) else if b = 2#8 then .ok (.final, rest)
  else .error (.badOperand b)

def takeRole (bytes : List Byte) : Except DecodeError (Role × List Byte) := do
  let (b, rest) ← takeByte bytes
  if b = 0#8 then .ok (.hit, rest) else if b = 1#8 then .ok (.els, rest) else if b = 2#8 then .ok (.capture, rest)
  else .error (.badOperand b)

/-- The operands of command number `n` (R90), read from the bytes after it. -/
def decodeCommand (n : Byte) (bytes : List Byte) : Except DecodeError (Instr × List Byte) :=
  match n with
  | 0x00#8 => .ok (.reset, bytes)
  | 0x01#8 => do
    let (level, rest) ← takeLevel bytes
    let (op, rest) ← takeOpRef rest
    .ok (.lut level op, rest)
  | 0x02#8 => do
    let (op, rest) ← takeOpRef bytes
    .ok (.isInv op, rest)
  | 0x10#8 => do
    let (k, rest) ← takeInt bytes
    let (value, rest) ← takeWord rest
    let (mask, rest) ← takeWord rest
    .ok (.setPat k value mask, rest)
  | 0x11#8 => do
    let (r, rest) ← takeInt bytes
    let (lower, rest) ← takeWord rest
    let (upper, rest) ← takeWord rest
    let (mask, rest) ← takeWord rest
    .ok (.setRng r lower upper mask, rest)
  | 0x12#8 => do
    let (e, rest) ← takeInt bytes
    let (rising, rest) ← takeWord rest
    let (falling, rest) ← takeWord rest
    let (neither, rest) ← takeWord rest
    .ok (.setEdg e rising falling neither, rest)
  | 0x13#8 => do
    let (t, rest) ← takeInt bytes
    let (threshold, rest) ← takeThreshold rest
    .ok (.setTmr t threshold, rest)
  | 0x20#8 => do
    let (k, rest) ← takeInt bytes
    .ok (.encPat k, rest)
  | 0x21#8 => do
    let (r, rest) ← takeInt bytes
    .ok (.encRng r, rest)
  | 0x22#8 => do
    let (e, rest) ← takeInt bytes
    .ok (.encEdg e, rest)
  | 0x23#8 => do
    let (t, rest) ← takeInt bytes
    .ok (.encTmr t, rest)
  | 0x24#8 => do
    let (role, rest) ← takeRole bytes
    .ok (.encSum role, rest)
  | 0x25#8 => .ok (.encState, bytes)
  | 0x30#8 => do
    let (n, rest) ← takeInt bytes
    .ok (.forState n, rest)
  | 0x31#8 => do
    let (sum, rest) ← takeSum bytes
    .ok (.whileStoring sum, rest)
  | 0x32#8 => do
    let (sum, rest) ← takeSum bytes
    .ok (.ifTarget sum, rest)
  | 0x33#8 => do
    let (count, rest) ← takeInt bytes
    .ok (.occurs count, rest)
  | 0x34#8 => do
    let (sum, rest) ← takeSum bytes
    let (n, rest) ← takeInt rest
    .ok (.elseTarget sum n, rest)
  | 0x35#8 => .ok (.lastState, bytes)
  | 0x36#8 => .ok (.continueToNextState, bytes)
  | 0x37#8 => .ok (.onHitRaiseTrigger, bytes)
  | 0x38#8 => .ok (.onHitStartTimer1, bytes)
  | 0x39#8 => .ok (.onHitStartTimer2, bytes)
  | 0x3A#8 => .ok (.onHitStopTimer1, bytes)
  | 0x3B#8 => .ok (.onHitStopTimer2, bytes)
  | 0x3C#8 => .ok (.onHitClearTimer1, bytes)
  | 0x3D#8 => .ok (.onHitClearTimer2, bytes)
  | 0x3F#8 => .ok (.build, bytes)
  | _ => .error (.unknownCommand n)

/-- A frame is told by its first byte alone (R87). -/
def decodeFrame (opcode : Byte) (operand : Word) : Except DecodeError Instr :=
  if opcode = selectOpcode then .ok (.select operand)
  else if opcode = chainOpcode then .ok (.chain operand)
  else .error (.unknownOpcode opcode)

/-- The class and fields of a chain address, by the masks and patterns of the table (R74). -/
def decodeAddress (a : Word) : Except DecodeError Instr :=
  if a &&& 0xFFFFFFF0#32 = 0x00000000#32 then .ok (.addrFsmDesc (a.extractLsb' 0 4))
  else if a &&& 0xFFFFFFF0#32 = 0x00000020#32 then
    if (a.extractLsb' 0 4).toNat < 10 then .ok (.addrPattern (a.extractLsb' 0 4)) else .error (.unmappedAddress a)
  else if a &&& 0xFFFFFFFC#32 = 0x00000030#32 then .ok (.addrRange (a.extractLsb' 1 1) (a.extractLsb' 0 1))
  else if a &&& 0xFFFFFFFE#32 = 0x00000034#32 then .ok (.addrEdge (a.extractLsb' 0 1))
  else if a &&& 0xFFFFFFFC#32 = 0x00000038#32 then .ok (.addrTimer (a.extractLsb' 1 1) (a.extractLsb' 0 1))
  else if a &&& 0xFFFFFFC0#32 = 0x00000040#32 then
    if a.extractLsb' 0 2 = 3#2 then .error (.unmappedAddress a) else .ok (.addrSum (a.extractLsb' 2 4) (a.extractLsb' 0 2))
  else .error (.unmappedAddress a)

/-- The fields of a data word of format `f` (R76 to R83). -/
def decodeWord (f : WordFormat) (w : Word) : Except DecodeError Instr :=
  match f with
  | .patw => .ok (.wordPatw (highHalf w) (lowHalf w))
  | .rngw => .ok (.wordRngw (highHalf w) (lowHalf w))
  | .edgw => .ok (.wordEdgw (highHalf w) (lowHalf w))
  | .tmrlo => .ok (.wordTmrlo w)
  | .tmrhi => if w.extractLsb' 4 28 = 0#28 then .ok (.wordTmrhi (w.extractLsb' 0 4)) else .error (.reservedBits w)
  | .sumf => if highHalf w = 0#16 then .ok (.wordSumf (lowHalf w)) else .error (.reservedBits w)
  | .summ => .ok (.wordSumm (highHalf w) (lowHalf w))
  | .sump => .ok (.wordSump (highHalf w) (lowHalf w))
  | .ctrl =>
    .ok (.wordCtrl (w.getLsbD 31) (w.getLsbD 30) (w.getLsbD 29) (w.getLsbD 28) (w.getLsbD 27) (w.getLsbD 26)
      (w.getLsbD 25) (w.getLsbD 24) (w.extractLsb' 20 4) (w.extractLsb' 0 20))

/-- An instruction read from the front of the bytes of a lane, and the rest. -/
def decodePrefix (lane : Lane) (bytes : List Byte) : Except DecodeError (Instr × List Byte) :=
  match lane with
  | .command => do
    let (n, rest) ← takeByte bytes
    decodeCommand n rest
  | .frame => do
    let (opcode, rest) ← takeByte bytes
    let (operand, rest) ← takeWord rest
    let i ← decodeFrame opcode operand
    .ok (i, rest)
  | .address => do
    let (a, rest) ← takeWord bytes
    let i ← decodeAddress a
    .ok (i, rest)
  | .data f => do
    let (w, rest) ← takeWord bytes
    let i ← decodeWord f w
    .ok (i, rest)

/-- The instruction of a packet: exactly its bytes. -/
def decode (lane : Lane) (bytes : List Byte) : Except DecodeError Instr :=
  match decodePrefix lane bytes with
  | .ok (i, []) => .ok i
  | .ok (_, _ :: _) => .error .trailing
  | .error e => .error e

/-! ## Words numbered as spec/opcode_table.json numbers them -/

/-- The lane of a table row of `nbits` bits. A row of 8 bits is a host command, of 40 a frame. A 32-bit word alone does
not say which format it has (its place in the stream does): read as an address where it is mapped, else as SUMF where the
high half is zero, else as a control word, of which every 32-bit value is one (R83) (DESIGN CHOICE, entry 3). -/
def tableLane (nbits w : Nat) : Option Lane :=
  if nbits = 8 then some .command
  else if nbits = 40 then some .frame
  else if nbits = 32 then
    match decodeAddress (BitVec.ofNat 32 w) with
    | .ok _ => some .address
    | .error _ => if highHalf (BitVec.ofNat 32 w) = 0#16 then some (.data .sumf) else some (.data .ctrl)
  else none

/-- The bytes of a table word in the order the hardware takes them: a frame's opcode first (R71, bit 39 first), a word
most significant byte first (R41), a command number followed by operand bytes of zeros. -/
def tableBytes (nbits w : Nat) : List Byte :=
  if nbits = 8 then BitVec.ofNat 8 w :: List.replicate 64 0#8
  else if nbits = 40 then BitVec.ofNat 8 (w / 4294967296) :: beBytes32 (BitVec.ofNat 32 w)
  else beBytes32 (BitVec.ofNat 32 w)

/-- The lane and exactly the bytes of the instruction a table word stands for (for a command, without the zero bytes past
its operands). -/
def tablePacket (nbits w : Nat) : Lane × List Byte :=
  match tableLane nbits w with
  | none => (.frame, [])
  | some lane =>
    match decodePrefix lane (tableBytes nbits w) with
    | .ok (_, rest) => (lane, (tableBytes nbits w).take ((tableBytes nbits w).length - rest.length))
    | .error _ => (lane, (tableBytes nbits w).take (nbits / 8))

/-- The instruction the decoder reads from a word numbered as spec/opcode_table.json numbers it. -/
def decodeTableWord (nbits w : Nat) : Option Instr :=
  match tableLane nbits w with
  | none => none
  | some lane =>
    match decodePrefix lane (tableBytes nbits w) with
    | .ok (i, _) => some i
    | .error _ => none

end Sys2Proof
end

