-- ==== Sys2Proof/Machine/State.lean ====
section
/-! DEFINITION. The state of the machine as plain data: the detector bank (R12 to R17), the builder `B` and the level
register `LVL` (R18 to R25), the stream `OUT` (R27), the reference consumer `DEV` (R50 to R56), the reply of the last
command (R28, R230), and the model's own fields (parameters, pending packets, sink answers). Reset values: R33. -/

namespace Sys2Proof.Machine

/-- The ten Operations, in the order of their offsets 0 to 9 (R10). -/
inductive Operation where
  | nop | any | and | nand | or | nor | xor | nxor | aOnly | bOnly
  deriving DecidableEq, Repr

/-- The three input states, numbered 0 to 2 (R11, D12). -/
inductive InputState where
  | disabled | enabled | enabledInverted
  deriving DecidableEq, Repr

/-- The configuration of one trigger sum (R20). `leafIn` is carried and never encoded (R148). -/
structure SumCfg where
  pair : Vector Operation 8
  mid : Vector Operation 2
  final : Operation
  leafIn : Vector InputState 16
  deriving DecidableEq, Repr

/-- `SUM0`: NOP everywhere, disabled terms (R21). -/
def SumCfg.sum0 : SumCfg where
  pair := Vector.replicate 8 .nop
  mid := Vector.replicate 2 .nop
  final := .nop
  leafIn := Vector.replicate 16 .disabled

/-- A Level: the source's Sequence State (R23). Its invariant (R24) holds by the types. -/
structure Level where
  state : BitVec 4
  cap : SumCfg
  hit : SumCfg
  els : SumCfg
  count : BitVec 20
  elseState : BitVec 4
  stop1 : Bool
  stop2 : Bool
  clear1 : Bool
  clear2 : Bool
  start1 : Bool
  start2 : Bool
  raise : Bool
  last : Bool
  deriving DecidableEq, Repr

/-- `LEVEL0`, the default Level (R18). -/
def Level.level0 : Level where
  state := 0#4
  cap := .sum0
  hit := .sum0
  els := .sum0
  count := 0#20
  elseState := 0#4
  stop1 := false
  stop2 := false
  clear1 := false
  clear2 := false
  start1 := false
  start2 := false
  raise := false
  last := false

/-- A pattern term's payload (R12). -/
structure PatTerm where
  value : Word
  mask : Word
  deriving DecidableEq, Repr

/-- A range detector's payload (R13). -/
structure RngTerm where
  lower : Word
  upper : Word
  mask : Word
  deriving DecidableEq, Repr

/-- An edge detector's payload (R14). -/
structure EdgTerm where
  rising : Word
  falling : Word
  neither : Word
  deriving DecidableEq, Repr

/-- The detector payload bank: ten patterns, two ranges, two edges, two timer thresholds (R12 to R16). -/
structure Bank where
  pat : Vector PatTerm 10
  rng : Vector RngTerm 2
  edg : Vector EdgTerm 2
  tmr : Vector Threshold 2
  deriving DecidableEq, Repr

/-- The bank at reset: all zero (R33, D15). -/
def Bank.zero : Bank where
  pat := Vector.replicate 10 ⟨0#32, 0#32⟩
  rng := Vector.replicate 2 ⟨0#32, 0#32, 0#32⟩
  edg := Vector.replicate 2 ⟨0#32, 0#32, 0#32⟩
  tmr := Vector.replicate 2 0#36

/-- `DEV.img`: the words of the last complete program of each chain address, by address. An unlisted address is `none`,
"content unspecified" (R52, R56). -/
abbrev Memory := List (Nat × List Word)

/-- The canonical form: addresses strictly rising. No entry can equal what an unlisted address reads as, since that is
`none` and an entry is a list of words. -/
abbrev Memory.wf (m : Memory) : Prop := m.Pairwise fun x y => x.1 < y.1

/-- The reference consumer of the stream (R50 to R56). `frag` holds the bytes of an incomplete frame at the end of the
stream, `stopped` that the consumer has met something unparseable and interprets no more (R50, entry 12). -/
structure Dev where
  sel : Option Word
  run : List Word
  img : Memory
  undef : Bool
  frag : List Byte
  stopped : Bool
  deriving DecidableEq, Repr

/-- The consumer at the start of a run: nothing is known of any chain (R56). -/
def Dev.start : Dev where
  sel := none
  run := []
  img := []
  undef := false
  frag := []
  stopped := false

/-- The status a host command ends with (R230). -/
inductive Status where
  | ok | invalidArgument | ioFailure
  deriving DecidableEq, Repr

/-- What a table read returns (R103, R104). -/
inductive Result where
  | table (v : Half)
  | flag (f : Bool)
  deriving DecidableEq, Repr

/-- What a command returns to the host: its status, and the result of `LUT` or `ISINV`. No command reads it (R28,
entry 8). -/
structure Reply where
  status : Status
  result : Option Result
  deriving DecidableEq, Repr

/-- Bytes with the lane on which they stand (entry 1). -/
structure Packet where
  lane : Lane
  bytes : List Byte
  deriving DecidableEq, Repr

/-- The machine's state. `params`, `port`, `inner`, `sink` and `sinkCalls` are the model's own fields (entries 1, 7, 9, 10).
`port` holds the bytes of each host command presented, oldest first: the host has no other way in (R90, R210). `inner` is a
wire command, address or word to be run alone, internal to the block: no host command and no step ever sets it (R210,
entry 1). -/
structure State where
  params : Params
  bank : Bank
  b : Level
  lvl : Level
  out : List Byte
  dev : Dev
  reply : Option Reply
  port : List (List Byte)
  inner : Option Packet
  sink : List SinkAnswer
  sinkCalls : Nat
  deriving DecidableEq, Repr

/-- The machine right after power-on (R33, R56, R260). The parameters are the spec's defaults, nothing is presented on the
port, nothing internal waits, and every sink answer is the opaque oracle's (entries 9, 10, 16). -/
def State.reset : State where
  params := Params.default
  bank := Bank.zero
  b := Level.level0
  lvl := Level.level0
  out := []
  dev := Dev.start
  reply := none
  port := []
  inner := none
  sink := []
  sinkCalls := 0

/-- Why the machine stops with a fault: never. Every error of the spec is a status returned with a next state (R230,
R231, R236; entry 27), so this type has no constructor and no one raises one. -/
inductive Fault where
  deriving DecidableEq, Repr

/-- Why the model gives no next state. -/
inductive Refusal where
  /-- Raised by an arm of `exec` whose instruction has no meaning yet; no arm is left so. Safe. -/
  | notModelled (mnemonic : String)
  /-- Raised by `step` for an internal packet on a frame, address or data lane whose bytes no row of the table reads:
  another opcode (U1), an unmapped address format (U3), a set bit that is always zero (U5), a wrong length. The block
  never emits such bytes, and no run from reset has an internal packet (R210). Safe (entry 6). -/
  | undecodableWire
  deriving DecidableEq, Repr

end Sys2Proof.Machine
end

