-- ==== Sys2Proof/Machine/AddressMap.lean ====
section
/-! DEFINITION. The chain address map: the program length of every mapped address (R46) and the address arithmetic of the
encode commands (R16, R74, R141, R163). -/

namespace Sys2Proof.Machine

/-- The number of CHAIN words of one complete program of chain address `a`; `none` where the map has no entry (R46,
R48). -/
def programLength (a : Nat) : Option Nat :=
  if a < 0x10 then some 1
  else if 0x20 ≤ a ∧ a < 0x2A then some 4
  else if 0x30 ≤ a ∧ a < 0x34 then some 16
  else if 0x34 ≤ a ∧ a < 0x36 then some 8
  else if 0x38 ≤ a ∧ a < 0x3C then some 1
  else if 0x40 ≤ a ∧ a < 0x80 ∧ a % 4 ≠ 3 then some 6
  else none

/-- The 84 mapped addresses, rising (R46). -/
def mappedAddresses : List Nat := (List.range 128).filter fun a => (programLength a).isSome

/-- Pattern `k` at `0x20 + k` (R16, R114). -/
def patAddress (k : Fin 10) : Word := 0x20#32 + BitVec.ofNat 32 k.val

/-- Range detector `r`'s base address `0x30 + 2r` (R16, R122). -/
def rngAddress (r : Fin 2) : Word := 0x30#32 + 2#32 * BitVec.ofNat 32 r.val

/-- Edge detector `e` at `0x34 + e` (R16, R129). -/
def edgAddress (e : Fin 2) : Word := 0x34#32 + BitVec.ofNat 32 e.val

/-- Timer `t`'s base address `0x38 + 2t` (R16, R131). -/
def tmrAddress (t : Fin 2) : Word := 0x38#32 + 2#32 * BitVec.ofNat 32 t.val

/-- Role offsets (R75). -/
def roleOffset : Role → Word
  | .hit => 0#32
  | .els => 1#32
  | .capture => 2#32

/-- `0x40 + 4*state + roleOffset` (R141). -/
def sumAddress (state : BitVec 4) (role : Role) : Word := 0x40#32 + 4#32 * state.setWidth 32 + roleOffset role

/-- `state & 0xF` (R163). -/
def descriptorAddress (state : BitVec 4) : Word := state.setWidth 32 &&& 0xF#32

end Sys2Proof.Machine
end

