-- ==== Sys2Proof/Machine/Device.lean ====
section
/-! DEFINITION. The chain image as a memory with one canonical form, and the reference consumer of the stream, advanced by
each accepted byte (R50 to R56, U2). -/

namespace Sys2Proof.Machine

/-- The defined content of chain `a`, `none` for "content unspecified" (R52). -/
def Memory.read : Memory → Nat → Option (List Word)
  | [], _ => none
  | (k, ws) :: rest, a => if k = a then some ws else Memory.read rest a

/-- `DEV.img[a] <- some ws`. -/
def Memory.write : Memory → Nat → List Word → Memory
  | [], a, ws => [(a, ws)]
  | (k, vs) :: rest, a, ws =>
    if a < k then (a, ws) :: (k, vs) :: rest
    else if a = k then (a, ws) :: rest
    else (k, vs) :: Memory.write rest a ws

/-- `DEV.img[a] <- none`. -/
def Memory.erase (m : Memory) (a : Nat) : Memory := m.filter fun cell => cell.1 ≠ a

namespace Dev

/-- The device must be treated as undefined: every chain's content is void (R55, entry 17). -/
def setUndef (d : Dev) : Dev := { d with undef := true, img := [] }

/-- Something that is no frame: undefined, and nothing more is interpreted (R50, U1, U2). -/
def unparseable (d : Dev) : Dev := { d.setUndef with stopped := true }

/-- `DEV.undef` is cleared at the first moment every mapped address is defined again (R55). -/
def refresh (d : Dev) : Dev :=
  if d.undef && mappedAddresses.all fun a => (d.img.read a).isSome then { d with undef := false } else d

/-- A program cut short by the next SELECT voids its address (R52, U12). -/
def dropShort (d : Dev) : Dev :=
  match d.sel with
  | none => d
  | some a =>
    match programLength a.toNat with
    | none => d
    | some n => if d.run ≠ [] ∧ d.run.length < n then { d with img := d.img.erase a.toNat } else d

/-- The frame `SEL a` (R51, R52). -/
def onSelect (d : Dev) (a : Word) : Dev := { d.dropShort with sel := some a, run := [] }

/-- The frame `CHN w` (R52): appended to the run; at exactly the map's length the program is complete; beyond it the
address is void; with no mapped address selected the device is undefined. -/
def onChain (d : Dev) (w : Word) : Dev :=
  match d.sel with
  | none => d.setUndef
  | some a =>
    match programLength a.toNat with
    | none => { d with run := d.run ++ [w] }.setUndef
    | some n =>
      if (d.run ++ [w]).length = n then
        { d with run := d.run ++ [w], img := d.img.write a.toNat (d.run ++ [w]) }.refresh
      else if n < (d.run ++ [w]).length then { d with run := d.run ++ [w], img := d.img.erase a.toNat }
      else { d with run := d.run ++ [w] }

/-- A whole frame, told by its first byte (R50, R87). -/
def onFrame (d : Dev) (opcode : Byte) (operand : Word) : Dev :=
  if opcode = selectOpcode then d.onSelect operand
  else if opcode = chainOpcode then d.onChain operand
  else d.unparseable

/-- One more byte of the stream (R50): five bytes make a frame, an incomplete frame waits for more. -/
def feed (d : Dev) (byte : Byte) : Dev :=
  if d.stopped then d
  else match d.frag with
    | [] => if byte = selectOpcode ∨ byte = chainOpcode then { d with frag := [byte] } else d.unparseable
    | [opcode, b1, b2, b3] => { d with frag := [] }.onFrame opcode (be32 b1 b2 b3 byte)
    | frag => { d with frag := frag ++ [byte] }

/-- The stream goes on with these bytes. -/
def feedAll (d : Dev) (bytes : List Byte) : Dev := bytes.foldl feed d

/-- A command ended with IOFailure (R55). If a frame was cut short, either framing restarts with the next command (the
assumption of U2) or what follows is unparseable (R50, entry 13). -/
def ioFailure (framingRestarts : Bool) (d : Dev) : Dev :=
  if d.frag = [] then d.setUndef
  else if framingRestarts then { d.setUndef with frag := [] }
  else d.unparseable

end Dev

end Sys2Proof.Machine
end

