-- ==== Sys2Proof/Machine/Ops.lean ====
section
/-! DEFINITION. The shared operations: the two sink calls and the oracle that answers them (R40), the wire primitives
`Select` and `WriteWord` (R211, R212), the emission of a list of wire commands (R213), the three ways a command ends (OK;
InvalidArgument, R231; IOFailure, R236), the register writes, and fetching the next packet. -/

namespace Sys2Proof.Machine

/-! ## The byte sink -/

/-- The oracle's answer to the n-th sink call from now: the listed one, else the free value (R40, entry 10). -/
def State.answerAt (s : State) (n : Nat) : SinkAnswer := s.sink[n]?.getD (Config.sinkOracle (s.sinkCalls + n))

/-- One sink call has been answered. -/
def State.popAnswer (s : State) : State := { s with sink := s.sink.tail, sinkCalls := s.sinkCalls + 1 }

/-- The sink has accepted these bytes: they extend `OUT` (R27) and reach the consumer in order (R49). -/
def State.deliver (bytes : List Byte) (s : State) : State :=
  { s with out := s.out ++ bytes, dev := s.dev.feedAll bytes }

/-- `SinkByte(b)` (R40): `.ok` on accept, `.error` on fail, with the state in which the call ended. -/
def State.sinkByte (byte : Byte) (s : State) : Except State State :=
  match s.answerAt 0 with
  | .accept => .ok (s.popAnswer.deliver [byte])
  | .fail _ => .error s.popAnswer

/-- `SinkU32BE(v)` (R40, D18): on fail the drawn prefix of its four bytes was accepted. -/
def State.sinkU32BE (v : Word) (s : State) : Except State State :=
  match s.answerAt 0 with
  | .accept => .ok (s.popAnswer.deliver (beBytes32 v))
  | .fail taken => .error (s.popAnswer.deliver ((beBytes32 v).take taken.val))

/-! ## Wire primitives and emission -/

/-- A wire command of an emission list (00_scope.md section 6). -/
inductive Cmd where
  | sel (a : Word)
  | chn (w : Word)
  deriving DecidableEq, Repr

/-- `Select(a)` (R211). -/
def State.select (a : Word) (s : State) : Except State State :=
  match s.sinkByte selectOpcode with
  | .ok s' => s'.sinkU32BE a
  | .error s' => .error s'

/-- `WriteWord(w)` (R212). -/
def State.writeWord (w : Word) (s : State) : Except State State :=
  match s.sinkByte chainOpcode with
  | .ok s' => s'.sinkU32BE w
  | .error s' => .error s'

def Cmd.send : Cmd → State → Except State State
  | .sel a, s => s.select a
  | .chn w, s => s.writeWord w

/-- Every wire command of the list in order, up to the first whose sink call fails (R213). -/
def emit : List Cmd → State → Except State State
  | [], s => .ok s
  | c :: rest, s =>
    match c.send s with
    | .ok s' => emit rest s'
    | .error s' => .error s'

/-- The five bytes of a wire command's frame (R71 to R73). -/
def Cmd.frame : Cmd → List Byte
  | .sel a => selectOpcode :: beBytes32 a
  | .chn w => chainOpcode :: beBytes32 w

/-- The program of one chain address: a SELECT and the words (R47). -/
def programOf (a : Word) (ws : List Word) : List Cmd := .sel a :: ws.map .chn

/-! ## How a command ends -/

/-- Status OK, with the result of a table read if there is one (R230). -/
def State.complete (result : Option Result) (s : State) : State := { s with reply := some ⟨.ok, result⟩ }

/-- `raise InvalidArgument`: the status, and nothing else changes (R231). -/
def raiseInvalidArgument (s : State) : State := { s with reply := some ⟨.invalidArgument, none⟩ }

/-- `raise IOFailure` from the state in which the failing call left the machine: the status, and the device is undefined;
`OUT` keeps what was accepted, `BANK`, `B` and `LVL` are as before (R234, R236). There is no return from it (R237). -/
def raiseIOFailure (s : State) : State :=
  { s with dev := s.dev.ioFailure s.params.framingRestarts, reply := some ⟨.ioFailure, none⟩ }

/-- The end of a command that emitted. -/
def finish : Except State State → State
  | .ok s => s.complete none
  | .error s => raiseIOFailure s

/-- A command that emits this list and changes no block state (R213, R216). -/
def runEmission (cmds : List Cmd) (s : State) : Host.Outcome State Fault Refusal := .next (finish (emit cmds s))

/-- A command that writes registers and ends OK. -/
def runWrite (write : State → State) (s : State) : Host.Outcome State Fault Refusal := .next ((write s).complete none)

/-- A command whose operand check failed. -/
def runInvalid (s : State) : Host.Outcome State Fault Refusal := .next (raiseInvalidArgument s)

/-! ## Register writes -/

def State.setPat (k : Fin 10) (t : PatTerm) (s : State) : State := { s with bank := { s.bank with pat := s.bank.pat.set k t } }
def State.setRng (r : Fin 2) (t : RngTerm) (s : State) : State := { s with bank := { s.bank with rng := s.bank.rng.set r t } }
def State.setEdg (e : Fin 2) (t : EdgTerm) (s : State) : State := { s with bank := { s.bank with edg := s.bank.edg.set e t } }
def State.setTmr (i : Fin 2) (t : Threshold) (s : State) : State := { s with bank := { s.bank with tmr := s.bank.tmr.set i t } }

/-- A write to the builder's fields. -/
def State.setB (write : Level → Level) (s : State) : State := { s with b := write s.b }

/-- `LVL <- B`, by value, and `B <- LEVEL0` (R200). -/
def State.build (s : State) : State := { s with lvl := s.b, b := Level.level0 }

/-- The transition of RESET (R260): `DEV`, the parameters and the environment's inputs are not touched (entry 15). -/
def State.resetRegisters (s : State) : State :=
  { s with bank := Bank.zero, b := Level.level0, lvl := Level.level0, out := [] }

/-! ## The command port -/

/-- The packet run next, and the state without it: an internal one if there is one (entry 1), else the host command
presented first, which stands on the command lane whatever its bytes (R90, R210); `none` when nothing is presented
(entry 7). -/
def State.fetch (s : State) : Option (Packet × State) :=
  match s.inner, s.port with
  | some p, _ => some (p, { s with inner := none })
  | none, [] => none
  | none, bytes :: rest => some (⟨.command, bytes⟩, { s with port := rest })

/-- A packet no instruction reads: on the command lane InvalidArgument and nothing changes (U4, U6, entry 5); on a wire
lane a refusal (U1, U3, entry 6). -/
def rejectPacket (lane : Lane) (s : State) : Host.Outcome State Fault Refusal :=
  match lane with
  | .command => runInvalid s
  | .frame | .address | .data _ => .refused .undecodableWire

end Sys2Proof.Machine
end

