-- ==== Sys2Proof/Machine/Operands.lean ====
section
/-! DEFINITION. The operand forms: range-checked integers (R91, R232, D27, D28), operation references and sum operands
(R180), and the two packings whose half assignment is a parameter (R121, R128, R144). -/

namespace Sys2Proof.Machine

/-- An integer operand checked against `0 .. n-1`, before any truncation (R232, D28). -/
def checkIndex (n : Nat) (z : Int) : Option (Fin n) :=
  if h : 0 ≤ z ∧ z < n then some ⟨z.toNat, by omega⟩ else none

/-- A state number or else-branch target, 0 to 15 (R181, R185). -/
def checkState (z : Int) : Option (BitVec 4) := (checkIndex 16 z).map fun n => BitVec.ofNat 4 n.val

/-- An occurrence count, 0 to 2^20-1 (R184). -/
def checkCount (z : Int) : Option (BitVec 20) := (checkIndex 1048576 z).map fun n => BitVec.ofNat 20 n.val

/-- The Operation of a 4-bit code; codes 10 to 15 are none (R10, R86(d)). -/
def Operation.ofCode (c : BitVec 4) : Option Operation :=
  match c with
  | 0#4 => some .nop
  | 1#4 => some .any
  | 2#4 => some .and
  | 3#4 => some .nand
  | 4#4 => some .or
  | 5#4 => some .nor
  | 6#4 => some .xor
  | 7#4 => some .nxor
  | 8#4 => some .aOnly
  | 9#4 => some .bOnly
  | _ => none

/-- The Operation of a reference, if it is one (R180). -/
def Operation.ofRef (r : OpRef) : Option Operation := r.bind Operation.ofCode

/-- The InputState of a 2-bit code; code 3 is none (R11, R86(e)). -/
def InputState.ofCode (c : BitVec 2) : Option InputState :=
  match c with
  | 0#2 => some .disabled
  | 1#2 => some .enabled
  | 2#2 => some .enabledInverted
  | _ => none

/-- A sum argument is valid when every operation is one of the ten and every input state one of the three (R180). -/
def validArg (a : SumArg) : Bool :=
  a.pair.toList.all (fun r => (Operation.ofRef r).isSome) && a.mid.toList.all (fun r => (Operation.ofRef r).isSome)
    && (Operation.ofRef a.final).isSome && a.leafIn.toList.all (fun c => (InputState.ofCode c).isSome)

/-- `cfg(a)`: the SumCfg of a valid argument, field by field (R180). On an invalid one it is never used. -/
def cfgOf (a : SumArg) : SumCfg where
  pair := Vector.ofFn fun i => (Operation.ofRef a.pair[i]).getD .nop
  mid := Vector.ofFn fun i => (Operation.ofRef a.mid[i]).getD .nop
  final := (Operation.ofRef a.final).getD .nop
  leafIn := Vector.ofFn fun i => (InputState.ofCode a.leafIn[i]).getD .disabled

/-- A sum operand: its SumCfg when it is there and valid (R180). -/
def checkSum : Option SumArg → Option SumCfg
  | none => none
  | some a => if validArg a then some (cfgOf a) else none

/-- Two consecutively walked tables in one word (R121, R128), by `HALF_ORDER`. -/
def packWalked (order : HalfOrder) (first second : Half) : Word :=
  match order with
  | .firstWalkedHigh => packHalves first second
  | .firstWalkedLow => packHalves second first

/-- The tables of a walk, two to a word, in walk order (R121, R128). -/
def packWalk (order : HalfOrder) : List Half → List Word
  | first :: second :: rest => packWalked order first second :: packWalk order rest
  | _ => []

/-- An odd- and an even-numbered pair's constants in one word (R144), by `PAIR_HALF`. -/
def packPair (order : PairHalf) (odd even : Half) : Word :=
  match order with
  | .oddHigh => packHalves odd even
  | .oddLow => packHalves even odd

/-- The bank slot number (R16) that feeds leaf position `i` (R22). No rule that produces bits reads it. -/
def leafSlot (p : Params) (i : Fin 16) : Option (Fin 16) := p.leafWiring[i.val]?

end Sys2Proof.Machine
end

