-- ==== Sys2Proof/Machine/Flags.lean ====
section
/-! DEFINITION. The block has no flags register and no condition codes (R28): no command writes a flag as a side effect.
What the spec calls flags are data: the control word made of a Level's fields (R160, R161), the inverted flag of an
Operation (R104), and the status codes (R230). -/

namespace Sys2Proof.Machine

/-- The codes of the three statuses (R230, D16). -/
def Status.code : Status → BitVec 2
  | .ok => 0#2
  | .invalidArgument => 1#2
  | .ioFailure => 2#2

/-- `ctrl(v)`: the control word of a Level (R161, format CTRL R83). -/
def ctrl (v : Level) : Word :=
  ctrlWord v.last v.raise v.start2 v.start1 v.clear2 v.clear1 v.stop2 v.stop1 v.elseState v.count

/-- `is_inverted`: true for NAND, NOR, NXOR (R104). -/
def isInverted : Operation → Bool
  | .nand | .nor | .nxor => true
  | .nop | .any | .and | .or | .xor | .aOnly | .bOnly => false

end Sys2Proof.Machine
end

