-- ==== Sys2Proof/Machine/OperationTable.lean ====
section
/-! DEFINITION. The Operation Table: the three LUT constant tables (R100 to R102, R105) and the commands `LUT` and `ISINV`
(R103, R104). -/

namespace Sys2Proof.Machine

/-- The offset 0 to 9 of an Operation (R10). -/
def Operation.offset : Operation → Fin 10
  | .nop => 0
  | .any => 1
  | .and => 2
  | .nand => 3
  | .or => 4
  | .nor => 5
  | .xor => 6
  | .nxor => 7
  | .aOnly => 8
  | .bOnly => 9

/-- `PAIR_LUT` (R100). -/
def pairLut : Vector Half 10 :=
  #v[0x0000#16, 0xFFFF#16, 0x8000#16, 0x7FFF#16, 0xF888#16, 0x0777#16, 0x7888#16, 0x8777#16, 0x8888#16, 0xF000#16]

/-- `MID_LUT` (R101). -/
def midLut : Vector Half 10 :=
  #v[0x0000#16, 0xFFFF#16, 0x8000#16, 0x7FFF#16, 0xFFFE#16, 0x0001#16, 0x0116#16, 0xFEE9#16, 0xEEEE#16, 0xFFF0#16]

/-- `FINAL_LUT` (R102). -/
def finalLut : Vector Half 10 :=
  #v[0x0000#16, 0xFFFF#16, 0x0008#16, 0x0007#16, 0x000E#16, 0x0001#16, 0x0006#16, 0x0009#16, 0x0002#16, 0x0004#16]

/-- `lut(level, operation)` (R103). -/
def lutConstant (level : TreeLevel) (op : Operation) : Half :=
  match level with
  | .pair => pairLut[op.offset]
  | .mid => midLut[op.offset]
  | .final => finalLut[op.offset]

/-- `LUT level, op` (R103). -/
def execLut (level : TreeLevel) (op : OpRef) (s : State) : Host.Outcome State Fault Refusal :=
  match Operation.ofRef op with
  | none => runInvalid s
  | some o => .next (s.complete (some (.table (lutConstant level o))))

/-- `ISINV op` (R104). -/
def execIsInv (op : OpRef) (s : State) : Host.Outcome State Fault Refusal :=
  match Operation.ofRef op with
  | none => runInvalid s
  | some o => .next (s.complete (some (.flag (isInverted o))))

end Sys2Proof.Machine
end

