-- ==== Sys2Proof/Machine/TermCompiler.lean ====
section
/-! DEFINITION. The trigger-term compilers: pattern (R115 to R117), range (R118 to R121, R123), edge (R124 to R128) and
timer (R130), each from a payload to the list of wire commands of its program. -/

namespace Sys2Proof.Machine

/-! ## Pattern -/

/-- A 16-bit table from its entries: entry `i` is bit `i` (R85). -/
def tableOf (entry : BitVec 4 → Bool) : Half := BitVec.ofFnLE fun i : Fin 16 => entry (BitVec.ofNat 4 i.val)

/-- Nibble `k`: bits `4k+3 : 4k` (R115). -/
def nibble (w : Word) (k : Nat) : BitVec 4 := w.extractLsb' (4 * k) 4

/-- The truth table of a nibble (R116): entry `i` is set iff `((i ^ t) & m) = 0`. -/
def nibbleTable (t m : BitVec 4) : Half := tableOf fun i => (i ^^^ t) &&& m == 0#4

/-- `T[k]` of a pattern term (R115, R116). -/
def patTable (t : PatTerm) (k : Nat) : Half := nibbleTable (nibble t.value k) (nibble t.mask k)

/-- `W[n]` (R117, format PATW R76). -/
def patWord (t : PatTerm) (n : Nat) : Word := packHalves (patTable t (2 * n + 1)) (patTable t (2 * n))

/-- The four words, most significant nibble pair first (R117). -/
def patWords (t : PatTerm) : List Word := [patWord t 3, patWord t 2, patWord t 1, patWord t 0]

/-- `ENCPAT`'s list (R114). -/
def patProgram (k : Fin 10) (t : PatTerm) : List Cmd := programOf (patAddress k) (patWords t)

/-! ## Range -/

/-- Range constants (R123). -/
def rngNop : Half := 0xFFFF#16
def rngXor1 : Half := 0x5555#16
def rngXor0 : Half := 0xAAAA#16

/-- `popcount32` (00_scope.md section 6). -/
def popcount32 (w : Word) : Nat := (List.range 32).countP fun i => w.getLsbD i

/-- The comparison targets (R118): `~(lower - 1)` with wrap, and `~upper`. -/
def targetLo (lower : Word) : Word := ~~~(lower - 1#32)
def targetHi (upper : Word) : Word := ~~~upper

/-- The aligned target `t0` (R119). For a zero mask it is never read. -/
def alignTarget (target mask : Word) : Word := target <<< (32 - popcount32 mask)

/-- The walk over the positions below `n`, from the highest down (R120). -/
def rngWalk (mask : Word) : Nat → Word → List Half
  | 0, _ => []
  | p + 1, t =>
    if mask.getLsbD p then (if t.getLsbD 31 then rngXor1 else rngXor0) :: rngWalk mask p (t <<< 1)
    else rngNop :: rngWalk mask p t

/-- The 32 halves `h[31], h[30], …, h[0]` of one boundary (R119, R120). -/
def rngHalves (target mask : Word) : List Half := rngWalk mask 32 (alignTarget target mask)

/-- `RW[0..15]` (R121). -/
def rngWords (order : HalfOrder) (target mask : Word) : List Word := packWalk order (rngHalves target mask)

/-- `ENCRNG`'s list: the lower boundary at base, the upper at base+1 (R122). -/
def rngProgram (order : HalfOrder) (r : Fin 2) (t : RngTerm) : List Cmd :=
  programOf (rngAddress r) (rngWords order (targetLo t.lower) t.mask)
    ++ programOf (rngAddress r + 1#32) (rngWords order (targetHi t.upper) t.mask)

/-! ## Edge -/

/-- Edge constants, by the parity of the bit position (R124). -/
def edgeRise (odd : Bool) : Half := if odd then 0x00CC#16 else 0x0A0A#16
def edgeFall (odd : Bool) : Half := if odd then 0x3300#16 else 0x5050#16
def edgeNeither (odd : Bool) : Half := if odd then 0xCC33#16 else 0xA5A5#16

/-- `C(b)`, the contribution of bit position `b` (R126): neither takes precedence. -/
def edgeContribution (t : EdgTerm) (b : Nat) : Half :=
  if t.neither.getLsbD b then edgeNeither (b % 2 == 1)
  else (if t.rising.getLsbD b then edgeRise (b % 2 == 1) else 0#16)
    ||| (if t.falling.getLsbD b then edgeFall (b % 2 == 1) else 0#16)

/-- `L[q]`, one table per bit pair (R127). -/
def edgeTable (t : EdgTerm) (q : Nat) : Half := edgeContribution t (2 * q + 1) ||| edgeContribution t (2 * q)

/-- `EW[0..7]`: the pairs 15 down to 0, two tables to a word (R128). -/
def edgWords (order : HalfOrder) (t : EdgTerm) : List Word :=
  packWalk order (([15, 14, 13, 12, 11, 10, 9, 8, 7, 6, 5, 4, 3, 2, 1, 0] : List Nat).map (edgeTable t))

/-- `ENCEDG`'s list (R129). -/
def edgProgram (order : HalfOrder) (e : Fin 2) (t : EdgTerm) : List Cmd := programOf (edgAddress e) (edgWords order t)

/-! ## Timer -/

/-- Format TMRLO: threshold bits 31:0 (R130). -/
def tmrLow (t : Threshold) : Word := t.extractLsb' 0 32

/-- Format TMRHI: threshold bits 35:32, bits 31:4 zero (R130). -/
def tmrHigh (t : Threshold) : Word := (t.extractLsb' 32 4).setWidth 32

/-- `ENCTMR`'s list: low word first, each word with its own SELECT (R131). -/
def tmrProgram (i : Fin 2) (t : Threshold) : List Cmd :=
  programOf (tmrAddress i) [tmrLow t] ++ programOf (tmrAddress i + 1#32) [tmrHigh t]

end Sys2Proof.Machine
end

