-- ==== Sys2Proof/Machine/Terms.lean ====
section
/-! DEFINITION. The commands of the detector bank: the four setters (R110 to R113) and the four term encoders (R114, R122,
R129, R131). -/

namespace Sys2Proof.Machine

/-- `SETPAT k, value, mask` (R110). -/
def execSetPat (k : Int) (value mask : Word) (s : State) : Host.Outcome State Fault Refusal :=
  match checkIndex 10 k with
  | none => runInvalid s
  | some i => runWrite (State.setPat i ⟨value, mask⟩) s

/-- `SETRNG r, lower, upper, mask` (R111). -/
def execSetRng (r : Int) (lower upper mask : Word) (s : State) : Host.Outcome State Fault Refusal :=
  match checkIndex 2 r with
  | none => runInvalid s
  | some i => runWrite (State.setRng i ⟨lower, upper, mask⟩) s

/-- `SETEDG e, rising, falling, neither` (R112). -/
def execSetEdg (e : Int) (rising falling neither : Word) (s : State) : Host.Outcome State Fault Refusal :=
  match checkIndex 2 e with
  | none => runInvalid s
  | some i => runWrite (State.setEdg i ⟨rising, falling, neither⟩) s

/-- `SETTMR t, threshold` (R113). -/
def execSetTmr (t : Int) (threshold : Threshold) (s : State) : Host.Outcome State Fault Refusal :=
  match checkIndex 2 t with
  | none => runInvalid s
  | some i => runWrite (State.setTmr i threshold) s

/-- `ENCPAT k` (R114). -/
def execEncPat (k : Int) (s : State) : Host.Outcome State Fault Refusal :=
  match checkIndex 10 k with
  | none => runInvalid s
  | some i => runEmission (patProgram i s.bank.pat[i]) s

/-- `ENCRNG r` (R122). -/
def execEncRng (r : Int) (s : State) : Host.Outcome State Fault Refusal :=
  match checkIndex 2 r with
  | none => runInvalid s
  | some i => runEmission (rngProgram s.params.halfOrder i s.bank.rng[i]) s

/-- `ENCEDG e` (R129). -/
def execEncEdg (e : Int) (s : State) : Host.Outcome State Fault Refusal :=
  match checkIndex 2 e with
  | none => runInvalid s
  | some i => runEmission (edgProgram s.params.halfOrder i s.bank.edg[i]) s

/-- `ENCTMR t` (R131). -/
def execEncTmr (t : Int) (s : State) : Host.Outcome State Fault Refusal :=
  match checkIndex 2 t with
  | none => runInvalid s
  | some i => runEmission (tmrProgram i s.bank.tmr[i]) s

end Sys2Proof.Machine
end

