-- ==== Sys2Proof/Machine/Sums.lean ====
section
/-! DEFINITION. The trigger-sum compiler (R140 to R148) with `ENCSUM` (R147), and the sequence-state encoder `ENCSTATE`
(R160 to R166). -/

namespace Sys2Proof.Machine

/-- `F` (R142, format SUMF R80). -/
def finalWord (c : SumCfg) : Word := (lutConstant .final c.final).setWidth 32

/-- `M` (R143, format SUMM R81). -/
def midWord (c : SumCfg) : Word := packHalves (lutConstant .mid c.mid[1]) (lutConstant .mid c.mid[0])

/-- `P[n]` (R144, format SUMP R82). -/
def pairWord (order : PairHalf) (c : SumCfg) (n : Fin 4) : Word :=
  packPair order (lutConstant .pair c.pair[2 * n.val + 1]) (lutConstant .pair c.pair[2 * n.val])

/-- A named word of the program (R140). -/
def sumWord (p : Params) (c : SumCfg) : SumWord → Word
  | .F => finalWord c
  | .M => midWord c
  | .P3 => pairWord p.pairHalf c 3
  | .P2 => pairWord p.pairHalf c 2
  | .P1 => pairWord p.pairHalf c 1
  | .P0 => pairWord p.pairHalf c 0

/-- The words of a sum in the order `SUM_ORDER` (R146). -/
def sumWords (p : Params) (c : SumCfg) : List Word := p.sumOrder.map (sumWord p c)

/-- `sumprog(s, role, cfg)` (R147, R165). -/
def sumProgram (p : Params) (state : BitVec 4) (role : Role) (c : SumCfg) : List Cmd :=
  programOf (sumAddress state role) (sumWords p c)

/-- The sum of a Level by role (R147). -/
def Level.sumOf (v : Level) : Role → SumCfg
  | .hit => v.hit
  | .els => v.els
  | .capture => v.cap

/-- `ENCSTATE`'s list: the descriptor, then capture, hit, else (R164, R165). -/
def stateProgram (p : Params) (v : Level) : List Cmd :=
  programOf (descriptorAddress v.state) [ctrl v] ++ sumProgram p v.state .capture v.cap
    ++ sumProgram p v.state .hit v.hit ++ sumProgram p v.state .els v.els

/-- `ENCSUM role` (R147). -/
def execEncSum (role : Role) (s : State) : Host.Outcome State Fault Refusal :=
  runEmission (sumProgram s.params s.lvl.state role (s.lvl.sumOf role)) s

/-- `ENCSTATE` (R165). -/
def execEncState (s : State) : Host.Outcome State Fault Refusal := runEmission (stateProgram s.params s.lvl) s

end Sys2Proof.Machine
end

