-- ==== Sys2Proof/Machine/Builder.lean ====
section
/-! DEFINITION. The level builder: the fourteen configuration commands (R181 to R194) and `build` (R200). Every operand is
checked before any write (R233). -/

namespace Sys2Proof.Machine

/-- `forState n` (R181). -/
def execForState (n : Int) (s : State) : Host.Outcome State Fault Refusal :=
  match checkState n with
  | none => runInvalid s
  | some k => runWrite (State.setB fun v => { v with state := k }) s

/-- `whileStoring sum` (R182). -/
def execWhileStoring (sum : Option SumArg) (s : State) : Host.Outcome State Fault Refusal :=
  match checkSum sum with
  | none => runInvalid s
  | some c => runWrite (State.setB fun v => { v with cap := c }) s

/-- `ifTarget sum` (R183). -/
def execIfTarget (sum : Option SumArg) (s : State) : Host.Outcome State Fault Refusal :=
  match checkSum sum with
  | none => runInvalid s
  | some c => runWrite (State.setB fun v => { v with hit := c }) s

/-- `occurs count` (R184). -/
def execOccurs (count : Int) (s : State) : Host.Outcome State Fault Refusal :=
  match checkCount count with
  | none => runInvalid s
  | some n => runWrite (State.setB fun v => { v with count := n }) s

/-- `elseTarget sum, n` (R185): both fields, or neither. -/
def execElseTarget (sum : Option SumArg) (n : Int) (s : State) : Host.Outcome State Fault Refusal :=
  match checkSum sum, checkState n with
  | some c, some k => runWrite (State.setB fun v => { v with els := c, elseState := k }) s
  | _, _ => runInvalid s

/-- `lastState` (R186). -/
def execLastState (s : State) : Host.Outcome State Fault Refusal := runWrite (State.setB fun v => { v with last := true }) s

/-- `continueToNextState` (R187). -/
def execContinueToNextState (s : State) : Host.Outcome State Fault Refusal :=
  runWrite (State.setB fun v => { v with last := false }) s

/-- `onHitRaiseTrigger` (R188). -/
def execOnHitRaiseTrigger (s : State) : Host.Outcome State Fault Refusal :=
  runWrite (State.setB fun v => { v with raise := true }) s

/-- `onHitStartTimer1` (R189). -/
def execOnHitStartTimer1 (s : State) : Host.Outcome State Fault Refusal :=
  runWrite (State.setB fun v => { v with start1 := true }) s

/-- `onHitStartTimer2` (R190). -/
def execOnHitStartTimer2 (s : State) : Host.Outcome State Fault Refusal :=
  runWrite (State.setB fun v => { v with start2 := true }) s

/-- `onHitStopTimer1` (R191). -/
def execOnHitStopTimer1 (s : State) : Host.Outcome State Fault Refusal :=
  runWrite (State.setB fun v => { v with stop1 := true }) s

/-- `onHitStopTimer2` (R192). -/
def execOnHitStopTimer2 (s : State) : Host.Outcome State Fault Refusal :=
  runWrite (State.setB fun v => { v with stop2 := true }) s

/-- `onHitClearTimer1` (R193). -/
def execOnHitClearTimer1 (s : State) : Host.Outcome State Fault Refusal :=
  runWrite (State.setB fun v => { v with clear1 := true }) s

/-- `onHitClearTimer2` (R194). -/
def execOnHitClearTimer2 (s : State) : Host.Outcome State Fault Refusal :=
  runWrite (State.setB fun v => { v with clear2 := true }) s

/-- `build` (R200). -/
def execBuild (s : State) : Host.Outcome State Fault Refusal := runWrite State.build s

end Sys2Proof.Machine
end

