-- ==== Sys2Proof/Machine/System.lean ====
section
/-! DEFINITION. The one system command, `RESET` (R260, R264). -/

namespace Sys2Proof.Machine

/-- `RESET` (R260). -/
def execReset (s : State) : Host.Outcome State Fault Refusal := runWrite State.resetRegisters s

end Sys2Proof.Machine
end

