-- ==== Sys2Proof/Machine/Wire.lean ====
section
/-! DEFINITION. The wire layer run one command at a time (entries 1, 2), internal to the block (R210): `SELECT` and `CHAIN`
are the primitives `Select` and `WriteWord` (R211, R212); a chain-address format is the operand of a `Select` (R74), a data-word format the operand
of a `WriteWord` (30_encoding.md section 3). Where a parameter decides which half a table takes, the emitted word follows
the parameter (R121, R128, R144, entry 19). -/

namespace Sys2Proof.Machine

/-- `SELECT a` (R211). -/
def execSelect (a : Word) (s : State) : Host.Outcome State Fault Refusal := runEmission [.sel a] s

/-- `CHAIN d` (R212). -/
def execChain (d : Word) (s : State) : Host.Outcome State Fault Refusal := runEmission [.chn d] s

/-- ADDR.FSM_DESC (R163): select the descriptor of state `n`. -/
def execAddrFsmDesc (n : BitVec 4) (s : State) : Host.Outcome State Fault Refusal := runEmission [.sel (addrFsmDescWord n)] s

/-- ADDR.PATTERN (R114). -/
def execAddrPattern (k : BitVec 4) (s : State) : Host.Outcome State Fault Refusal := runEmission [.sel (addrPatternWord k)] s

/-- ADDR.RANGE (R122). -/
def execAddrRange (r b : BitVec 1) (s : State) : Host.Outcome State Fault Refusal := runEmission [.sel (addrRangeWord r b)] s

/-- ADDR.EDGE (R129). -/
def execAddrEdge (e : BitVec 1) (s : State) : Host.Outcome State Fault Refusal := runEmission [.sel (addrEdgeWord e)] s

/-- ADDR.TIMER (R131). -/
def execAddrTimer (t h : BitVec 1) (s : State) : Host.Outcome State Fault Refusal := runEmission [.sel (addrTimerWord t h)] s

/-- ADDR.SUM (R141). -/
def execAddrSum (n : BitVec 4) (r : BitVec 2) (s : State) : Host.Outcome State Fault Refusal :=
  runEmission [.sel (addrSumWord n r)] s

/-- WORD.PATW (R76, R117): the table of the odd nibble high, of the even nibble low. -/
def execWordPatw (h l : Half) (s : State) : Host.Outcome State Fault Refusal := runEmission [.chn (packHalves h l)] s

/-- WORD.RNGW (R77, R121): `f` walked first. -/
def execWordRngw (f g : Half) (s : State) : Host.Outcome State Fault Refusal :=
  runEmission [.chn (packWalked s.params.halfOrder f g)] s

/-- WORD.EDGW (R78, R128): `f` walked first. -/
def execWordEdgw (f g : Half) (s : State) : Host.Outcome State Fault Refusal :=
  runEmission [.chn (packWalked s.params.halfOrder f g)] s

/-- WORD.TMRLO (R79, R130). -/
def execWordTmrlo (t : Word) (s : State) : Host.Outcome State Fault Refusal := runEmission [.chn t] s

/-- WORD.TMRHI (R79, R130): bits 31:4 zero. -/
def execWordTmrhi (t : BitVec 4) (s : State) : Host.Outcome State Fault Refusal := runEmission [.chn (t.setWidth 32)] s

/-- WORD.SUMF (R80, R142): bits 31:16 zero. -/
def execWordSumf (f : Half) (s : State) : Host.Outcome State Fault Refusal := runEmission [.chn (f.setWidth 32)] s

/-- WORD.SUMM (R81, R143): mid B high, mid A low. -/
def execWordSumm (b a : Half) (s : State) : Host.Outcome State Fault Refusal := runEmission [.chn (packHalves b a)] s

/-- WORD.SUMP (R82, R144): `o` the odd-numbered pair's constant, `e` the even-numbered one's. -/
def execWordSump (o e : Half) (s : State) : Host.Outcome State Fault Refusal :=
  runEmission [.chn (packPair s.params.pairHalf o e)] s

/-- WORD.CTRL (R83, R161). -/
def execWordCtrl (last raise start2 start1 clear2 clear1 stop2 stop1 : Bool) (elseState : BitVec 4) (count : BitVec 20)
    (s : State) : Host.Outcome State Fault Refusal :=
  runEmission [.chn (ctrlWord last raise start2 start1 clear2 clear1 stop2 stop1 elseState count)] s

end Sys2Proof.Machine
end

