-- ==== Sys2Proof/Machine/Dispatch.lean ====
section
/-! DEFINITION. One arm per constructor of `Instr`, each a direct call of its meaning. -/

namespace Sys2Proof.Machine

def exec (i : Instr) (s : State) : Host.Outcome State Fault Refusal :=
  match i with
  -- wire commands
  | .select a => Sys2Proof.Machine.execSelect a s
  | .chain d => Sys2Proof.Machine.execChain d s
  -- chain-address formats
  | .addrFsmDesc n => Sys2Proof.Machine.execAddrFsmDesc n s
  | .addrPattern k => Sys2Proof.Machine.execAddrPattern k s
  | .addrRange r b => Sys2Proof.Machine.execAddrRange r b s
  | .addrEdge e => Sys2Proof.Machine.execAddrEdge e s
  | .addrTimer t h => Sys2Proof.Machine.execAddrTimer t h s
  | .addrSum n r => Sys2Proof.Machine.execAddrSum n r s
  -- data-word formats
  | .wordPatw h l => Sys2Proof.Machine.execWordPatw h l s
  | .wordRngw f g => Sys2Proof.Machine.execWordRngw f g s
  | .wordEdgw f g => Sys2Proof.Machine.execWordEdgw f g s
  | .wordTmrlo t => Sys2Proof.Machine.execWordTmrlo t s
  | .wordTmrhi t => Sys2Proof.Machine.execWordTmrhi t s
  | .wordSumf f => Sys2Proof.Machine.execWordSumf f s
  | .wordSumm b a => Sys2Proof.Machine.execWordSumm b a s
  | .wordSump o e => Sys2Proof.Machine.execWordSump o e s
  | .wordCtrl l r t2 t1 c2 c1 p2 p1 e n => Sys2Proof.Machine.execWordCtrl l r t2 t1 c2 c1 p2 p1 e n s
  -- system and table reads
  | .reset => Sys2Proof.Machine.execReset s
  | .lut level op => Sys2Proof.Machine.execLut level op s
  | .isInv op => Sys2Proof.Machine.execIsInv op s
  -- the detector bank
  | .setPat k value mask => Sys2Proof.Machine.execSetPat k value mask s
  | .setRng r lower upper mask => Sys2Proof.Machine.execSetRng r lower upper mask s
  | .setEdg e rising falling neither => Sys2Proof.Machine.execSetEdg e rising falling neither s
  | .setTmr t threshold => Sys2Proof.Machine.execSetTmr t threshold s
  | .encPat k => Sys2Proof.Machine.execEncPat k s
  | .encRng r => Sys2Proof.Machine.execEncRng r s
  | .encEdg e => Sys2Proof.Machine.execEncEdg e s
  | .encTmr t => Sys2Proof.Machine.execEncTmr t s
  -- sums and states
  | .encSum role => Sys2Proof.Machine.execEncSum role s
  | .encState => Sys2Proof.Machine.execEncState s
  -- the level builder
  | .forState n => Sys2Proof.Machine.execForState n s
  | .whileStoring sum => Sys2Proof.Machine.execWhileStoring sum s
  | .ifTarget sum => Sys2Proof.Machine.execIfTarget sum s
  | .occurs count => Sys2Proof.Machine.execOccurs count s
  | .elseTarget sum n => Sys2Proof.Machine.execElseTarget sum n s
  | .lastState => Sys2Proof.Machine.execLastState s
  | .continueToNextState => Sys2Proof.Machine.execContinueToNextState s
  | .onHitRaiseTrigger => Sys2Proof.Machine.execOnHitRaiseTrigger s
  | .onHitStartTimer1 => Sys2Proof.Machine.execOnHitStartTimer1 s
  | .onHitStartTimer2 => Sys2Proof.Machine.execOnHitStartTimer2 s
  | .onHitStopTimer1 => Sys2Proof.Machine.execOnHitStopTimer1 s
  | .onHitStopTimer2 => Sys2Proof.Machine.execOnHitStopTimer2 s
  | .onHitClearTimer1 => Sys2Proof.Machine.execOnHitClearTimer1 s
  | .onHitClearTimer2 => Sys2Proof.Machine.execOnHitClearTimer2 s
  | .build => Sys2Proof.Machine.execBuild s

end Sys2Proof.Machine
end

