-- ==== Sys2Proof/Machine/Step.lean ====
section
/-! DEFINITION. One step: the next packet is taken, decoded and executed as one atomic command (D1). With nothing
presented the block waits (R236(e), entry 7). -/

namespace Sys2Proof.Machine

def step (s : State) : Host.Outcome State Fault Refusal :=
  match s.fetch with
  | none => .next s
  | some (p, s') =>
    match decode p.lane p.bytes with
    | .ok i => exec i s'
    | .error _ => rejectPacket p.lane s'

/-- The state in which the next step runs exactly the packet of a table word: a host command is presented first on the port,
a wire row is placed as the internal packet (entries 1, 7). -/
def State.withFetchWord (s : State) (nbits w : Nat) : State :=
  match tablePacket nbits w with
  | (.command, bytes) => { s with inner := none, port := bytes :: s.port }
  | (lane, bytes) => { s with inner := some ⟨lane, bytes⟩ }

end Sys2Proof.Machine
end

