-- ==== Sys2Proof/Safety.lean ====
section
/-! DEFINITION. The terms claims use: an accepting sink, the state after a list of wire commands was accepted, what each
instruction emits, when its operands are in range, the invariant of a run, what it means that the device holds a program,
and the host duties that can be said of one state (R149, R265). -/

namespace Sys2Proof.Machine

/-- The next `n` sink calls are accepted ("a reliable, ordered byte sink", R40). -/
abbrev State.accepts (s : State) (n : Nat) : Prop := ∀ k < n, s.answerAt k = .accept

/-- `n` sink calls have been answered. -/
def State.popAnswers (n : Nat) (s : State) : State := { s with sink := s.sink.drop n, sinkCalls := s.sinkCalls + n }

/-- The bytes of a list of wire commands, five to a frame, in order (R71, R213). -/
def framesOf (cmds : List Cmd) : List Byte := cmds.flatMap Cmd.frame

/-- The state after the sink accepted every byte of the list: two sink calls a command (R211, R212). -/
def State.sent (cmds : List Cmd) (s : State) : State := (s.popAnswers (2 * cmds.length)).deliver (framesOf cmds)

/-- How many bytes of the frames were accepted when the first failing sink call is the n-th (from 0): five for every pair of
earlier calls, and in the second call of a frame the opcode byte and the drawn prefix (R40, D18). -/
def bytesAccepted (n : Nat) (taken : Fin 4) : Nat := 5 * (n / 2) + if n % 2 = 0 then 0 else 1 + taken.val

/-- The wire commands an instruction emits in a state when no sink call fails; none for an instruction that emits nothing
and for an operand out of range (R213, R217, R231). -/
def emission (i : Instr) (s : State) : List Cmd :=
  match i with
  | .select a => [.sel a]
  | .chain d => [.chn d]
  | .addrFsmDesc n => [.sel (addrFsmDescWord n)]
  | .addrPattern k => [.sel (addrPatternWord k)]
  | .addrRange r b => [.sel (addrRangeWord r b)]
  | .addrEdge e => [.sel (addrEdgeWord e)]
  | .addrTimer t h => [.sel (addrTimerWord t h)]
  | .addrSum n r => [.sel (addrSumWord n r)]
  | .wordPatw h l => [.chn (packHalves h l)]
  | .wordRngw f g => [.chn (packWalked s.params.halfOrder f g)]
  | .wordEdgw f g => [.chn (packWalked s.params.halfOrder f g)]
  | .wordTmrlo t => [.chn t]
  | .wordTmrhi t => [.chn (t.setWidth 32)]
  | .wordSumf f => [.chn (f.setWidth 32)]
  | .wordSumm b a => [.chn (packHalves b a)]
  | .wordSump o e => [.chn (packPair s.params.pairHalf o e)]
  | .wordCtrl l r t2 t1 c2 c1 p2 p1 e n => [.chn (ctrlWord l r t2 t1 c2 c1 p2 p1 e n)]
  | .encPat k => (checkIndex 10 k).elim [] fun k => patProgram k s.bank.pat[k]
  | .encRng r => (checkIndex 2 r).elim [] fun r => rngProgram s.params.halfOrder r s.bank.rng[r]
  | .encEdg e => (checkIndex 2 e).elim [] fun e => edgProgram s.params.halfOrder e s.bank.edg[e]
  | .encTmr t => (checkIndex 2 t).elim [] fun t => tmrProgram t s.bank.tmr[t]
  | .encSum role => sumProgram s.params s.lvl.state role (s.lvl.sumOf role)
  | .encState => stateProgram s.params s.lvl
  | .reset | .lut _ _ | .isInv _ | .setPat .. | .setRng .. | .setEdg .. | .setTmr _ _ | .forState _ | .whileStoring _
  | .ifTarget _ | .occurs _ | .elseTarget _ _ | .lastState | .continueToNextState | .onHitRaiseTrigger | .onHitStartTimer1
  | .onHitStartTimer2 | .onHitStopTimer1 | .onHitStopTimer2 | .onHitClearTimer1 | .onHitClearTimer2 | .build => []

/-- Whether a wire command is a SELECT (R71). -/
def Cmd.isSelect : Cmd → Bool
  | .sel _ => true
  | .chn _ => false

/-- SELECT frames, CHAIN frames and bytes of a successful host command: the table of R217. -/
def frameCount (i : Instr) : Nat × Nat × Nat :=
  match i with
  | .encPat _ => (1, 4, 25)
  | .encRng _ => (2, 32, 170)
  | .encEdg _ => (1, 8, 45)
  | .encTmr _ => (2, 2, 20)
  | .encSum _ => (1, 6, 35)
  | .encState => (4, 19, 115)
  | _ => (0, 0, 0)

/-- An operation reference that is one of the ten (R232). -/
abbrev opRefInRange (r : OpRef) : Prop := ∃ c, r = some c ∧ c.toNat < 10

/-- A sum operand free of every cause of InvalidArgument in R232's table: not null, no null operation, no operation code
10 to 15, no input-state code 3. -/
abbrev sumInRange (sum : Option SumArg) : Prop :=
  ∃ a, sum = some a ∧ (∀ r ∈ a.pair.toList, opRefInRange r) ∧ (∀ r ∈ a.mid.toList, opRefInRange r)
    ∧ opRefInRange a.final ∧ ∀ c ∈ a.leafIn.toList, c ≠ 3#2

/-- The operands are in range: the negation of every cause of InvalidArgument in R232's table, written from that table. -/
def operandsInRange (i : Instr) : Prop :=
  match i with
  | .forState n => 0 ≤ n ∧ n ≤ 15
  | .elseTarget sum n => sumInRange sum ∧ 0 ≤ n ∧ n ≤ 15
  | .occurs count => 0 ≤ count ∧ count ≤ 1048575
  | .whileStoring sum => sumInRange sum
  | .ifTarget sum => sumInRange sum
  | .lut _ op => opRefInRange op
  | .isInv op => opRefInRange op
  | .setPat k _ _ => 0 ≤ k ∧ k ≤ 9
  | .encPat k => 0 ≤ k ∧ k ≤ 9
  | .setRng r _ _ _ => 0 ≤ r ∧ r ≤ 1
  | .encRng r => 0 ≤ r ∧ r ≤ 1
  | .setEdg e _ _ _ => 0 ≤ e ∧ e ≤ 1
  | .encEdg e => 0 ≤ e ∧ e ≤ 1
  | .setTmr t _ => 0 ≤ t ∧ t ≤ 1
  | .encTmr t => 0 ≤ t ∧ t ≤ 1
  | .select _ | .chain _ | .addrFsmDesc _ | .addrPattern _ | .addrRange _ _ | .addrEdge _ | .addrTimer _ _ | .addrSum _ _
  | .wordPatw _ _ | .wordRngw _ _ | .wordEdgw _ _ | .wordTmrlo _ | .wordTmrhi _ | .wordSumf _ | .wordSumm _ _
  | .wordSump _ _ | .wordCtrl .. | .reset | .encSum _ | .encState | .lastState | .continueToNextState
  | .onHitRaiseTrigger | .onHitStartTimer1 | .onHitStartTimer2 | .onHitStopTimer1 | .onHitStopTimer2 | .onHitClearTimer1
  | .onHitClearTimer2 | .build => True

/-- What one whole frame does to a consumer that stands at a frame boundary (R51, R52). -/
def Dev.onCmd (d : Dev) : Cmd → Dev
  | .sel a => d.onSelect a
  | .chn w => d.onChain w

/-- The consumer stands at a frame boundary and interprets (R50). -/
abbrev Dev.aligned (d : Dev) : Prop := d.stopped = false ∧ d.frag = []

/-- Every entry of the image is a complete program of a mapped address (R52). -/
abbrev Dev.imgComplete (d : Dev) : Prop := ∀ cell ∈ d.img, programLength cell.1 = some cell.2.length

/-- The fragment is the front of one frame: fewer than five bytes, the first an opcode (R50). -/
abbrev Dev.fragIsFrame (d : Dev) : Prop :=
  d.frag.length < 5 ∧ ∀ op ∈ d.frag.head?, op = selectOpcode ∨ op = chainOpcode

/-- What every run keeps of the consumer: the image's canonical form and completeness, a fragment that is the front of a
frame, no word chained without a selection, an undefined device with some mapped address undefined (R55), and an
undefined device once interpretation has stopped (R50). -/
abbrev Dev.wf (d : Dev) : Prop :=
  d.img.wf ∧ d.imgComplete ∧ d.fragIsFrame ∧ (d.sel = none → d.run = [])
    ∧ (d.undef = true → ∃ a ∈ mappedAddresses, d.img.read a = none) ∧ (d.stopped = true → d.undef = true)

/-- The invariant of a run: the parameters are legal (R3), the consumer is well formed, and between commands it stands at
a frame boundary unless it has stopped interpreting (R42, R50). The invariant of R24 holds by the types of Level. -/
def State.Inv (s : State) : Prop := s.params.wf ∧ s.dev.wf ∧ (s.dev.stopped = false → s.dev.frag = [])

/-- The device is known to hold `ws` as the program of chain `a` (R52, R55, R265). -/
abbrev State.deviceHolds (s : State) (a : Nat) (ws : List Word) : Prop :=
  s.dev.undef = false ∧ s.dev.img.read a = some ws

/-- The table of walk position `p` among `n` positions walked from `n-1` down to 0, read from the packed words of the walk
(R121, R128): an odd position is the first walked of its word. -/
def walkedTable (order : HalfOrder) (n : Nat) (ws : List Word) (p : Nat) : Half :=
  if (p % 2 = 1) = (order = .firstWalkedHigh) then highHalf (ws.getD ((n - 1 - p) / 2) 0#32)
  else lowHalf (ws.getD ((n - 1 - p) / 2) 0#32)

/-- The number of mask bits set below position `p`. -/
def maskBitsBelow (mask : Word) (p : Nat) : Nat := (List.range p).countP fun i => mask.getLsbD i

/-- The code of an input state (R11, D12). -/
def inputCode : InputState → BitVec 2
  | .disabled => 0#2
  | .enabled => 1#2
  | .enabledInverted => 2#2

/-- `c` is the SumCfg of the argument `a`, field by field (R180). -/
abbrev isCfgOf (c : SumCfg) (a : SumArg) : Prop :=
  (∀ p : Fin 8, a.pair[p] = some (BitVec.ofNat 4 c.pair[p].offset.val))
    ∧ (∀ m : Fin 2, a.mid[m] = some (BitVec.ofNat 4 c.mid[m].offset.val))
    ∧ a.final = some (BitVec.ofNat 4 c.final.offset.val)
    ∧ ∀ l : Fin 16, a.leafIn[l] = inputCode c.leafIn[l]

/-- The two sums have the same eleven operations (R148). -/
abbrev SumCfg.sameOperations (c d : SumCfg) : Prop := c.pair = d.pair ∧ c.mid = d.mid ∧ c.final = d.final

/-- The two levels have the same fields of the control word (R160). -/
abbrev Level.sameControlFields (v w : Level) : Prop :=
  v.count = w.count ∧ v.elseState = w.elseState ∧ v.stop1 = w.stop1 ∧ v.stop2 = w.stop2 ∧ v.clear1 = w.clear1
    ∧ v.clear2 = w.clear2 ∧ v.start1 = w.start1 ∧ v.start2 = w.start2 ∧ v.raise = w.raise ∧ v.last = w.last

/-- The instruction appends the same bytes to OUT in both states, with as many sink calls, and ends with the same reply; and
where the consumer was the same it is the same after. -/
def sendAlike (i : Instr) (s s' : State) : Prop :=
  ∃ t t' bytes n, exec i s = .next t ∧ exec i s' = .next t' ∧ t.out = s.out ++ bytes ∧ t'.out = s'.out ++ bytes
    ∧ t.sink = s.sink.drop n ∧ t'.sink = s'.sink.drop n ∧ t.sinkCalls = s.sinkCalls + n ∧ t'.sinkCalls = s'.sinkCalls + n
    ∧ t'.reply = t.reply
    ∧ (s'.dev = s.dev → s'.params.framingRestarts = s.params.framingRestarts → t'.dev = t.dev)

/-- A conventional sum (R149, R276): a pair of two disabled leaves has the operation NOP. A host duty the block does not
enforce. -/
abbrev SumCfg.conventional (c : SumCfg) : Prop :=
  ∀ p : Fin 8, c.leafIn[2 * p.val] = .disabled → c.leafIn[2 * p.val + 1] = .disabled → c.pair[p] = .nop

end Sys2Proof.Machine
end

