-- ==== Sys2Proof/Certificates/Slice0/Obligations.lean ====
section
/-! DEFINITION. The statements for the provers. Each docstring names the rules of spec/ it formalises; "the spec's own
decision D<n>" marks a clause that the spec decided where its source was silent, "entry <n>" a clause of the model's. -/

open Sys2Proof Sys2Proof.Machine

/-! ## Encoding -/

/-- Decode and encode agree for every instruction of the table, with every operand (R71, R74, R76 to R83, R90). The operand
bytes of the host commands are the model's layout (entry 4). -/
def Obligations.DecodeEncodeRoundTrip : Prop :=
  ∀ i : Instr, i.wellFormed = true → decode (laneOf i) (encode i) = .ok i

/-- What the decoder reads is an instruction of the table, on its own lane: no unmapped field value gets through (R46, R74,
R75). -/
def Obligations.DecodedIsWellFormedOnItsLane : Prop :=
  ∀ (lane : Lane) (bytes : List Byte) (i : Instr), decode lane bytes = .ok i → i.wellFormed = true ∧ laneOf i = lane

/-- On the wire every frame, address and data word has one meaning: what is decoded encodes to the same bytes (R71, R74,
R76 to R83). -/
def Obligations.WireBytesHaveOneMeaning : Prop :=
  ∀ (lane : Lane) (bytes : List Byte) (i : Instr), lane ≠ .command → decode lane bytes = .ok i → encode i = bytes

/-- A few words written out from the spec's encodings decode to the instructions they stand for: the example frames of R72
and R73, an address of each class (R74), a control word (R83), two command numbers (R90). -/
def Obligations.SpecWordsDecode : Prop :=
  decode .frame [0x9E#8, 0x00#8, 0x00#8, 0x00#8, 0x42#8] = .ok (.select 0x42#32)
  ∧ decode .frame [0x9F#8, 0xFF#8, 0xFF#8, 0x04#8, 0x00#8] = .ok (.chain 0xFFFF0400#32)
  ∧ decode .address [0x00#8, 0x00#8, 0x00#8, 0x0B#8] = .ok (.addrFsmDesc 11#4)
  ∧ decode .address [0x00#8, 0x00#8, 0x00#8, 0x29#8] = .ok (.addrPattern 9#4)
  ∧ decode .address [0x00#8, 0x00#8, 0x00#8, 0x32#8] = .ok (.addrRange 1#1 0#1)
  ∧ decode .address [0x00#8, 0x00#8, 0x00#8, 0x35#8] = .ok (.addrEdge 1#1)
  ∧ decode .address [0x00#8, 0x00#8, 0x00#8, 0x39#8] = .ok (.addrTimer 0#1 1#1)
  ∧ decode .address [0x00#8, 0x00#8, 0x00#8, 0x7E#8] = .ok (.addrSum 15#4 2#2)
  ∧ decode (.data .ctrl) [0x50#8, 0x30#8, 0x00#8, 0x05#8]
      = .ok (.wordCtrl false true false true false false false false 3#4 5#20)
  ∧ decode .command [0x00#8] = .ok .reset
  ∧ decode .command [0x3F#8] = .ok .build

/-- The arithmetic form and the bit-field form of every chain address agree, and each is mapped with the program length of
R46 (R74, R46). -/
def Obligations.AddressFormsAgree : Prop :=
  (∀ n : BitVec 4, descriptorAddress n = addrFsmDescWord n ∧ programLength (descriptorAddress n).toNat = some 1)
  ∧ (∀ k : Fin 10, patAddress k = addrPatternWord (BitVec.ofNat 4 k.val) ∧ programLength (patAddress k).toNat = some 4)
  ∧ (∀ r : Fin 2, rngAddress r = addrRangeWord (BitVec.ofNat 1 r.val) 0#1
      ∧ rngAddress r + 1#32 = addrRangeWord (BitVec.ofNat 1 r.val) 1#1
      ∧ programLength (rngAddress r).toNat = some 16 ∧ programLength (rngAddress r + 1#32).toNat = some 16)
  ∧ (∀ e : Fin 2, edgAddress e = addrEdgeWord (BitVec.ofNat 1 e.val) ∧ programLength (edgAddress e).toNat = some 8)
  ∧ (∀ t : Fin 2, tmrAddress t = addrTimerWord (BitVec.ofNat 1 t.val) 0#1
      ∧ tmrAddress t + 1#32 = addrTimerWord (BitVec.ofNat 1 t.val) 1#1
      ∧ programLength (tmrAddress t).toNat = some 1 ∧ programLength (tmrAddress t + 1#32).toNat = some 1)
  ∧ ∀ n : BitVec 4,
      sumAddress n .hit = addrSumWord n 0#2 ∧ sumAddress n .els = addrSumWord n 1#2 ∧ sumAddress n .capture = addrSumWord n 2#2
      ∧ ∀ role : Role, programLength (sumAddress n role).toNat = some 6

/-! ## Steps -/

/-- A step takes the next packet and, if it decodes, is exec of that instruction at the state without it (one command, one
atomic step: the spec's own decision D1): the host command presented first, read on the command lane (the port as a list
is entry 7), unless an internal packet waits (R210, entry 1). -/
def Obligations.StepRunsTheDecodedPacket : Prop :=
  (∀ (s : State) (bytes : List Byte) (rest : List (List Byte)) (i : Instr),
    s.inner = none → s.port = bytes :: rest → decode .command bytes = .ok i → step s = exec i { s with port := rest })
  ∧ ∀ (s : State) (p : Packet) (i : Instr),
    s.inner = some p → decode p.lane p.bytes = .ok i → step s = exec i { s with inner := none }

/-- A host command that no row reads answers InvalidArgument and changes nothing (93_implementation_defined.md U6; operand
bytes: entry 5); an internal packet that no row reads is refused on a wire lane (U1, U3, entry 6) and answers
InvalidArgument on the command lane; with nothing presented the block waits (R236(e), entry 7). -/
def Obligations.UndecodablePacketsAndIdleSteps : Prop :=
  (∀ (s : State) (bytes : List Byte) (rest : List (List Byte)) (e : DecodeError),
    s.inner = none → s.port = bytes :: rest → decode .command bytes = .error e →
      step s = .next { s with port := rest, reply := some ⟨.invalidArgument, none⟩ })
  ∧ (∀ (s : State) (p : Packet) (e : DecodeError),
    s.inner = some p → decode p.lane p.bytes = .error e →
      (p.lane = .command → step s = .next { s with inner := none, reply := some ⟨.invalidArgument, none⟩ })
      ∧ (p.lane ≠ .command → step s = .refused .undecodableWire))
  ∧ ∀ s : State, s.inner = none → s.port = [] → step s = .next s

/-- The state a table word is placed in runs exactly that word's instruction next, whatever else waits, and nothing else is
changed (entries 1, 3, 7). -/
def Obligations.PlacedTableWordRunsNext : Prop :=
  ∀ (s : State) (nbits w : Nat) (i : Instr),
    decodeTableWord nbits w = some i → step (s.withFetchWord nbits w) = exec i { s with inner := none }

/-! ## The wire -/

/-- `Select(a)`: with the sink accepting, the five bytes 9E a[31:24] a[23:16] a[15:8] a[7:0] are appended to OUT and nothing
but the consumer, the answers used and the reply changes; the chain at a becomes the target; on a failing call IOFailure,
with what was accepted before the fail, and no block state written; the host commands only ever pass a mapped address
(R211; what a failing call leaves is R40, its bytes the spec's own decision D18 and entry 11; that SELECT runs alone to an OK
or IOFailure reply is entries 1 and 18, since by R210 no host command invokes it; the consumer is the spec's own decision
D19). -/
def Obligations.SelectPrimitive : Prop :=
  ∀ (a : Word) (s : State),
    (s.accepts 2 → exec (.select a) s = .next { s with
        out := s.out ++ [0x9E#8, a.extractLsb' 24 8, a.extractLsb' 16 8, a.extractLsb' 8 8, a.extractLsb' 0 8]
        dev := s.dev.feedAll [0x9E#8, a.extractLsb' 24 8, a.extractLsb' 16 8, a.extractLsb' 8 8, a.extractLsb' 0 8]
        sink := s.sink.drop 2, sinkCalls := s.sinkCalls + 2, reply := some ⟨.ok, none⟩ })
    ∧ (s.dev.aligned →
        (s.dev.feedAll [0x9E#8, a.extractLsb' 24 8, a.extractLsb' 16 8, a.extractLsb' 8 8, a.extractLsb' 0 8]).sel = some a)
    ∧ (∀ n, s.answerAt 0 = .fail n → ∃ t, exec (.select a) s = .next t ∧ t.reply = some ⟨.ioFailure, none⟩ ∧ t.out = s.out
        ∧ t.bank = s.bank ∧ t.b = s.b ∧ t.lvl = s.lvl)
    ∧ (∀ n, s.answerAt 0 = .accept → s.answerAt 1 = .fail n → ∃ t, exec (.select a) s = .next t
        ∧ t.reply = some ⟨.ioFailure, none⟩ ∧ t.bank = s.bank ∧ t.b = s.b ∧ t.lvl = s.lvl
        ∧ t.out = s.out ++ 0x9E#8 ::
            [a.extractLsb' 24 8, a.extractLsb' 16 8, a.extractLsb' 8 8, a.extractLsb' 0 8].take n.val)
    ∧ (∀ i, s.params.wf → laneOf i = .command → .sel a ∈ emission i s → (programLength a.toNat).isSome = true)

/-- `WriteWord(w)`: with the sink accepting, the five bytes 9F w[31:24] w[23:16] w[15:8] w[7:0] are appended to OUT and nothing
but the consumer, the answers used and the reply changes; w is shifted into the selected chain, whose selection does not
change; on a failing call IOFailure, with what was accepted before the fail, and no block state written (R212; what a failing
call leaves is R40, its bytes the spec's own decision D18 and entry 11; that CHAIN runs alone to an OK or IOFailure reply is
entries 1 and 18, since by R210 no host command invokes it; the consumer is the spec's own decision D19). -/
def Obligations.ChainPrimitive : Prop :=
  ∀ (w : Word) (s : State),
    (s.accepts 2 → exec (.chain w) s = .next { s with
        out := s.out ++ [0x9F#8, w.extractLsb' 24 8, w.extractLsb' 16 8, w.extractLsb' 8 8, w.extractLsb' 0 8]
        dev := s.dev.feedAll [0x9F#8, w.extractLsb' 24 8, w.extractLsb' 16 8, w.extractLsb' 8 8, w.extractLsb' 0 8]
        sink := s.sink.drop 2, sinkCalls := s.sinkCalls + 2, reply := some ⟨.ok, none⟩ })
    ∧ (s.dev.aligned → ∀ a, s.dev.sel = some a →
        (s.dev.feedAll [0x9F#8, w.extractLsb' 24 8, w.extractLsb' 16 8, w.extractLsb' 8 8, w.extractLsb' 0 8]).run
          = s.dev.run ++ [w]
        ∧ (s.dev.feedAll [0x9F#8, w.extractLsb' 24 8, w.extractLsb' 16 8, w.extractLsb' 8 8, w.extractLsb' 0 8]).sel
          = some a)
    ∧ (∀ n, s.answerAt 0 = .fail n → ∃ t, exec (.chain w) s = .next t ∧ t.reply = some ⟨.ioFailure, none⟩ ∧ t.out = s.out
        ∧ t.bank = s.bank ∧ t.b = s.b ∧ t.lvl = s.lvl)
    ∧ (∀ n, s.answerAt 0 = .accept → s.answerAt 1 = .fail n → ∃ t, exec (.chain w) s = .next t
        ∧ t.reply = some ⟨.ioFailure, none⟩ ∧ t.bank = s.bank ∧ t.b = s.b ∧ t.lvl = s.lvl
        ∧ t.out = s.out ++ 0x9F#8 ::
            [w.extractLsb' 24 8, w.extractLsb' 16 8, w.extractLsb' 8 8, w.extractLsb' 0 8].take n.val)

/-- Each chain-address format completes as the SELECT of the address of R46 and R74 (that the row runs as a Select is entry
2): 0x00+s, 0x20+k, 0x30+2r+b, 0x34+e, 0x38+2t+h, 0x40+4s+r. -/
def Obligations.AddressFormatsSelect : Prop :=
  ∀ s : State, s.accepts 2 →
    (∀ n, exec (.addrFsmDesc n) s = .next ((s.sent [.sel (BitVec.ofNat 32 n.toNat)]).complete none))
    ∧ (∀ k, exec (.addrPattern k) s = .next ((s.sent [.sel (BitVec.ofNat 32 (0x20 + k.toNat))]).complete none))
    ∧ (∀ r b, exec (.addrRange r b) s
        = .next ((s.sent [.sel (BitVec.ofNat 32 (0x30 + 2 * r.toNat + b.toNat))]).complete none))
    ∧ (∀ e, exec (.addrEdge e) s = .next ((s.sent [.sel (BitVec.ofNat 32 (0x34 + e.toNat))]).complete none))
    ∧ (∀ t h, exec (.addrTimer t h) s
        = .next ((s.sent [.sel (BitVec.ofNat 32 (0x38 + 2 * t.toNat + h.toNat))]).complete none))
    ∧ ∀ n r, exec (.addrSum n r) s
        = .next ((s.sent [.sel (BitVec.ofNat 32 (0x40 + 4 * n.toNat + r.toNat))]).complete none)

/-- Each data-word format completes as the CHAIN of the word its fields make (R76 to R83; that the row runs as a WriteWord
is entry 2; the half assignment of RNGW, EDGW and SUMP follows the parameters, entry 19). -/
def Obligations.WordFormatsChain : Prop :=
  ∀ s : State, s.accepts 2 →
    (∀ h l, exec (.wordPatw h l) s = .next ((s.sent [.chn (BitVec.ofNat 32 (65536 * h.toNat + l.toNat))]).complete none))
    ∧ (∀ f g, s.params.halfOrder = .firstWalkedHigh →
        exec (.wordRngw f g) s = .next ((s.sent [.chn (BitVec.ofNat 32 (65536 * f.toNat + g.toNat))]).complete none)
        ∧ exec (.wordEdgw f g) s = .next ((s.sent [.chn (BitVec.ofNat 32 (65536 * f.toNat + g.toNat))]).complete none))
    ∧ (∀ f g, s.params.halfOrder = .firstWalkedLow →
        exec (.wordRngw f g) s = .next ((s.sent [.chn (BitVec.ofNat 32 (65536 * g.toNat + f.toNat))]).complete none)
        ∧ exec (.wordEdgw f g) s = .next ((s.sent [.chn (BitVec.ofNat 32 (65536 * g.toNat + f.toNat))]).complete none))
    ∧ (∀ t, exec (.wordTmrlo t) s = .next ((s.sent [.chn t]).complete none))
    ∧ (∀ t, exec (.wordTmrhi t) s = .next ((s.sent [.chn (BitVec.ofNat 32 t.toNat)]).complete none))
    ∧ (∀ f, exec (.wordSumf f) s = .next ((s.sent [.chn (BitVec.ofNat 32 f.toNat)]).complete none))
    ∧ (∀ b a, exec (.wordSumm b a) s = .next ((s.sent [.chn (BitVec.ofNat 32 (65536 * b.toNat + a.toNat))]).complete none))
    ∧ (∀ o e, s.params.pairHalf = .oddHigh →
        exec (.wordSump o e) s = .next ((s.sent [.chn (BitVec.ofNat 32 (65536 * o.toNat + e.toNat))]).complete none))
    ∧ (∀ o e, s.params.pairHalf = .oddLow →
        exec (.wordSump o e) s = .next ((s.sent [.chn (BitVec.ofNat 32 (65536 * e.toNat + o.toNat))]).complete none))
    ∧ ∀ l r t2 t1 c2 c1 p2 p1 e n, exec (.wordCtrl l r t2 t1 c2 c1 p2 p1 e n) s
        = .next ((s.sent [.chn (BitVec.ofNat 32 (n.toNat + 2 ^ 20 * e.toNat + 2 ^ 24 * p1.toNat + 2 ^ 25 * p2.toNat
            + 2 ^ 26 * c1.toNat + 2 ^ 27 * c2.toNat + 2 ^ 28 * t1.toNat + 2 ^ 29 * t2.toNat + 2 ^ 30 * r.toNat
            + 2 ^ 31 * l.toNat))]).complete none)

/-! ## How commands end -/

/-- Every instruction ends with a next state and a reply: there is no fault and no refusal (R230: "There is no other
exception"). -/
def Obligations.EveryInstructionAnswersAReply : Prop :=
  ∀ (i : Instr) (s : State), ∃ t r, exec i s = .next t ∧ t.reply = some r

/-- Any failing sink call stops the command there (R213, R236(a), (b); the bytes of a failed 32-bit call are the spec's own
decision D18): exactly the bytes accepted before and in the failing call are in OUT. -/
def Obligations.FirstFailingCallStopsTheCommand : Prop :=
  ∀ (i : Instr) (s : State) (n : Nat) (taken : Fin 4),
    operandsInRange i → n < 2 * (emission i s).length → s.accepts n → s.answerAt n = .fail taken →
      exec i s = .next (raiseIOFailure
        ((s.popAnswers (n + 1)).deliver ((framesOf (emission i s)).take (bytesAccepted n taken))))

/-- The effects of IOFailure (R236): the command stopped at the first failing sink call, OUT holds a proper prefix of its
frames, BANK, B and LVL are unchanged (the waiting packets and the parameters too: entries 1, 7 and 9), and the device is undefined with every
chain void. -/
def Obligations.IOFailureEffects : Prop :=
  ∀ (i : Instr) (s t : State), exec i s = .next t → t.reply.map Reply.status = some .ioFailure →
    (∃ n, n < 2 * (emission i s).length ∧ s.accepts n ∧ s.answerAt n ≠ .accept ∧ t.sinkCalls = s.sinkCalls + n + 1)
    ∧ (∃ m, m < (framesOf (emission i s)).length ∧ t.out = s.out ++ (framesOf (emission i s)).take m)
    ∧ t.bank = s.bank ∧ t.b = s.b ∧ t.lvl = s.lvl ∧ t.port = s.port ∧ t.inner = s.inner
    ∧ t.params = s.params ∧ t.dev.undef = true ∧ ∀ a, t.dev.img.read a = none

/-- Which commands can end with IOFailure, and when: a host command only if it is one of the six encode commands, and exactly
when one of its sink calls is answered fail; nothing is recorded beyond the status (R234). That a wire row run alone ends so
exactly when one of its two sink calls is answered fail, as the first clause says of it too, is entry 18. -/
def Obligations.IOFailureExactlyOnAFailingCall : Prop :=
  ∀ (i : Instr) (s t : State), exec i s = .next t →
    (t.reply.map Reply.status = some .ioFailure
      ↔ operandsInRange i ∧ ∃ n, n < 2 * (emission i s).length ∧ s.answerAt n ≠ .accept)
    ∧ (laneOf i = .command → t.reply.map Reply.status = some .ioFailure →
        (∃ k, i = .encPat k) ∨ (∃ r, i = .encRng r) ∨ (∃ e, i = .encEdg e) ∨ (∃ k, i = .encTmr k)
        ∨ (∃ role, i = .encSum role) ∨ i = .encState)
    ∧ (t.reply.map Reply.status = some .ioFailure → t.reply = some ⟨.ioFailure, none⟩)

/-- InvalidArgument is precise: the command that raises it writes no state and emits no byte; only the reply shows it
(R231). -/
def Obligations.InvalidArgumentChangesNothing : Prop :=
  ∀ (i : Instr) (s t : State), exec i s = .next t → t.reply.map Reply.status = some .invalidArgument →
    t = { s with reply := some ⟨.invalidArgument, none⟩ }

/-- InvalidArgument is raised for exactly the causes of R232's table (the index and code causes are the spec's own decisions
D23 and D27), before any sink call (R233). -/
def Obligations.InvalidArgumentExactlyForTheListedCauses : Prop :=
  ∀ (i : Instr) (s : State),
    (¬operandsInRange i ↔ exec i s = .next { s with reply := some ⟨.invalidArgument, none⟩ })
    ∧ (¬operandsInRange i ↔ ∃ t, exec i s = .next t ∧ t.reply.map Reply.status = some .invalidArgument)

/-- With an accepting sink and operands in range, every command ends OK, whatever the state (R243). -/
def Obligations.InRangeCommandsEndOk : Prop :=
  ∀ (i : Instr) (s : State), operandsInRange i → s.accepts (2 * (emission i s).length) →
    ∃ t, exec i s = .next t ∧ t.reply.map Reply.status = some .ok

/-! ## The Operation Table -/

/-- `LUT level, op`, host command 0x01, returns the constant of the literal table at the operation's offset and writes no
state; a null or unknown operation is InvalidArgument (R100, R101, R102, R103). -/
def Obligations.LutReturnsTheConstant : Prop :=
  ∀ s : State,
    (∀ c : Fin 10,
      exec (.lut .pair (some (BitVec.ofNat 4 c.val))) s = .next { s with reply := some ⟨.ok, some (.table
        (#v[0x0000#16, 0xFFFF#16, 0x8000#16, 0x7FFF#16, 0xF888#16, 0x0777#16, 0x7888#16, 0x8777#16, 0x8888#16, 0xF000#16][c]))⟩ }
      ∧ exec (.lut .mid (some (BitVec.ofNat 4 c.val))) s = .next { s with reply := some ⟨.ok, some (.table
        (#v[0x0000#16, 0xFFFF#16, 0x8000#16, 0x7FFF#16, 0xFFFE#16, 0x0001#16, 0x0116#16, 0xFEE9#16, 0xEEEE#16, 0xFFF0#16][c]))⟩ }
      ∧ exec (.lut .final (some (BitVec.ofNat 4 c.val))) s = .next { s with reply := some ⟨.ok, some (.table
        (#v[0x0000#16, 0xFFFF#16, 0x0008#16, 0x0007#16, 0x000E#16, 0x0001#16, 0x0006#16, 0x0009#16, 0x0002#16, 0x0004#16][c]))⟩ })
    ∧ (∀ level op, (encode (.lut level op)).head? = some 0x01#8)
    ∧ ∀ level,
      exec (.lut level none) s = .next { s with reply := some ⟨.invalidArgument, none⟩ }
      ∧ ∀ c : BitVec 4, 9 < c.toNat →
        exec (.lut level (some c)) s = .next { s with reply := some ⟨.invalidArgument, none⟩ }

/-- `ISINV op`, host command 0x02, returns true exactly for NAND, NOR, NXOR (offsets 3, 5, 7) and writes no state; a null or
unknown operation is InvalidArgument (R104). -/
def Obligations.IsInvReturnsTheFlag : Prop :=
  ∀ s : State,
    (∀ c : BitVec 4, c.toNat ≤ 9 →
      exec (.isInv (some c)) s = .next { s with
        reply := some ⟨.ok, some (.flag (decide (c.toNat = 3 ∨ c.toNat = 5 ∨ c.toNat = 7)))⟩ })
    ∧ (∀ op, (encode (.isInv op)).head? = some 0x02#8)
    ∧ exec (.isInv none) s = .next { s with reply := some ⟨.invalidArgument, none⟩ }
    ∧ ∀ c : BitVec 4, 9 < c.toNat → exec (.isInv (some c)) s = .next { s with reply := some ⟨.invalidArgument, none⟩ }

/-- The constant of each inverted operation is its base's complement, over 16 bits in the pair and mid tables and over the
low 4 bits in the final table (40_operation_table.md section 3, derived there from R100 to R102). -/
def Obligations.InvertedConstantsAreComplements : Prop :=
  ∀ p ∈ [(Operation.and, Operation.nand), (Operation.or, Operation.nor), (Operation.xor, Operation.nxor)],
    lutConstant .pair p.2 = ~~~(lutConstant .pair p.1) ∧ lutConstant .mid p.2 = ~~~(lutConstant .mid p.1)
    ∧ lutConstant .final p.2 = lutConstant .final p.1 ^^^ 0xF#16

/-! ## The detector bank and the term compilers -/

/-- Each setter writes the fields of its slot and nothing else, emits nothing, ends OK, for every payload (R110 to R113);
an index that names no slot is InvalidArgument (the spec's own decision D27) and changes nothing. -/
def Obligations.SettersWriteOneSlot : Prop :=
  ∀ s : State,
    (∀ (k : Fin 10) (value mask : Word), exec (.setPat (k.val : Int) value mask) s = .next { s with
        bank := { s.bank with pat := s.bank.pat.set k ⟨value, mask⟩ }, reply := some ⟨.ok, none⟩ })
    ∧ (∀ (r : Fin 2) (lower upper mask : Word), exec (.setRng (r.val : Int) lower upper mask) s = .next { s with
        bank := { s.bank with rng := s.bank.rng.set r ⟨lower, upper, mask⟩ }, reply := some ⟨.ok, none⟩ })
    ∧ (∀ (e : Fin 2) (rising falling neither : Word), exec (.setEdg (e.val : Int) rising falling neither) s = .next { s with
        bank := { s.bank with edg := s.bank.edg.set e ⟨rising, falling, neither⟩ }, reply := some ⟨.ok, none⟩ })
    ∧ (∀ (t : Fin 2) (threshold : Threshold), exec (.setTmr (t.val : Int) threshold) s = .next { s with
        bank := { s.bank with tmr := s.bank.tmr.set t threshold }, reply := some ⟨.ok, none⟩ })
    ∧ (∀ (k : Int) (value mask : Word), k < 0 ∨ 9 < k →
        exec (.setPat k value mask) s = .next { s with reply := some ⟨.invalidArgument, none⟩ })
    ∧ ∀ (k : Int) (x y z : Word) (threshold : Threshold), k < 0 ∨ 1 < k →
        exec (.setRng k x y z) s = .next { s with reply := some ⟨.invalidArgument, none⟩ }
        ∧ exec (.setEdg k x y z) s = .next { s with reply := some ⟨.invalidArgument, none⟩ }
        ∧ exec (.setTmr k threshold) s = .next { s with reply := some ⟨.invalidArgument, none⟩ }

/-- `ENCPAT k` on an accepting sink selects `0x20 + k` and chains four words W[3] to W[0] whose tables report a match exactly
for the candidate nibbles equal to the value on the masked bits: bit `16*(n mod 2) + i` of `W[n/2]` is entry `i` of nibble
`n`'s table (R114 to R117; entry i in bit i is the spec's own decision D8). -/
def Obligations.EncPatEmitsTheMatchTables : Prop :=
  ∀ (k : Fin 10) (s : State), s.accepts 10 →
    ∃ w3 w2 w1 w0 : Word,
      exec (.encPat (k.val : Int)) s
        = .next ((s.sent [.sel (BitVec.ofNat 32 (0x20 + k.val)), .chn w3, .chn w2, .chn w1, .chn w0]).complete none)
      ∧ ∀ n < 8, ∀ i < 16,
          (([w0, w1, w2, w3].getD (n / 2) 0#32).getLsbD (16 * (n % 2) + i) = true
            ↔ ∀ j < 4, s.bank.pat[k].mask.getLsbD (4 * n + j) = true →
                i.testBit j = s.bank.pat[k].value.getLsbD (4 * n + j))

/-- `ENCRNG r` on an accepting sink sends the lower boundary's program to `0x30 + 2r` and the upper's to `0x31 + 2r`, sixteen
words each; the half of mask position p is 0xFFFF where the mask bit is 0, else 0x5555 or 0xAAAA by the bit of the target
numbered by the mask bits set below p (R118 to R122; the shift is the spec's own decision D9, the order of the two
boundaries D22; HALF_ORDER is quantified over). -/
def Obligations.EncRngEmitsTheWalks : Prop :=
  ∀ (r : Fin 2) (s : State), s.accepts 68 →
    ∃ lo hi : List Word, lo.length = 16 ∧ hi.length = 16
      ∧ exec (.encRng (r.val : Int)) s = .next ((s.sent
          (.sel (BitVec.ofNat 32 (0x30 + 2 * r.val)) :: (lo.map Cmd.chn
            ++ .sel (BitVec.ofNat 32 (0x31 + 2 * r.val)) :: hi.map Cmd.chn))).complete none)
      ∧ ∀ p < 32,
          walkedTable s.params.halfOrder 32 lo p
            = (if s.bank.rng[r].mask.getLsbD p then
                (if (~~~(s.bank.rng[r].lower - 1#32)).getLsbD (maskBitsBelow s.bank.rng[r].mask p) then 0x5555#16 else 0xAAAA#16)
              else 0xFFFF#16)
          ∧ walkedTable s.params.halfOrder 32 hi p
            = (if s.bank.rng[r].mask.getLsbD p then
                (if (~~~s.bank.rng[r].upper).getLsbD (maskBitsBelow s.bank.rng[r].mask p) then 0x5555#16 else 0xAAAA#16)
              else 0xFFFF#16)

/-- `ENCEDG e` on an accepting sink selects `0x34 + e` and chains eight words holding one table per bit pair, the odd
position with the parity-1 constants and the even one with the parity-0 constants, neither taking precedence (R124, R126 to
R129; the pairing is the spec's own decision D10; HALF_ORDER is quantified over). -/
def Obligations.EncEdgEmitsThePairTables : Prop :=
  ∀ (e : Fin 2) (s : State), s.accepts 18 →
    ∃ ws : List Word, ws.length = 8
      ∧ exec (.encEdg (e.val : Int)) s
          = .next ((s.sent (.sel (BitVec.ofNat 32 (0x34 + e.val)) :: ws.map Cmd.chn)).complete none)
      ∧ ∀ q < 16, walkedTable s.params.halfOrder 16 ws q
          = (if s.bank.edg[e].neither.getLsbD (2 * q + 1) then 0xCC33#16
              else (if s.bank.edg[e].rising.getLsbD (2 * q + 1) then 0x00CC#16 else 0#16)
                ||| (if s.bank.edg[e].falling.getLsbD (2 * q + 1) then 0x3300#16 else 0#16))
            ||| (if s.bank.edg[e].neither.getLsbD (2 * q) then 0xA5A5#16
              else (if s.bank.edg[e].rising.getLsbD (2 * q) then 0x0A0A#16 else 0#16)
                ||| (if s.bank.edg[e].falling.getLsbD (2 * q) then 0x5050#16 else 0#16))

/-- `ENCTMR t` on an accepting sink writes the low 32 bits of the threshold at `0x38 + 2t` and the high 4 bits at `0x39 + 2t`
(R130, R131; low word first is the spec's own decision D22). -/
def Obligations.EncTmrEmitsTheSplitThreshold : Prop :=
  ∀ (t : Fin 2) (s : State), s.accepts 8 →
    exec (.encTmr (t.val : Int)) s = .next ((s.sent
      [.sel (BitVec.ofNat 32 (0x38 + 2 * t.val)), .chn (BitVec.ofNat 32 (s.bank.tmr[t].toNat % 2 ^ 32)),
       .sel (BitVec.ofNat 32 (0x39 + 2 * t.val)), .chn (BitVec.ofNat 32 (s.bank.tmr[t].toNat / 2 ^ 32))]).complete none)

/-- The comparison targets wrap at 32 bits: `target_lo` is the two's complement of lower, `target_hi` the complement of
upper (R118, R133). -/
def Obligations.RangeTargetsWrap : Prop :=
  ∀ bound : Word, (targetLo bound).toNat = (2 ^ 32 - bound.toNat) % 2 ^ 32 ∧ (targetHi bound).toNat = 2 ^ 32 - 1 - bound.toNat

/-- The NEITHER constant of each parity is the 16-bit complement of RISE or FALL of that parity (R124). -/
def Obligations.NeitherIsTheComplement : Prop :=
  ∀ odd : Bool, edgeNeither odd = ~~~(edgeRise odd ||| edgeFall odd)

/-! ## Sums and states -/

/-- The control word holds every field at its position, every 32-bit value is one, and no two field combinations share one
(R83, R160). -/
def Obligations.ControlWordLayout : Prop :=
  (∀ v : Level,
    (ctrl v).extractLsb' 0 20 = v.count ∧ (ctrl v).extractLsb' 20 4 = v.elseState
    ∧ (ctrl v).getLsbD 24 = v.stop1 ∧ (ctrl v).getLsbD 25 = v.stop2 ∧ (ctrl v).getLsbD 26 = v.clear1
    ∧ (ctrl v).getLsbD 27 = v.clear2 ∧ (ctrl v).getLsbD 28 = v.start1 ∧ (ctrl v).getLsbD 29 = v.start2
    ∧ (ctrl v).getLsbD 30 = v.raise ∧ (ctrl v).getLsbD 31 = v.last)
  ∧ ∀ w : Word, ∃ v : Level, ctrl v = w

/-- `ENCSUM role` on an accepting sink selects `0x40 + 4*state + roleOffset` and chains the words of the role's sum in the
order SUM_ORDER; the final word's high half is zero, the mid word is midB over midA, the pair words hold pairs 2n and 2n+1
by PAIR_HALF (R141 to R147; D5, D7, D11, D14 are the spec's own decisions; the parameters are quantified over). -/
def Obligations.EncSumEmitsTheSum : Prop :=
  ∀ (role : Role) (s : State) (c : SumCfg),
    c = (match role with | .hit => s.lvl.hit | .els => s.lvl.els | .capture => s.lvl.cap) →
    s.accepts (2 + 2 * s.params.sumOrder.length) →
    ∃ word : SumWord → Nat,
      exec (.encSum role) s = .next ((s.sent
        (.sel (BitVec.ofNat 32 (0x40 + 4 * s.lvl.state.toNat + (match role with | .hit => 0 | .els => 1 | .capture => 2)))
          :: s.params.sumOrder.map fun n => .chn (BitVec.ofNat 32 (word n)))).complete none)
      ∧ word .F = (lutConstant .final c.final).toNat
      ∧ word .M = 65536 * (lutConstant .mid c.mid[1]).toNat
          + (lutConstant .mid c.mid[0]).toNat
      ∧ ∀ n : Fin 4,
          (s.params.pairHalf = .oddHigh → word ([SumWord.P0, .P1, .P2, .P3].getD n.val .F)
            = 65536 * (lutConstant .pair c.pair[2 * n.val + 1]).toNat
              + (lutConstant .pair c.pair[2 * n.val]).toNat)
          ∧ (s.params.pairHalf = .oddLow → word ([SumWord.P0, .P1, .P2, .P3].getD n.val .F)
            = 65536 * (lutConstant .pair c.pair[2 * n.val]).toNat
              + (lutConstant .pair c.pair[2 * n.val + 1]).toNat)

/-- The sum compiler reads the eleven operations and nothing else: in any two states whose sums have the same operations, with
the same state number in LVL and the same SUM_ORDER and PAIR_HALF, `ENCSUM` sends the same bytes to sinks that answer alike
and ends alike, whatever the bank, B, the input states, the other sums and the other fields of LVL; `ENCSTATE` too, which reads
all three sums and, for the descriptor, the fields of the control word (R148; the control word is R161). -/
def Obligations.SumsReadOnlyTheirOperations : Prop :=
  ∀ s s' : State, s'.params.sumOrder = s.params.sumOrder → s'.params.pairHalf = s.params.pairHalf →
    s'.lvl.state = s.lvl.state → (∀ n, s'.answerAt n = s.answerAt n) →
      (∀ (role : Role) (c c' : SumCfg),
        c = (match role with | .hit => s.lvl.hit | .els => s.lvl.els | .capture => s.lvl.cap) →
        c' = (match role with | .hit => s'.lvl.hit | .els => s'.lvl.els | .capture => s'.lvl.cap) →
        c'.sameOperations c → sendAlike (.encSum role) s s')
      ∧ (s'.lvl.cap.sameOperations s.lvl.cap → s'.lvl.hit.sameOperations s.lvl.hit → s'.lvl.els.sameOperations s.lvl.els →
          s'.lvl.sameControlFields s.lvl → sendAlike .encState s s')

/-- `ENCSTATE` on an accepting sink sends the descriptor (SELECT of the state number, the control word), then the capture,
hit and else sums, in that order, and nothing else: no term program (R150, R161, R163, R164, R165). With a legal SUM_ORDER
these are 23 frames whatever the values (R166). -/
def Obligations.EncStateEmitsDescriptorThenSums : Prop :=
  ∀ s : State, s.accepts (8 + 6 * s.params.sumOrder.length + 2) →
    exec .encState s = .next ((s.sent
      ([.sel (BitVec.ofNat 32 s.lvl.state.toNat), .chn (ctrl s.lvl)]
        ++ (.sel (BitVec.ofNat 32 (0x42 + 4 * s.lvl.state.toNat)) :: (sumWords s.params s.lvl.cap).map Cmd.chn)
        ++ (.sel (BitVec.ofNat 32 (0x40 + 4 * s.lvl.state.toNat)) :: (sumWords s.params s.lvl.hit).map Cmd.chn)
        ++ (.sel (BitVec.ofNat 32 (0x41 + 4 * s.lvl.state.toNat)) :: (sumWords s.params s.lvl.els).map Cmd.chn))).complete none)
    ∧ (s.params.wf → (emission .encState s).length = 23 ∧ (framesOf (emission .encState s)).length = 115)

/-- Frames and bytes of each successful host command (R217), with legal parameters and operands in range. -/
def Obligations.FramesPerCommand : Prop :=
  ∀ (i : Instr) (s : State), s.params.wf → operandsInRange i → laneOf i = .command →
    ((emission i s).countP Cmd.isSelect, (emission i s).countP fun c => !c.isSelect, (framesOf (emission i s)).length)
      = frameCount i
    ∧ (i ≠ .reset → s.accepts (2 * (emission i s).length) →
        ∃ t, exec i s = .next t ∧ t.out.length = s.out.length + (frameCount i).2.2)

/-- Every encode command emits complete programs only, each a SELECT of a mapped address directly followed by exactly the
words the map gives that address (R46, R47, R48, R214). -/
def Obligations.EmittedProgramsAreComplete : Prop :=
  ∀ (i : Instr) (s : State), s.params.wf → laneOf i = .command →
    ∃ programs : List (Word × List Word), emission i s = programs.flatMap (fun p => programOf p.1 p.2)
      ∧ ∀ p ∈ programs, programLength p.1.toNat = some p.2.length

/-- Encode commands change no block state, so repeating one repeats its frames; the frames depend on BANK, LVL and the
parameters alone; one command sends at most 34 frames (R216). -/
def Obligations.EncodingIsPure : Prop :=
  (∀ (i : Instr) (s t : State), laneOf i = .command → emission i s ≠ [] → exec i s = .next t →
    t.bank = s.bank ∧ t.b = s.b ∧ t.lvl = s.lvl ∧ emission i t = emission i s)
  ∧ (∀ (i : Instr) (s s' : State), s'.bank = s.bank → s'.lvl = s.lvl → s'.params = s.params → operandsInRange i →
      laneOf i = .command → emission i s' = emission i s
      ∧ (i ≠ .reset → s.accepts (2 * (emission i s).length) → s'.accepts (2 * (emission i s).length) →
          ∃ t t' bytes, exec i s = .next t ∧ exec i s' = .next t' ∧ t.out = s.out ++ bytes ∧ t'.out = s'.out ++ bytes))
  ∧ ∀ (i : Instr) (s : State), s.params.wf → (emission i s).length ≤ 34 ∧ (framesOf (emission i s)).length ≤ 170

/-! ## The level builder -/

/-- `forState n`, host command 0x30: writes the builder's state number for 0 to 15 and nothing else, refuses every other integer unchanged
(R181). -/
def Obligations.ForStateWritesOrRefuses : Prop :=
  ∀ (n : Int) (s : State),
    (encode (.forState n)).head? = some 0x30#8
    ∧ (0 ≤ n ∧ n ≤ 15 → exec (.forState n) s
      = .next { s with b := { s.b with state := BitVec.ofInt 4 n }, reply := some ⟨.ok, none⟩ })
    ∧ (n < 0 ∨ 15 < n → exec (.forState n) s = .next { s with reply := some ⟨.invalidArgument, none⟩ })

/-- `occurs count`, host command 0x33: writes the builder's count for 0 to 2^20-1 and nothing else, refuses every other integer unchanged
(R184). -/
def Obligations.OccursWritesOrRefuses : Prop :=
  ∀ (count : Int) (s : State),
    (encode (.occurs count)).head? = some 0x33#8
    ∧ (0 ≤ count ∧ count ≤ 1048575 → exec (.occurs count) s
      = .next { s with b := { s.b with count := BitVec.ofInt 20 count }, reply := some ⟨.ok, none⟩ })
    ∧ (count < 0 ∨ 1048575 < count → exec (.occurs count) s = .next { s with reply := some ⟨.invalidArgument, none⟩ })

/-- `whileStoring`, `ifTarget` and `elseTarget` with a valid sum (and target 0 to 15) write the capture, hit or else sum,
converted field by field, and nothing else but, for `elseTarget`, the else-branch state with it (R180, R182, R183, R185;
what an operation code 10 to 15 and an input-state code 3 do is the spec's own decision D23). -/
def Obligations.SumCommandsSetTheirSum : Prop :=
  ∀ (a : SumArg) (s : State), sumInRange (some a) →
    ∃ c : SumCfg, isCfgOf c a
      ∧ exec (.whileStoring (some a)) s = .next { s with b := { s.b with cap := c }, reply := some ⟨.ok, none⟩ }
      ∧ exec (.ifTarget (some a)) s = .next { s with b := { s.b with hit := c }, reply := some ⟨.ok, none⟩ }
      ∧ ∀ n : Int, 0 ≤ n ∧ n ≤ 15 → exec (.elseTarget (some a) n) s
          = .next { s with b := { s.b with els := c, elseState := BitVec.ofInt 4 n }, reply := some ⟨.ok, none⟩ }

/-- A null or invalid sum is refused by the three sum commands, and `elseTarget` with a target outside 0 to 15 writes neither
field (R180, R182, R183, R185; D23 as before). -/
def Obligations.InvalidSumsAreRefused : Prop :=
  ∀ (sum : Option SumArg) (n : Int) (s : State),
    (¬sumInRange sum →
      exec (.whileStoring sum) s = .next { s with reply := some ⟨.invalidArgument, none⟩ }
      ∧ exec (.ifTarget sum) s = .next { s with reply := some ⟨.invalidArgument, none⟩ }
      ∧ exec (.elseTarget sum n) s = .next { s with reply := some ⟨.invalidArgument, none⟩ })
    ∧ (n < 0 ∨ 15 < n → exec (.elseTarget sum n) s = .next { s with reply := some ⟨.invalidArgument, none⟩ })

/-- The nine flag commands, host commands 0x35 to 0x3D without operands, set or clear exactly their own flag and end OK (R186 to
R194). -/
def Obligations.FlagCommandsSetTheirFlag : Prop :=
  [encode .lastState, encode .continueToNextState, encode .onHitRaiseTrigger, encode .onHitStartTimer1,
    encode .onHitStartTimer2, encode .onHitStopTimer1, encode .onHitStopTimer2, encode .onHitClearTimer1,
    encode .onHitClearTimer2]
    = [[0x35#8], [0x36#8], [0x37#8], [0x38#8], [0x39#8], [0x3A#8], [0x3B#8], [0x3C#8], [0x3D#8]]
  ∧ ∀ s : State,
    exec .lastState s = .next { s with b := { s.b with last := true }, reply := some ⟨.ok, none⟩ }
    ∧ exec .continueToNextState s = .next { s with b := { s.b with last := false }, reply := some ⟨.ok, none⟩ }
    ∧ exec .onHitRaiseTrigger s = .next { s with b := { s.b with raise := true }, reply := some ⟨.ok, none⟩ }
    ∧ exec .onHitStartTimer1 s = .next { s with b := { s.b with start1 := true }, reply := some ⟨.ok, none⟩ }
    ∧ exec .onHitStartTimer2 s = .next { s with b := { s.b with start2 := true }, reply := some ⟨.ok, none⟩ }
    ∧ exec .onHitStopTimer1 s = .next { s with b := { s.b with stop1 := true }, reply := some ⟨.ok, none⟩ }
    ∧ exec .onHitStopTimer2 s = .next { s with b := { s.b with stop2 := true }, reply := some ⟨.ok, none⟩ }
    ∧ exec .onHitClearTimer1 s = .next { s with b := { s.b with clear1 := true }, reply := some ⟨.ok, none⟩ }
    ∧ exec .onHitClearTimer2 s = .next { s with b := { s.b with clear2 := true }, reply := some ⟨.ok, none⟩ }

/-- The seven sticky flags: their commands set them, only `build` and RESET return one to false and these do, setting one that
is set changes nothing; `last` alone has a clearing command (R195). -/
def Obligations.ActionFlagsAreSticky : Prop :=
  (∀ (i : Instr) (s t : State), exec i s = .next t → i ≠ .build → i ≠ .reset →
    (s.b.raise = true → t.b.raise = true) ∧ (s.b.start1 = true → t.b.start1 = true) ∧ (s.b.start2 = true → t.b.start2 = true)
    ∧ (s.b.stop1 = true → t.b.stop1 = true) ∧ (s.b.stop2 = true → t.b.stop2 = true)
    ∧ (s.b.clear1 = true → t.b.clear1 = true) ∧ (s.b.clear2 = true → t.b.clear2 = true))
  ∧ (∀ (i : Instr) (s t : State), exec i s = .next t → i = .build ∨ i = .reset →
    t.b.raise = false ∧ t.b.start1 = false ∧ t.b.start2 = false ∧ t.b.stop1 = false ∧ t.b.stop2 = false
    ∧ t.b.clear1 = false ∧ t.b.clear2 = false)
  ∧ (∀ s : State,
    (∃ t, exec .onHitRaiseTrigger s = .next t ∧ t.b.raise = true) ∧ (∃ t, exec .onHitStartTimer1 s = .next t ∧ t.b.start1 = true)
    ∧ (∃ t, exec .onHitStartTimer2 s = .next t ∧ t.b.start2 = true) ∧ (∃ t, exec .onHitStopTimer1 s = .next t ∧ t.b.stop1 = true)
    ∧ (∃ t, exec .onHitStopTimer2 s = .next t ∧ t.b.stop2 = true) ∧ (∃ t, exec .onHitClearTimer1 s = .next t ∧ t.b.clear1 = true)
    ∧ (∃ t, exec .onHitClearTimer2 s = .next t ∧ t.b.clear2 = true)
    ∧ ∃ t, exec .continueToNextState s = .next t ∧ t.b.last = false)
  ∧ ∀ s : State,
    (s.b.raise = true → exec .onHitRaiseTrigger s = .next { s with reply := some ⟨.ok, none⟩ })
    ∧ (s.b.start1 = true → exec .onHitStartTimer1 s = .next { s with reply := some ⟨.ok, none⟩ })
    ∧ (s.b.start2 = true → exec .onHitStartTimer2 s = .next { s with reply := some ⟨.ok, none⟩ })
    ∧ (s.b.stop1 = true → exec .onHitStopTimer1 s = .next { s with reply := some ⟨.ok, none⟩ })
    ∧ (s.b.stop2 = true → exec .onHitStopTimer2 s = .next { s with reply := some ⟨.ok, none⟩ })
    ∧ (s.b.clear1 = true → exec .onHitClearTimer1 s = .next { s with reply := some ⟨.ok, none⟩ })
    ∧ (s.b.clear2 = true → exec .onHitClearTimer2 s = .next { s with reply := some ⟨.ok, none⟩ })

/-- `build` copies B to LVL and resets B to the default; a second `build` yields the default level (R200, R201; the level
register is the spec's own decision D14, the default's unstated fields D15). -/
def Obligations.BuildCopiesAndResets : Prop :=
  ∀ s : State,
    exec .build s = .next { s with lvl := s.b, b := Level.level0, reply := some ⟨.ok, none⟩ }
    ∧ ∀ t u, exec .build s = .next t → exec .build t = .next u → u.lvl = Level.level0 ∧ u.b = Level.level0

/-- After `build` no command but the next `build` (and RESET, R25) changes LVL, whatever it does to B; `build` itself is the
transition (B, LVL) to (LEVEL0, B) (R202). -/
def Obligations.BuiltLevelIsIndependent : Prop :=
  (∀ (i : Instr) (s t : State), exec i s = .next t → i ≠ .build → i ≠ .reset → t.lvl = s.lvl)
  ∧ ∀ s t : State, exec .build s = .next t → t.b = Level.level0 ∧ t.lvl = s.b

/-! ## The whole machine -/

/-- The frame of every instruction: the bank is written only by the four setters and RESET (R17), each setter its own kind of
slot, the builder only by the builder commands and RESET (R19), LVL only by `build` and RESET (R25), OUT only by RESET and
the commands that emit, the device and the sink's answers only by the commands that emit (R216; the consumer is the spec's own
decision D19, the answers entry 10), the parameters and the waiting packets by none, RESET included (no rule says so: entries
1, 7, 9 and 15). -/
def Obligations.RegistersHaveTheirOwnWriters : Prop :=
  ∀ (i : Instr) (s t : State), exec i s = .next t →
    (t.bank.pat = s.bank.pat ∨ i = .reset ∨ ∃ k v m, i = .setPat k v m)
    ∧ (t.bank.rng = s.bank.rng ∨ i = .reset ∨ ∃ r l u m, i = .setRng r l u m)
    ∧ (t.bank.edg = s.bank.edg ∨ i = .reset ∨ ∃ e x y z, i = .setEdg e x y z)
    ∧ (t.bank.tmr = s.bank.tmr ∨ i = .reset ∨ ∃ k v, i = .setTmr k v)
    ∧ (t.b = s.b ∨ i = .reset ∨ i = .build ∨ (∃ n, i = .forState n) ∨ (∃ x, i = .whileStoring x) ∨ (∃ x, i = .ifTarget x)
        ∨ (∃ n, i = .occurs n) ∨ (∃ x n, i = .elseTarget x n) ∨ i = .lastState ∨ i = .continueToNextState
        ∨ i = .onHitRaiseTrigger ∨ i = .onHitStartTimer1 ∨ i = .onHitStartTimer2 ∨ i = .onHitStopTimer1
        ∨ i = .onHitStopTimer2 ∨ i = .onHitClearTimer1 ∨ i = .onHitClearTimer2)
    ∧ (t.lvl = s.lvl ∨ i = .reset ∨ i = .build)
    ∧ (t.out = s.out ∨ i = .reset ∨ emission i s ≠ [])
    ∧ ((t.dev = s.dev ∧ t.sink = s.sink ∧ t.sinkCalls = s.sinkCalls) ∨ emission i s ≠ [])
    ∧ t.params = s.params ∧ t.port = s.port ∧ t.inner = s.inner

/-- The stream only grows, and only through the commands that emit: nothing in OUT is ever changed or removed but by RESET,
which opens a new window (R27, R260), and a host command that is not an encode command changes neither OUT nor the device
nor the sink (R57(a), R272). -/
def Obligations.StreamOnlyGrows : Prop :=
  ∀ (i : Instr) (s t : State), exec i s = .next t → i ≠ .reset →
    (∃ bytes, t.out = s.out ++ bytes)
    ∧ (emission i s = [] → t.out = s.out ∧ t.dev = s.dev ∧ t.sink = s.sink ∧ t.sinkCalls = s.sinkCalls)

/-- `RESET` sets the bank to zero, B and LVL to the default and OUT to empty, emits nothing and leaves the device as it was
(R260; every value but B's is the spec's own decision D15; the environment's inputs stay, entry 15). -/
def Obligations.ResetCommandRestoresTheRegisters : Prop :=
  ∀ s : State, exec .reset s = .next { s with
      bank := State.reset.bank, b := State.reset.b, lvl := State.reset.lvl, out := State.reset.out
      reply := some ⟨.ok, none⟩ }

/-- What power-on leaves: the builder's default of the source (NOP everywhere, disabled terms, count 0), and, by the spec's
own decision D15, zero in every other field; nothing known of the device (R18, R21, R33, R56). -/
def Obligations.PowerOnValues : Prop :=
  (∀ c ∈ [State.reset.b.cap, State.reset.b.hit, State.reset.b.els],
    (∀ p : Fin 8, c.pair[p] = .nop) ∧ (∀ m : Fin 2, c.mid[m] = .nop) ∧ c.final = .nop ∧ ∀ l : Fin 16, c.leafIn[l] = .disabled)
  ∧ State.reset.b.count = 0#20 ∧ State.reset.b.state = 0#4 ∧ State.reset.b.elseState = 0#4 ∧ ctrl State.reset.b = 0#32
  ∧ State.reset.lvl = State.reset.b
  ∧ (∀ k : Fin 10, State.reset.bank.pat[k] = ⟨0#32, 0#32⟩) ∧ (∀ r : Fin 2, State.reset.bank.rng[r] = ⟨0#32, 0#32, 0#32⟩)
  ∧ (∀ e : Fin 2, State.reset.bank.edg[e] = ⟨0#32, 0#32, 0#32⟩) ∧ (∀ t : Fin 2, State.reset.bank.tmr[t] = 0#36)
  ∧ State.reset.out = [] ∧ State.reset.reply = none
  ∧ State.reset.dev.sel = none ∧ State.reset.dev.undef = false ∧ ∀ a, State.reset.dev.img.read a = none

/-- Every step keeps the invariant: legal parameters; the image in canonical form (entry 26), its entries complete programs of
mapped addresses; a device that is marked undefined has some mapped address whose content is unknown (not conversely: after
power-on every content is unknown and the device is not marked); a device is marked once the consumer has stopped; nothing is
chained while nothing is selected; the fragment is the front of one frame; and between commands the consumer stands at a frame
boundary unless it has stopped (R42, R50, R52, R55; the consumer is the spec's own decision D19, its fragment and stopped
fields and what a cut frame leaves are entries 12 and 13). -/
def Obligations.EveryStepKeepsTheInvariant : Prop :=
  ∀ s t : State, s.Inv → step s = .next t → t.Inv

/-- The invariant holds at power-on. -/
def Obligations.PowerOnMeetsTheInvariant : Prop := State.reset.Inv

/-! ## The device -/

/-- A complete program defines its chain and no other: after the frames of `SEL a` and exactly the map's number of words, the
content of a is those words in emission order, a stays selected, the consumer stands at a frame boundary, and every other
address reads as before, except one whose program this SELECT cut short (R47, R50, R51, R52; the consumer is the spec's own
decision D19). -/
def Obligations.CompleteProgramDefinesItsChain : Prop :=
  ∀ (d : Dev) (a : Word) (ws : List Word), d.aligned → programLength a.toNat = some ws.length →
    (d.feedAll (framesOf (programOf a ws))).img.read a.toNat = some ws
    ∧ (d.feedAll (framesOf (programOf a ws))).sel = some a
    ∧ (d.feedAll (framesOf (programOf a ws))).run = ws
    ∧ (d.feedAll (framesOf (programOf a ws))).aligned
    ∧ (d.undef = false → (d.feedAll (framesOf (programOf a ws))).undef = false)
    ∧ ∀ b, b ≠ a.toNat →
        (d.feedAll (framesOf (programOf a ws))).img.read b = d.img.read b
        ∨ ((d.feedAll (framesOf (programOf a ws))).img.read b = none
            ∧ ∃ old n, d.sel = some old ∧ old.toNat = b ∧ programLength b = some n ∧ 0 < d.run.length ∧ d.run.length < n)

/-- After an encode command on an accepting sink the device is known to hold the compiled configuration at every address the
command programs: pattern, range bounds, edge, timer words, a sum, or a whole state (R16, R46, R52, R57(b); the consumer is
the spec's own decision D19). -/
def Obligations.EncodeCommandsProgramTheDevice : Prop :=
  ∀ s : State, s.params.wf → s.dev.aligned → s.dev.undef = false → s.accepts 68 →
    (∀ k : Fin 10, ∃ t, exec (.encPat (k.val : Int)) s = .next t
      ∧ t.deviceHolds (0x20 + k.val) (patWords s.bank.pat[k]))
    ∧ (∀ r : Fin 2, ∃ t, exec (.encRng (r.val : Int)) s = .next t
      ∧ t.deviceHolds (0x30 + 2 * r.val) (rngWords s.params.halfOrder (targetLo s.bank.rng[r].lower) s.bank.rng[r].mask)
      ∧ t.deviceHolds (0x31 + 2 * r.val) (rngWords s.params.halfOrder (targetHi s.bank.rng[r].upper) s.bank.rng[r].mask))
    ∧ (∀ e : Fin 2, ∃ t, exec (.encEdg (e.val : Int)) s = .next t
      ∧ t.deviceHolds (0x34 + e.val) (edgWords s.params.halfOrder s.bank.edg[e]))
    ∧ (∀ i : Fin 2, ∃ t, exec (.encTmr (i.val : Int)) s = .next t
      ∧ t.deviceHolds (0x38 + 2 * i.val) [tmrLow s.bank.tmr[i]] ∧ t.deviceHolds (0x39 + 2 * i.val) [tmrHigh s.bank.tmr[i]])
    ∧ (∃ t, exec (.encSum .hit) s = .next t
      ∧ t.deviceHolds (0x40 + 4 * s.lvl.state.toNat) (sumWords s.params s.lvl.hit))
    ∧ (∃ t, exec (.encSum .els) s = .next t
      ∧ t.deviceHolds (0x41 + 4 * s.lvl.state.toNat) (sumWords s.params s.lvl.els))
    ∧ (∃ t, exec (.encSum .capture) s = .next t
      ∧ t.deviceHolds (0x42 + 4 * s.lvl.state.toNat) (sumWords s.params s.lvl.cap))
    ∧ ∃ t, exec .encState s = .next t
      ∧ t.deviceHolds s.lvl.state.toNat [ctrl s.lvl]
      ∧ t.deviceHolds (0x42 + 4 * s.lvl.state.toNat) (sumWords s.params s.lvl.cap)
      ∧ t.deviceHolds (0x40 + 4 * s.lvl.state.toNat) (sumWords s.params s.lvl.hit)
      ∧ t.deviceHolds (0x41 + 4 * s.lvl.state.toNat) (sumWords s.params s.lvl.els)

/-- The frame of the encode commands in the device: on an accepting sink, a chain that the command does not select reads as
before, except one whose program was cut short by the command's first SELECT (R47, R51, R52, R57; the consumer is the spec's
own decision D19). -/
def Obligations.EncodeCommandsLeaveOtherChains : Prop :=
  ∀ (i : Instr) (s t : State) (b : Nat), s.params.wf → s.dev.aligned → laneOf i = .command →
    s.accepts (2 * (emission i s).length) → exec i s = .next t → (∀ a, Cmd.sel a ∈ emission i s → a.toNat ≠ b) →
      t.dev.img.read b = s.dev.img.read b
      ∨ (t.dev.img.read b = none
          ∧ ∃ old n, s.dev.sel = some old ∧ old.toNat = b ∧ programLength b = some n ∧ 0 < s.dev.run.length
            ∧ s.dev.run.length < n)

/-- A program of the wrong length leaves its address unspecified: after `SEL a`, at least one word but not the map's number,
and the next SELECT, the content of a is unknown (R52, R54, 93_implementation_defined.md U12). -/
def Obligations.WrongLengthVoidsTheAddress : Prop :=
  ∀ (d : Dev) (a b : Word) (ws : List Word) (n : Nat), programLength a.toNat = some n → ws ≠ [] → ws.length ≠ n →
    (((programOf a ws) ++ [Cmd.sel b]).foldl Dev.onCmd d).img.read a.toNat = none

/-- A word chained with nothing or an unmapped address selected makes the whole device undefined (R52, U3; that the contents
are void too is R55, entry 17). -/
def Obligations.ChainWithoutMappedTargetIsUndefined : Prop :=
  ∀ (d : Dev) (w : Word), (∀ a, d.sel = some a → programLength a.toNat = none) →
    (d.onCmd (.chn w)).undef = true ∧ ∀ a, (d.onCmd (.chn w)).img.read a = none

/-- An undefined device becomes defined again with a frame exactly when after it every one of the 84 mapped addresses has
received a complete program (R55, R238). -/
def Obligations.UndefinedUntilAllAddressesReprogrammed : Prop :=
  mappedAddresses.length = 84
  ∧ ∀ (d : Dev) (c : Cmd), d.wf → d.undef = true →
    ((d.onCmd c).undef = false ↔ ∀ a ∈ mappedAddresses, ((d.onCmd c).img.read a).isSome = true)

/-- The order of two complete programs of different addresses does not matter to what the device then holds (R215, derived
there from R52). -/
def Obligations.ProgramOrderDoesNotMatter : Prop :=
  ∀ (d : Dev) (a b : Word) (us vs : List Word), a ≠ b → programLength a.toNat = some us.length →
    programLength b.toNat = some vs.length →
      ∀ x, ((programOf a us ++ programOf b vs).foldl Dev.onCmd d).img.read x
        = ((programOf b vs ++ programOf a us).foldl Dev.onCmd d).img.read x

/-- A frame cut by an IOFailure is never misread as part of a later one: either the consumer interprets nothing more, or,
under the assumption of U2, it stands at a frame boundary (R42, 93_implementation_defined.md U2, entry 13). -/
def Obligations.CutFrameIsNeverMisread : Prop :=
  ∀ s : State, s.dev.frag ≠ [] →
    (s.params.framingRestarts = false → ∀ bytes, (raiseIOFailure s).dev.feedAll bytes = (raiseIOFailure s).dev)
    ∧ (s.params.framingRestarts = true → s.dev.stopped = false → (raiseIOFailure s).dev.aligned)

/-- Issuing a host command a second time, at once, changes the content of no chain, and an encode command emits the same
frames both times: for every host command (with one program or several), on an accepting sink, from every state with legal
parameters whose consumer stands at a frame boundary or has stopped (R134; the consumer is the spec's own decision D19). -/
def Obligations.ReEncodingIsIdempotent : Prop :=
  ∀ (i : Instr) (s t u : State), s.params.wf → (s.dev.stopped = false → s.dev.frag = []) → laneOf i = .command →
    s.accepts (4 * (emission i s).length) → exec i s = .next t → exec i t = .next u →
      (∀ x, u.dev.img.read x = t.dev.img.read x)
      ∧ (i ≠ .reset → t.out = s.out ++ framesOf (emission i s) ∧ u.out = t.out ++ framesOf (emission i s))

/-! ## What is internal -/

/-- The wire primitives are internal to the block: where no internal packet waits (at power-on, and after any step at all), a
step sends nothing but frames of the list of one of the six encode commands, presented by the host, cut short only where a
sink call failed; any other command sends nothing, RESET empties OUT (R210; that a wire row can be placed to run alone is
entry 1, the atomic step D1). -/
def Obligations.FramesComeFromEncodeCommands : Prop :=
  State.reset.inner = none
  ∧ ∀ s t : State, step s = .next t →
    t.inner = none
    ∧ (s.inner = none →
        t.out = s.out
        ∨ (t.out = [] ∧ ∃ bytes rest, s.port = bytes :: rest ∧ decode .command bytes = .ok .reset)
        ∨ ∃ bytes rest i n, s.port = bytes :: rest ∧ decode .command bytes = .ok i
          ∧ ((∃ k, i = .encPat k) ∨ (∃ r, i = .encRng r) ∨ (∃ e, i = .encEdg e) ∨ (∃ k, i = .encTmr k)
            ∨ (∃ role, i = .encSum role) ∨ i = .encState)
          ∧ t.out = s.out ++ (framesOf (emission i s)).take n
          ∧ (t.reply.map Reply.status = some .ok → t.out = s.out ++ framesOf (emission i s)))
end

