-- ==== Sys2Proof/Laws/State.lean ====
section
/-! SUPPORT. One lemma per field per update of the state, true by rfl, so that no proof unfolds a record update. -/

namespace Sys2Proof.Laws
open Sys2Proof.Machine

variable (s : State)

@[simp] theorem popAnswer_params : s.popAnswer.params = s.params := rfl
@[simp] theorem popAnswer_bank : s.popAnswer.bank = s.bank := rfl
@[simp] theorem popAnswer_b : s.popAnswer.b = s.b := rfl
@[simp] theorem popAnswer_lvl : s.popAnswer.lvl = s.lvl := rfl
@[simp] theorem popAnswer_out : s.popAnswer.out = s.out := rfl
@[simp] theorem popAnswer_dev : s.popAnswer.dev = s.dev := rfl
@[simp] theorem popAnswer_reply : s.popAnswer.reply = s.reply := rfl
@[simp] theorem popAnswer_port : s.popAnswer.port = s.port := rfl
@[simp] theorem popAnswer_inner : s.popAnswer.inner = s.inner := rfl
@[simp] theorem popAnswer_sink : s.popAnswer.sink = s.sink.tail := rfl
@[simp] theorem popAnswer_sinkCalls : s.popAnswer.sinkCalls = s.sinkCalls + 1 := rfl

@[simp] theorem popAnswers_params (n : Nat) : (s.popAnswers n).params = s.params := rfl
@[simp] theorem popAnswers_bank (n : Nat) : (s.popAnswers n).bank = s.bank := rfl
@[simp] theorem popAnswers_b (n : Nat) : (s.popAnswers n).b = s.b := rfl
@[simp] theorem popAnswers_lvl (n : Nat) : (s.popAnswers n).lvl = s.lvl := rfl
@[simp] theorem popAnswers_out (n : Nat) : (s.popAnswers n).out = s.out := rfl
@[simp] theorem popAnswers_dev (n : Nat) : (s.popAnswers n).dev = s.dev := rfl
@[simp] theorem popAnswers_reply (n : Nat) : (s.popAnswers n).reply = s.reply := rfl
@[simp] theorem popAnswers_port (n : Nat) : (s.popAnswers n).port = s.port := rfl
@[simp] theorem popAnswers_inner (n : Nat) : (s.popAnswers n).inner = s.inner := rfl
@[simp] theorem popAnswers_sink (n : Nat) : (s.popAnswers n).sink = s.sink.drop n := rfl
@[simp] theorem popAnswers_sinkCalls (n : Nat) : (s.popAnswers n).sinkCalls = s.sinkCalls + n := rfl

@[simp] theorem deliver_params (bytes : List Byte) : (s.deliver bytes).params = s.params := rfl
@[simp] theorem deliver_bank (bytes : List Byte) : (s.deliver bytes).bank = s.bank := rfl
@[simp] theorem deliver_b (bytes : List Byte) : (s.deliver bytes).b = s.b := rfl
@[simp] theorem deliver_lvl (bytes : List Byte) : (s.deliver bytes).lvl = s.lvl := rfl
@[simp] theorem deliver_out (bytes : List Byte) : (s.deliver bytes).out = s.out ++ bytes := rfl
@[simp] theorem deliver_dev (bytes : List Byte) : (s.deliver bytes).dev = s.dev.feedAll bytes := rfl
@[simp] theorem deliver_reply (bytes : List Byte) : (s.deliver bytes).reply = s.reply := rfl
@[simp] theorem deliver_port (bytes : List Byte) : (s.deliver bytes).port = s.port := rfl
@[simp] theorem deliver_inner (bytes : List Byte) : (s.deliver bytes).inner = s.inner := rfl
@[simp] theorem deliver_sink (bytes : List Byte) : (s.deliver bytes).sink = s.sink := rfl
@[simp] theorem deliver_sinkCalls (bytes : List Byte) : (s.deliver bytes).sinkCalls = s.sinkCalls := rfl

@[simp] theorem sent_params (cmds : List Cmd) : (s.sent cmds).params = s.params := rfl
@[simp] theorem sent_bank (cmds : List Cmd) : (s.sent cmds).bank = s.bank := rfl
@[simp] theorem sent_b (cmds : List Cmd) : (s.sent cmds).b = s.b := rfl
@[simp] theorem sent_lvl (cmds : List Cmd) : (s.sent cmds).lvl = s.lvl := rfl
@[simp] theorem sent_out (cmds : List Cmd) : (s.sent cmds).out = s.out ++ framesOf cmds := rfl
@[simp] theorem sent_dev (cmds : List Cmd) : (s.sent cmds).dev = s.dev.feedAll (framesOf cmds) := rfl
@[simp] theorem sent_reply (cmds : List Cmd) : (s.sent cmds).reply = s.reply := rfl
@[simp] theorem sent_port (cmds : List Cmd) : (s.sent cmds).port = s.port := rfl
@[simp] theorem sent_inner (cmds : List Cmd) : (s.sent cmds).inner = s.inner := rfl
@[simp] theorem sent_sink (cmds : List Cmd) : (s.sent cmds).sink = s.sink.drop (2 * cmds.length) := rfl
@[simp] theorem sent_sinkCalls (cmds : List Cmd) : (s.sent cmds).sinkCalls = s.sinkCalls + 2 * cmds.length := rfl

@[simp] theorem complete_params (r : Option Result) : (s.complete r).params = s.params := rfl
@[simp] theorem complete_bank (r : Option Result) : (s.complete r).bank = s.bank := rfl
@[simp] theorem complete_b (r : Option Result) : (s.complete r).b = s.b := rfl
@[simp] theorem complete_lvl (r : Option Result) : (s.complete r).lvl = s.lvl := rfl
@[simp] theorem complete_out (r : Option Result) : (s.complete r).out = s.out := rfl
@[simp] theorem complete_dev (r : Option Result) : (s.complete r).dev = s.dev := rfl
@[simp] theorem complete_reply (r : Option Result) : (s.complete r).reply = some ⟨.ok, r⟩ := rfl
@[simp] theorem complete_port (r : Option Result) : (s.complete r).port = s.port := rfl
@[simp] theorem complete_inner (r : Option Result) : (s.complete r).inner = s.inner := rfl
@[simp] theorem complete_sink (r : Option Result) : (s.complete r).sink = s.sink := rfl
@[simp] theorem complete_sinkCalls (r : Option Result) : (s.complete r).sinkCalls = s.sinkCalls := rfl

@[simp] theorem raiseInvalidArgument_params : (raiseInvalidArgument s).params = s.params := rfl
@[simp] theorem raiseInvalidArgument_bank : (raiseInvalidArgument s).bank = s.bank := rfl
@[simp] theorem raiseInvalidArgument_b : (raiseInvalidArgument s).b = s.b := rfl
@[simp] theorem raiseInvalidArgument_lvl : (raiseInvalidArgument s).lvl = s.lvl := rfl
@[simp] theorem raiseInvalidArgument_out : (raiseInvalidArgument s).out = s.out := rfl
@[simp] theorem raiseInvalidArgument_dev : (raiseInvalidArgument s).dev = s.dev := rfl
@[simp] theorem raiseInvalidArgument_reply : (raiseInvalidArgument s).reply = some ⟨.invalidArgument, none⟩ := rfl
@[simp] theorem raiseInvalidArgument_port : (raiseInvalidArgument s).port = s.port := rfl
@[simp] theorem raiseInvalidArgument_inner : (raiseInvalidArgument s).inner = s.inner := rfl
@[simp] theorem raiseInvalidArgument_sink : (raiseInvalidArgument s).sink = s.sink := rfl
@[simp] theorem raiseInvalidArgument_sinkCalls : (raiseInvalidArgument s).sinkCalls = s.sinkCalls := rfl

@[simp] theorem raiseIOFailure_params : (raiseIOFailure s).params = s.params := rfl
@[simp] theorem raiseIOFailure_bank : (raiseIOFailure s).bank = s.bank := rfl
@[simp] theorem raiseIOFailure_b : (raiseIOFailure s).b = s.b := rfl
@[simp] theorem raiseIOFailure_lvl : (raiseIOFailure s).lvl = s.lvl := rfl
@[simp] theorem raiseIOFailure_out : (raiseIOFailure s).out = s.out := rfl
@[simp] theorem raiseIOFailure_dev : (raiseIOFailure s).dev = s.dev.ioFailure s.params.framingRestarts := rfl
@[simp] theorem raiseIOFailure_reply : (raiseIOFailure s).reply = some ⟨.ioFailure, none⟩ := rfl
@[simp] theorem raiseIOFailure_port : (raiseIOFailure s).port = s.port := rfl
@[simp] theorem raiseIOFailure_inner : (raiseIOFailure s).inner = s.inner := rfl
@[simp] theorem raiseIOFailure_sink : (raiseIOFailure s).sink = s.sink := rfl
@[simp] theorem raiseIOFailure_sinkCalls : (raiseIOFailure s).sinkCalls = s.sinkCalls := rfl

@[simp] theorem setPat_params (k : Fin 10) (t : PatTerm) : (s.setPat k t).params = s.params := rfl
@[simp] theorem setPat_bank (k : Fin 10) (t : PatTerm) : (s.setPat k t).bank = { s.bank with pat := s.bank.pat.set k t } := rfl
@[simp] theorem setPat_b (k : Fin 10) (t : PatTerm) : (s.setPat k t).b = s.b := rfl
@[simp] theorem setPat_lvl (k : Fin 10) (t : PatTerm) : (s.setPat k t).lvl = s.lvl := rfl
@[simp] theorem setPat_out (k : Fin 10) (t : PatTerm) : (s.setPat k t).out = s.out := rfl
@[simp] theorem setPat_dev (k : Fin 10) (t : PatTerm) : (s.setPat k t).dev = s.dev := rfl
@[simp] theorem setPat_reply (k : Fin 10) (t : PatTerm) : (s.setPat k t).reply = s.reply := rfl
@[simp] theorem setPat_port (k : Fin 10) (t : PatTerm) : (s.setPat k t).port = s.port := rfl
@[simp] theorem setPat_inner (k : Fin 10) (t : PatTerm) : (s.setPat k t).inner = s.inner := rfl
@[simp] theorem setPat_sink (k : Fin 10) (t : PatTerm) : (s.setPat k t).sink = s.sink := rfl
@[simp] theorem setPat_sinkCalls (k : Fin 10) (t : PatTerm) : (s.setPat k t).sinkCalls = s.sinkCalls := rfl

@[simp] theorem setRng_params (k : Fin 2) (t : RngTerm) : (s.setRng k t).params = s.params := rfl
@[simp] theorem setRng_bank (k : Fin 2) (t : RngTerm) : (s.setRng k t).bank = { s.bank with rng := s.bank.rng.set k t } := rfl
@[simp] theorem setRng_b (k : Fin 2) (t : RngTerm) : (s.setRng k t).b = s.b := rfl
@[simp] theorem setRng_lvl (k : Fin 2) (t : RngTerm) : (s.setRng k t).lvl = s.lvl := rfl
@[simp] theorem setRng_out (k : Fin 2) (t : RngTerm) : (s.setRng k t).out = s.out := rfl
@[simp] theorem setRng_dev (k : Fin 2) (t : RngTerm) : (s.setRng k t).dev = s.dev := rfl
@[simp] theorem setRng_reply (k : Fin 2) (t : RngTerm) : (s.setRng k t).reply = s.reply := rfl
@[simp] theorem setRng_port (k : Fin 2) (t : RngTerm) : (s.setRng k t).port = s.port := rfl
@[simp] theorem setRng_inner (k : Fin 2) (t : RngTerm) : (s.setRng k t).inner = s.inner := rfl
@[simp] theorem setRng_sink (k : Fin 2) (t : RngTerm) : (s.setRng k t).sink = s.sink := rfl
@[simp] theorem setRng_sinkCalls (k : Fin 2) (t : RngTerm) : (s.setRng k t).sinkCalls = s.sinkCalls := rfl

@[simp] theorem setEdg_params (k : Fin 2) (t : EdgTerm) : (s.setEdg k t).params = s.params := rfl
@[simp] theorem setEdg_bank (k : Fin 2) (t : EdgTerm) : (s.setEdg k t).bank = { s.bank with edg := s.bank.edg.set k t } := rfl
@[simp] theorem setEdg_b (k : Fin 2) (t : EdgTerm) : (s.setEdg k t).b = s.b := rfl
@[simp] theorem setEdg_lvl (k : Fin 2) (t : EdgTerm) : (s.setEdg k t).lvl = s.lvl := rfl
@[simp] theorem setEdg_out (k : Fin 2) (t : EdgTerm) : (s.setEdg k t).out = s.out := rfl
@[simp] theorem setEdg_dev (k : Fin 2) (t : EdgTerm) : (s.setEdg k t).dev = s.dev := rfl
@[simp] theorem setEdg_reply (k : Fin 2) (t : EdgTerm) : (s.setEdg k t).reply = s.reply := rfl
@[simp] theorem setEdg_port (k : Fin 2) (t : EdgTerm) : (s.setEdg k t).port = s.port := rfl
@[simp] theorem setEdg_inner (k : Fin 2) (t : EdgTerm) : (s.setEdg k t).inner = s.inner := rfl
@[simp] theorem setEdg_sink (k : Fin 2) (t : EdgTerm) : (s.setEdg k t).sink = s.sink := rfl
@[simp] theorem setEdg_sinkCalls (k : Fin 2) (t : EdgTerm) : (s.setEdg k t).sinkCalls = s.sinkCalls := rfl

@[simp] theorem setTmr_params (k : Fin 2) (t : Threshold) : (s.setTmr k t).params = s.params := rfl
@[simp] theorem setTmr_bank (k : Fin 2) (t : Threshold) : (s.setTmr k t).bank = { s.bank with tmr := s.bank.tmr.set k t } := rfl
@[simp] theorem setTmr_b (k : Fin 2) (t : Threshold) : (s.setTmr k t).b = s.b := rfl
@[simp] theorem setTmr_lvl (k : Fin 2) (t : Threshold) : (s.setTmr k t).lvl = s.lvl := rfl
@[simp] theorem setTmr_out (k : Fin 2) (t : Threshold) : (s.setTmr k t).out = s.out := rfl
@[simp] theorem setTmr_dev (k : Fin 2) (t : Threshold) : (s.setTmr k t).dev = s.dev := rfl
@[simp] theorem setTmr_reply (k : Fin 2) (t : Threshold) : (s.setTmr k t).reply = s.reply := rfl
@[simp] theorem setTmr_port (k : Fin 2) (t : Threshold) : (s.setTmr k t).port = s.port := rfl
@[simp] theorem setTmr_inner (k : Fin 2) (t : Threshold) : (s.setTmr k t).inner = s.inner := rfl
@[simp] theorem setTmr_sink (k : Fin 2) (t : Threshold) : (s.setTmr k t).sink = s.sink := rfl
@[simp] theorem setTmr_sinkCalls (k : Fin 2) (t : Threshold) : (s.setTmr k t).sinkCalls = s.sinkCalls := rfl

@[simp] theorem setB_params (w : Level → Level) : (s.setB w).params = s.params := rfl
@[simp] theorem setB_bank (w : Level → Level) : (s.setB w).bank = s.bank := rfl
@[simp] theorem setB_b (w : Level → Level) : (s.setB w).b = w s.b := rfl
@[simp] theorem setB_lvl (w : Level → Level) : (s.setB w).lvl = s.lvl := rfl
@[simp] theorem setB_out (w : Level → Level) : (s.setB w).out = s.out := rfl
@[simp] theorem setB_dev (w : Level → Level) : (s.setB w).dev = s.dev := rfl
@[simp] theorem setB_reply (w : Level → Level) : (s.setB w).reply = s.reply := rfl
@[simp] theorem setB_port (w : Level → Level) : (s.setB w).port = s.port := rfl
@[simp] theorem setB_inner (w : Level → Level) : (s.setB w).inner = s.inner := rfl
@[simp] theorem setB_sink (w : Level → Level) : (s.setB w).sink = s.sink := rfl
@[simp] theorem setB_sinkCalls (w : Level → Level) : (s.setB w).sinkCalls = s.sinkCalls := rfl

@[simp] theorem build_params : s.build.params = s.params := rfl
@[simp] theorem build_bank : s.build.bank = s.bank := rfl
@[simp] theorem build_b : s.build.b = Level.level0 := rfl
@[simp] theorem build_lvl : s.build.lvl = s.b := rfl
@[simp] theorem build_out : s.build.out = s.out := rfl
@[simp] theorem build_dev : s.build.dev = s.dev := rfl
@[simp] theorem build_reply : s.build.reply = s.reply := rfl
@[simp] theorem build_port : s.build.port = s.port := rfl
@[simp] theorem build_inner : s.build.inner = s.inner := rfl
@[simp] theorem build_sink : s.build.sink = s.sink := rfl
@[simp] theorem build_sinkCalls : s.build.sinkCalls = s.sinkCalls := rfl

@[simp] theorem resetRegisters_params : s.resetRegisters.params = s.params := rfl
@[simp] theorem resetRegisters_bank : s.resetRegisters.bank = Bank.zero := rfl
@[simp] theorem resetRegisters_b : s.resetRegisters.b = Level.level0 := rfl
@[simp] theorem resetRegisters_lvl : s.resetRegisters.lvl = Level.level0 := rfl
@[simp] theorem resetRegisters_out : s.resetRegisters.out = [] := rfl
@[simp] theorem resetRegisters_dev : s.resetRegisters.dev = s.dev := rfl
@[simp] theorem resetRegisters_reply : s.resetRegisters.reply = s.reply := rfl
@[simp] theorem resetRegisters_port : s.resetRegisters.port = s.port := rfl
@[simp] theorem resetRegisters_inner : s.resetRegisters.inner = s.inner := rfl
@[simp] theorem resetRegisters_sink : s.resetRegisters.sink = s.sink := rfl
@[simp] theorem resetRegisters_sinkCalls : s.resetRegisters.sinkCalls = s.sinkCalls := rfl

/-! Placing a table word changes the port and the internal packet alone. -/

@[simp] theorem withFetchWord_params (nbits w : Nat) : (s.withFetchWord nbits w).params = s.params := by
  unfold State.withFetchWord; split <;> rfl
@[simp] theorem withFetchWord_bank (nbits w : Nat) : (s.withFetchWord nbits w).bank = s.bank := by
  unfold State.withFetchWord; split <;> rfl
@[simp] theorem withFetchWord_b (nbits w : Nat) : (s.withFetchWord nbits w).b = s.b := by
  unfold State.withFetchWord; split <;> rfl
@[simp] theorem withFetchWord_lvl (nbits w : Nat) : (s.withFetchWord nbits w).lvl = s.lvl := by
  unfold State.withFetchWord; split <;> rfl
@[simp] theorem withFetchWord_out (nbits w : Nat) : (s.withFetchWord nbits w).out = s.out := by
  unfold State.withFetchWord; split <;> rfl
@[simp] theorem withFetchWord_dev (nbits w : Nat) : (s.withFetchWord nbits w).dev = s.dev := by
  unfold State.withFetchWord; split <;> rfl
@[simp] theorem withFetchWord_reply (nbits w : Nat) : (s.withFetchWord nbits w).reply = s.reply := by
  unfold State.withFetchWord; split <;> rfl
@[simp] theorem withFetchWord_sink (nbits w : Nat) : (s.withFetchWord nbits w).sink = s.sink := by
  unfold State.withFetchWord; split <;> rfl
@[simp] theorem withFetchWord_sinkCalls (nbits w : Nat) : (s.withFetchWord nbits w).sinkCalls = s.sinkCalls := by
  unfold State.withFetchWord; split <;> rfl

end Sys2Proof.Laws
end

