-- ==== Sys2Proof/Laws/Device.lean ====
section
/-! SUPPORT. The chain image: a read after a write, what a write and an erase leave alone, and that both keep the
canonical form; and what each operation of the reference consumer does to its fields. -/

namespace Sys2Proof.Laws
open Sys2Proof.Machine

/-! ## The image -/

@[simp] theorem read_nil (a : Nat) : Memory.read [] a = none := rfl

theorem read_write (m : Memory) (a b : Nat) (ws : List Word) :
    (m.write a ws).read b = if a = b then some ws else m.read b := by
  induction m with
  | nil => simp [Memory.write, Memory.read]
  | cons cell rest ih =>
    obtain ⟨k, vs⟩ := cell
    simp only [Memory.write]
    split
    · simp only [Memory.read]
    · split
      · rename_i h; subst h; simp only [Memory.read]; split <;> rfl
      · simp only [Memory.read, ih]; split <;> split <;> first | rfl | omega

@[simp] theorem read_write_same (m : Memory) (a : Nat) (ws : List Word) : (m.write a ws).read a = some ws := by
  simp [read_write]

theorem read_write_other (m : Memory) {a b : Nat} (ws : List Word) (h : a ≠ b) : (m.write a ws).read b = m.read b := by
  simp [read_write, h]

theorem read_erase (m : Memory) (a b : Nat) : (m.erase a).read b = if a = b then none else m.read b := by
  induction m with
  | nil => simp [Memory.erase, Memory.read]
  | cons cell rest ih =>
    obtain ⟨k, vs⟩ := cell
    simp only [Memory.erase, List.filter_cons] at ih ⊢
    by_cases hk : k = a
    · subst hk
      simp only [ne_eq, not_true_eq_false, decide_false, Bool.false_eq_true, if_false, ih, Memory.read]
      split <;> rfl
    · simp only [ne_eq, hk, not_false_eq_true, decide_true, if_true, Memory.read, ih]
      split <;> split <;> first | rfl | omega

theorem mem_write {m : Memory} {a : Nat} {ws : List Word} {cell : Nat × List Word} (h : cell ∈ m.write a ws) :
    cell = (a, ws) ∨ cell ∈ m := by
  induction m with
  | nil => simpa [Memory.write] using h
  | cons head rest ih =>
    obtain ⟨k, vs⟩ := head
    simp only [Memory.write] at h
    split at h
    · simpa using h
    · split at h
      · rcases List.mem_cons.1 h with h | h
        · exact .inl h
        · exact .inr (List.mem_cons_of_mem _ h)
      · rcases List.mem_cons.1 h with h | h
        · exact .inr (by simp [h])
        · rcases ih h with h | h
          · exact .inl h
          · exact .inr (List.mem_cons_of_mem _ h)

theorem mem_erase {m : Memory} {a : Nat} {cell : Nat × List Word} (h : cell ∈ m.erase a) : cell ∈ m :=
  (List.mem_filter.1 h).1

/-- A write keeps the canonical form. -/
theorem write_wf {m : Memory} (a : Nat) (ws : List Word) (h : m.wf) : (m.write a ws).wf := by
  induction m with
  | nil => simp [Memory.write, Memory.wf]
  | cons head rest ih =>
    obtain ⟨k, vs⟩ := head
    simp only [Memory.wf, List.pairwise_cons] at h ih ⊢
    simp only [Memory.write]
    split
    · rename_i hlt
      simp only [List.pairwise_cons, List.mem_cons]
      refine ⟨?_, h⟩
      rintro y (rfl | hy)
      · exact hlt
      · exact Nat.lt_trans hlt (h.1 y hy)
    · split
      · rename_i hak; subst hak; simpa only [List.pairwise_cons] using h
      · simp only [List.pairwise_cons]
        refine ⟨fun y hy => ?_, ih h.2⟩
        rcases mem_write hy with rfl | hy
        · simp only; omega
        · exact h.1 y hy

/-- An erase keeps the canonical form. -/
theorem erase_wf {m : Memory} (a : Nat) (h : m.wf) : (m.erase a).wf := List.Pairwise.filter _ h

theorem empty_wf : Memory.wf [] := List.Pairwise.nil

/-! ## The consumer -/

@[simp] theorem setUndef_sel (d : Dev) : d.setUndef.sel = d.sel := rfl
@[simp] theorem setUndef_run (d : Dev) : d.setUndef.run = d.run := rfl
@[simp] theorem setUndef_img (d : Dev) : d.setUndef.img = [] := rfl
@[simp] theorem setUndef_undef (d : Dev) : d.setUndef.undef = true := rfl
@[simp] theorem setUndef_frag (d : Dev) : d.setUndef.frag = d.frag := rfl
@[simp] theorem setUndef_stopped (d : Dev) : d.setUndef.stopped = d.stopped := rfl

@[simp] theorem unparseable_sel (d : Dev) : d.unparseable.sel = d.sel := rfl
@[simp] theorem unparseable_run (d : Dev) : d.unparseable.run = d.run := rfl
@[simp] theorem unparseable_img (d : Dev) : d.unparseable.img = [] := rfl
@[simp] theorem unparseable_undef (d : Dev) : d.unparseable.undef = true := rfl
@[simp] theorem unparseable_frag (d : Dev) : d.unparseable.frag = d.frag := rfl
@[simp] theorem unparseable_stopped (d : Dev) : d.unparseable.stopped = true := rfl

/-- `refresh` changes `undef` alone, and only from true to false. -/
theorem refresh_cases (d : Dev) :
    d.refresh = d ∨ (d.refresh = { d with undef := false } ∧ d.undef = true
      ∧ ∀ a ∈ mappedAddresses, (d.img.read a).isSome) := by
  unfold Dev.refresh
  split
  · rename_i h
    simp only [Bool.and_eq_true, List.all_eq_true] at h
    exact .inr ⟨rfl, h⟩
  · exact .inl rfl

@[simp] theorem refresh_sel (d : Dev) : d.refresh.sel = d.sel := by rcases refresh_cases d with h | ⟨h, -⟩ <;> rw [h]
@[simp] theorem refresh_run (d : Dev) : d.refresh.run = d.run := by rcases refresh_cases d with h | ⟨h, -⟩ <;> rw [h]
@[simp] theorem refresh_img (d : Dev) : d.refresh.img = d.img := by rcases refresh_cases d with h | ⟨h, -⟩ <;> rw [h]
@[simp] theorem refresh_frag (d : Dev) : d.refresh.frag = d.frag := by rcases refresh_cases d with h | ⟨h, -⟩ <;> rw [h]
@[simp] theorem refresh_stopped (d : Dev) : d.refresh.stopped = d.stopped := by
  rcases refresh_cases d with h | ⟨h, -⟩ <;> rw [h]

theorem refresh_undef_of_not (d : Dev) (h : d.undef = false) : d.refresh = d := by simp [Dev.refresh, h]

/-- `dropShort` changes the image alone: nothing, or one address voided. -/
theorem dropShort_cases (d : Dev) :
    d.dropShort = d ∨ ∃ a n, d.sel = some a ∧ programLength a.toNat = some n ∧ d.run ≠ [] ∧ d.run.length < n
      ∧ d.dropShort = { d with img := d.img.erase a.toNat } := by
  cases hs : d.sel with
  | none => exact .inl (by simp only [Dev.dropShort, hs])
  | some a =>
    cases hn : programLength a.toNat with
    | none => exact .inl (by simp only [Dev.dropShort, hs, hn])
    | some n =>
      simp only [Dev.dropShort, hs, hn]
      split
      · rename_i h; exact .inr ⟨a, n, rfl, hn, h.1, h.2, rfl⟩
      · exact .inl rfl

@[simp] theorem dropShort_undef (d : Dev) : d.dropShort.undef = d.undef := by
  rcases dropShort_cases d with h | ⟨_, _, -, -, -, -, h⟩ <;> rw [h]
@[simp] theorem dropShort_frag (d : Dev) : d.dropShort.frag = d.frag := by
  rcases dropShort_cases d with h | ⟨_, _, -, -, -, -, h⟩ <;> rw [h]
@[simp] theorem dropShort_stopped (d : Dev) : d.dropShort.stopped = d.stopped := by
  rcases dropShort_cases d with h | ⟨_, _, -, -, -, -, h⟩ <;> rw [h]

@[simp] theorem onSelect_sel (d : Dev) (a : Word) : (d.onSelect a).sel = some a := rfl
@[simp] theorem onSelect_run (d : Dev) (a : Word) : (d.onSelect a).run = [] := rfl
@[simp] theorem onSelect_img (d : Dev) (a : Word) : (d.onSelect a).img = d.dropShort.img := rfl
@[simp] theorem onSelect_undef (d : Dev) (a : Word) : (d.onSelect a).undef = d.undef := by simp [Dev.onSelect]
@[simp] theorem onSelect_frag (d : Dev) (a : Word) : (d.onSelect a).frag = d.frag := by simp [Dev.onSelect]
@[simp] theorem onSelect_stopped (d : Dev) (a : Word) : (d.onSelect a).stopped = d.stopped := by simp [Dev.onSelect]

/-- Everything `CHN w` can do to the consumer (R52). -/
theorem onChain_cases (d : Dev) (w : Word) :
    (d.sel = none ∧ d.onChain w = d.setUndef)
    ∨ (∃ a, d.sel = some a ∧ programLength a.toNat = none ∧ d.onChain w = { d with run := d.run ++ [w] }.setUndef)
    ∨ (∃ a, d.sel = some a ∧ programLength a.toNat = some (d.run.length + 1)
        ∧ d.onChain w = { d with run := d.run ++ [w], img := d.img.write a.toNat (d.run ++ [w]) }.refresh)
    ∨ (∃ a n, d.sel = some a ∧ programLength a.toNat = some n ∧ n < d.run.length + 1
        ∧ d.onChain w = { d with run := d.run ++ [w], img := d.img.erase a.toNat })
    ∨ (∃ a n, d.sel = some a ∧ programLength a.toNat = some n ∧ d.run.length + 1 < n
        ∧ d.onChain w = { d with run := d.run ++ [w] }) := by
  cases hs : d.sel with
  | none => exact .inl ⟨rfl, by simp only [Dev.onChain, hs]⟩
  | some a =>
    refine .inr ?_
    cases hn : programLength a.toNat with
    | none => exact .inl ⟨a, rfl, hn, by simp only [Dev.onChain, hs, hn]⟩
    | some n =>
      refine .inr ?_
      simp only [Dev.onChain, hs, hn, List.length_append, List.length_cons, List.length_nil, Nat.zero_add]
      rcases Nat.lt_trichotomy (d.run.length + 1) n with h | h | h
      · refine .inr (.inr ⟨a, n, rfl, hn, h, ?_⟩)
        rw [if_neg (by omega), if_neg (by omega)]
      · subst h; exact .inl ⟨a, rfl, hn, by simp⟩
      · refine .inr (.inl ⟨a, n, rfl, hn, h, ?_⟩)
        rw [if_neg (by omega), if_pos h]

@[simp] theorem onChain_sel (d : Dev) (w : Word) : (d.onChain w).sel = d.sel := by
  rcases onChain_cases d w with ⟨-, h⟩ | ⟨_, -, -, h⟩ | ⟨_, -, -, h⟩ | ⟨_, _, -, -, -, h⟩ | ⟨_, _, -, -, -, h⟩ <;> rw [h] <;> simp
@[simp] theorem onChain_frag (d : Dev) (w : Word) : (d.onChain w).frag = d.frag := by
  rcases onChain_cases d w with ⟨-, h⟩ | ⟨_, -, -, h⟩ | ⟨_, -, -, h⟩ | ⟨_, _, -, -, -, h⟩ | ⟨_, _, -, -, -, h⟩ <;> rw [h] <;> simp
@[simp] theorem onChain_stopped (d : Dev) (w : Word) : (d.onChain w).stopped = d.stopped := by
  rcases onChain_cases d w with ⟨-, h⟩ | ⟨_, -, -, h⟩ | ⟨_, -, -, h⟩ | ⟨_, _, -, -, -, h⟩ | ⟨_, _, -, -, -, h⟩ <;> rw [h] <;> simp

theorem feed_of_stopped (d : Dev) (b : Byte) (h : d.stopped = true) : d.feed b = d := by simp [Dev.feed, h]

@[simp] theorem feedAll_nil (d : Dev) : d.feedAll [] = d := rfl
@[simp] theorem feedAll_cons (d : Dev) (b : Byte) (bs : List Byte) : d.feedAll (b :: bs) = (d.feed b).feedAll bs := rfl
theorem feedAll_append (d : Dev) (xs ys : List Byte) : d.feedAll (xs ++ ys) = (d.feedAll xs).feedAll ys := by
  simp [Dev.feedAll, List.foldl_append]

theorem feedAll_of_stopped (d : Dev) (bs : List Byte) (h : d.stopped = true) : d.feedAll bs = d := by
  induction bs with
  | nil => rfl
  | cons b bs ih => rw [feedAll_cons, feed_of_stopped d b h, ih]

end Sys2Proof.Laws
end

