-- ==== Sys2Proof/Laws/Ops.lean ====
section
/-! SUPPORT. The sink, the wire primitives and the emission of a list: `emit_cases` says once everything an emission can
do, the lemmas before it everything one sink call and one wire command can do. -/

namespace Sys2Proof.Laws
open Sys2Proof.Machine

/-! ## Lengths -/

@[simp] theorem length_beBytes32 (v : Word) : (beBytes32 v).length = 4 := rfl
@[simp] theorem length_frame (c : Cmd) : c.frame.length = 5 := by cases c <;> rfl
@[simp] theorem framesOf_nil : framesOf [] = [] := rfl
@[simp] theorem framesOf_cons (c : Cmd) (cs : List Cmd) : framesOf (c :: cs) = c.frame ++ framesOf cs := rfl
theorem framesOf_append (xs ys : List Cmd) : framesOf (xs ++ ys) = framesOf xs ++ framesOf ys := by simp [framesOf]
theorem length_framesOf (cs : List Cmd) : (framesOf cs).length = 5 * cs.length := by
  induction cs with
  | nil => rfl
  | cons c cs ih => rw [framesOf_cons, List.length_append, length_frame, ih, List.length_cons]; omega

/-! ## Answers -/

theorem answerAt_popAnswers (s : State) (n k : Nat) : (s.popAnswers n).answerAt k = s.answerAt (n + k) := by
  simp [State.answerAt, Nat.add_assoc]

@[simp] theorem answerAt_deliver (s : State) (bs : List Byte) (k : Nat) : (s.deliver bs).answerAt k = s.answerAt k := rfl

theorem popAnswer_eq (s : State) : s.popAnswer = s.popAnswers 1 := by
  simp [State.popAnswer, State.popAnswers]

@[simp] theorem popAnswers_zero (s : State) : s.popAnswers 0 = s := by simp [State.popAnswers]

@[simp] theorem deliver_nil (s : State) : s.deliver [] = s := by simp [State.deliver]

/-- Two deliveries with the answers between them are one. -/
theorem deliver_popAnswers_deliver (s : State) (n m : Nat) (xs ys : List Byte) :
    (((s.popAnswers n).deliver xs).popAnswers m).deliver ys = (s.popAnswers (n + m)).deliver (xs ++ ys) := by
  simp [State.deliver, State.popAnswers, feedAll_append, Nat.add_assoc]

theorem accepts_mono {s : State} {n m : Nat} (h : s.accepts n) (hm : m ≤ n) : s.accepts m :=
  fun k hk => h k (Nat.lt_of_lt_of_le hk hm)

/-! ## One wire command -/

theorem send_ok {c : Cmd} {s : State} (h : s.accepts 2) : c.send s = .ok ((s.popAnswers 2).deliver c.frame) := by
  have h0 := h 0 (by decide)
  have h1 : (s.popAnswers 1).answerAt 0 = .accept := by rw [answerAt_popAnswers]; exact h 1 (by decide)
  cases c <;>
    simp only [Cmd.send, State.select, State.writeWord, State.sinkByte, State.sinkU32BE, h0, popAnswer_eq, answerAt_deliver,
      h1, deliver_popAnswers_deliver, Cmd.frame, List.singleton_append]

theorem send_fail_first {c : Cmd} {s : State} {n : Fin 4} (h : s.answerAt 0 = .fail n) :
    c.send s = .error (s.popAnswers 1) := by
  cases c <;> simp only [Cmd.send, State.select, State.writeWord, State.sinkByte, h, popAnswer_eq]

theorem send_fail_second {c : Cmd} {s : State} {n : Fin 4} (h0 : s.answerAt 0 = .accept) (h1 : s.answerAt 1 = .fail n) :
    c.send s = .error ((s.popAnswers 2).deliver (c.frame.take (1 + n.val))) := by
  have h1' : (s.popAnswers 1).answerAt 0 = .fail n := by rw [answerAt_popAnswers]; exact h1
  cases c <;>
    simp only [Cmd.send, State.select, State.writeWord, State.sinkByte, State.sinkU32BE, h0, popAnswer_eq, answerAt_deliver,
      h1', deliver_popAnswers_deliver, Cmd.frame, List.singleton_append, Nat.add_comm 1, List.take_succ_cons]

/-! ## A list of wire commands -/

theorem sent_nil (s : State) : s.sent [] = s := by simp [State.sent]

theorem sent_cons (c : Cmd) (cs : List Cmd) (s : State) :
    s.sent (c :: cs) = ((s.popAnswers 2).deliver c.frame).sent cs := by
  simp only [State.sent, deliver_popAnswers_deliver, framesOf_cons, List.length_cons]
  rw [show 2 * (cs.length + 1) = 2 + 2 * cs.length by omega]

/-- With the sink accepting, the whole list is sent. -/
theorem emit_ok {cs : List Cmd} {s : State} (h : s.accepts (2 * cs.length)) : emit cs s = .ok (s.sent cs) := by
  induction cs generalizing s with
  | nil => rw [sent_nil]; rfl
  | cons c cs ih =>
    rw [List.length_cons] at h
    rw [emit, send_ok (accepts_mono h (by omega)), sent_cons]
    refine ih fun k hk => ?_
    rw [answerAt_deliver, answerAt_popAnswers]
    exact h _ (by omega)

/-- Everything the emission of a list can do: all of it is sent, or it stops at the first failing sink call with exactly
the bytes accepted up to it. -/
theorem emit_cases (cs : List Cmd) (s : State) :
    (s.accepts (2 * cs.length) ∧ emit cs s = .ok (s.sent cs))
    ∨ ∃ n taken, n < 2 * cs.length ∧ s.accepts n ∧ s.answerAt n = .fail taken
        ∧ emit cs s = .error ((s.popAnswers (n + 1)).deliver ((framesOf cs).take (bytesAccepted n taken))) := by
  induction cs generalizing s with
  | nil => exact .inl ⟨fun _ h => absurd h (by simp), by rw [sent_nil]; rfl⟩
  | cons c cs ih =>
    cases h0 : s.answerAt 0 with
    | fail t =>
      refine .inr ⟨0, t, by simp, fun _ h => absurd h (by simp), h0, ?_⟩
      simp [emit, send_fail_first h0, bytesAccepted]
    | accept =>
      cases h1 : s.answerAt 1 with
      | fail t =>
        refine .inr ⟨1, t, by simp; omega, fun k hk => ?_, h1, ?_⟩
        · have : k = 0 := by omega
          rw [this, h0]
        · rw [emit, send_fail_second h0 h1, framesOf_cons, List.take_append_of_le_length]
          · simp [bytesAccepted]
          · simp [bytesAccepted]; omega
      | accept =>
        have h2 : s.accepts 2 := fun k hk => by
          rcases (by omega : k = 0 ∨ k = 1) with rfl | rfl <;> assumption
        rw [emit, send_ok h2]
        rcases ih ((s.popAnswers 2).deliver c.frame) with ⟨ha, he⟩ | ⟨n, t, hn, ha, hf, he⟩
        · refine .inl ⟨fun k hk => ?_, by simpa only [sent_cons] using he⟩
          rcases Nat.lt_or_ge k 2 with hk2 | hk2
          · exact h2 k hk2
          · have := ha (k - 2) (by simp only [List.length_cons] at hk; omega)
            rwa [answerAt_deliver, answerAt_popAnswers, Nat.add_sub_cancel' hk2] at this
        · refine .inr ⟨n + 2, t, by simp only [List.length_cons]; omega, fun k hk => ?_, ?_, ?_⟩
          · rcases Nat.lt_or_ge k 2 with hk2 | hk2
            · exact h2 k hk2
            · have := ha (k - 2) (by omega)
              rwa [answerAt_deliver, answerAt_popAnswers, Nat.add_sub_cancel' hk2] at this
          · rwa [answerAt_deliver, answerAt_popAnswers, Nat.add_comm] at hf
          · have hb : bytesAccepted (n + 2) t = 5 + bytesAccepted n t := by
              simp only [bytesAccepted, Nat.add_mod_right, Nat.add_div_right n (by decide : 0 < 2)]; omega
            simp only [he, deliver_popAnswers_deliver, framesOf_cons]
            have hf : c.frame.take (5 + bytesAccepted n t) = c.frame :=
              List.take_of_length_le (by rw [length_frame]; omega)
            rw [hb, List.take_append, hf, length_frame, Nat.add_sub_cancel_left, show 2 + (n + 1) = n + 2 + 1 by omega]

/-- A command that emits, on an accepting sink: a next state with every frame sent and status OK. -/
theorem runEmission_ok {cs : List Cmd} {s : State} (h : s.accepts (2 * cs.length)) :
    runEmission cs s = .next ((s.sent cs).complete none) := by
  rw [runEmission, emit_ok h]; rfl

/-- Everything a command that emits can do. -/
theorem runEmission_cases (cs : List Cmd) (s : State) :
    (s.accepts (2 * cs.length) ∧ runEmission cs s = .next ((s.sent cs).complete none))
    ∨ ∃ n taken, n < 2 * cs.length ∧ s.accepts n ∧ s.answerAt n = .fail taken
        ∧ runEmission cs s
          = .next (raiseIOFailure ((s.popAnswers (n + 1)).deliver ((framesOf cs).take (bytesAccepted n taken)))) := by
  rcases emit_cases cs s with ⟨h, he⟩ | ⟨n, t, hn, ha, hf, he⟩
  · exact .inl ⟨h, runEmission_ok h⟩
  · exact .inr ⟨n, t, hn, ha, hf, by rw [runEmission, he]; rfl⟩

/-- To sinks that answer alike one list is sent alike: the same bytes, as many calls, the same status, the same effect on the
consumer. -/
theorem runEmission_alike (cs : List Cmd) {s s' : State} (ha : ∀ k, s'.answerAt k = s.answerAt k) :
    ∃ t t' bytes n, runEmission cs s = .next t ∧ runEmission cs s' = .next t'
      ∧ t.out = s.out ++ bytes ∧ t'.out = s'.out ++ bytes ∧ t.sink = s.sink.drop n ∧ t'.sink = s'.sink.drop n
      ∧ t.sinkCalls = s.sinkCalls + n ∧ t'.sinkCalls = s'.sinkCalls + n ∧ t'.reply = t.reply
      ∧ (s'.dev = s.dev → s'.params.framingRestarts = s.params.framingRestarts → t'.dev = t.dev) := by
  rcases runEmission_cases cs s with ⟨hc, h⟩ | ⟨n, tk, hn, hc, hf, h⟩
  · refine ⟨_, _, framesOf cs, 2 * cs.length, h, runEmission_ok fun k hk => (ha k).trans (hc k hk), ?_⟩
    simp +contextual
  · rcases runEmission_cases cs s' with ⟨hc', h'⟩ | ⟨n', tk', -, hc', hf', h'⟩
    · have := hc' n hn; rw [ha, hf] at this; cases this
    · rw [ha] at hf'
      have e : n' = n := by
        rcases Nat.lt_trichotomy n n' with hl | e | hl
        · have := hc' n hl; rw [ha, hf] at this; cases this
        · exact e.symm
        · have := hc n' hl; rw [hf'] at this; cases this
      subst e
      rw [hf] at hf'; cases hf'
      refine ⟨_, _, _, _, h, h', rfl, rfl, rfl, rfl, rfl, rfl, rfl, fun h1 h2 => ?_⟩
      simp [h1, h2]

end Sys2Proof.Laws
end

