-- ==== Sys2Proof/Laws/Decode.lean ====
section
/-! SUPPORT. Each reader of the decoder reads back what its encoder wrote, whatever follows; and the byte order, halves and
bit fields of the word formats. -/

namespace Sys2Proof.Laws
open Sys2Proof Sys2Proof.Machine

/-! ## Byte order and halves -/

@[simp] theorem be32_bytes (v : Word) :
    be32 (v.extractLsb' 24 8) (v.extractLsb' 16 8) (v.extractLsb' 8 8) (v.extractLsb' 0 8) = v := by
  apply BitVec.eq_of_getLsbD_eq
  intro i hi
  simp only [be32, BitVec.getLsbD_append, BitVec.getLsbD_extractLsb']
  split
  · simp [*]
  · split
    · have : i - 8 < 8 := by omega
      simp [this, show 8 + (i - 8) = i by omega]
    · split
      · have : i - 8 - 8 < 8 := by omega
        simp [this, show 16 + (i - 8 - 8) = i by omega]
      · have : i - 8 - 8 - 8 < 8 := by omega
        simp [this, show 24 + (i - 8 - 8 - 8) = i by omega]

@[simp] theorem highHalf_packHalves (h l : Half) : highHalf (packHalves h l) = h := by
  apply BitVec.eq_of_getLsbD_eq
  intro i hi
  simp only [highHalf, packHalves, BitVec.getLsbD_extractLsb', BitVec.getLsbD_append]
  simp [hi]

@[simp] theorem lowHalf_packHalves (h l : Half) : lowHalf (packHalves h l) = l := by
  apply BitVec.eq_of_getLsbD_eq
  intro i hi
  simp only [lowHalf, packHalves, BitVec.getLsbD_extractLsb', BitVec.getLsbD_append]
  simp [hi]

@[simp] theorem packHalves_halves (w : Word) : packHalves (highHalf w) (lowHalf w) = w := by
  apply BitVec.eq_of_getLsbD_eq
  intro i hi
  simp only [highHalf, lowHalf, packHalves, BitVec.getLsbD_append, BitVec.getLsbD_extractLsb']
  split
  · simp [*]
  · have : i - 16 < 16 := by omega
    simp [this, show 16 + (i - 16) = i by omega]

/-! ## Readers -/

@[simp] theorem takeByte_cons (b : Byte) (rest : List Byte) : takeByte (b :: rest) = .ok (b, rest) := rfl

@[simp] theorem takeWord_beBytes32 (v : Word) (rest : List Byte) : takeWord (beBytes32 v ++ rest) = .ok (v, rest) := by
  simp [beBytes32, takeWord]

theorem takeNat_encodeNatDigits (fuel n : Nat) (rest : List Byte) (h : n ≤ fuel) :
    takeNat (encodeNatDigits fuel n ++ rest) = .ok (n, rest) := by
  induction fuel generalizing n with
  | zero =>
    obtain rfl : n = 0 := by omega
    rfl
  | succ fuel ih =>
    rw [encodeNatDigits]
    split
    · rename_i hn
      have : (BitVec.ofNat 8 n).toNat = n := by simp; omega
      simp [takeNat, this, hn]
    · rename_i hn
      have hb : (BitVec.ofNat 8 (128 + n % 128)).toNat = 128 + n % 128 := by simp; omega
      rw [List.cons_append, takeNat, if_neg (by omega), ih (n / 128) (by omega)]
      simp only [hb]
      congr 2
      omega

@[simp] theorem takeNat_encodeNat (n : Nat) (rest : List Byte) : takeNat (encodeNat n ++ rest) = .ok (n, rest) :=
  takeNat_encodeNatDigits n n rest (Nat.le_refl n)

@[simp] theorem takeInt_encodeInt (z : Int) (rest : List Byte) : takeInt (encodeInt z ++ rest) = .ok (z, rest) := by
  cases z <;> simp [takeInt, encodeInt, bind, Except.bind]

@[simp] theorem takeOpRef_encodeOpRef (r : OpRef) (rest : List Byte) :
    takeOpRef (encodeOpRef r ++ rest) = .ok (r, rest) := by
  cases r with
  | none => rfl
  | some c =>
    have h : ∀ c : BitVec 4, c.setWidth 8 ≠ 0x80#8 ∧ (c.setWidth 8).toNat < 16 ∧ (c.setWidth 8).setWidth 4 = c := by decide
    obtain ⟨h1, h2, h3⟩ := h c
    simp only [takeOpRef, encodeOpRef, List.cons_append, takeByte_cons, bind, Except.bind, if_neg h1, if_pos h2, h3]
    rfl

@[simp] theorem takeInputCode_encodeInputCode (c : BitVec 2) (rest : List Byte) :
    takeInputCode (encodeInputCode c ++ rest) = .ok (c, rest) := by
  have h : ∀ c : BitVec 2, (c.setWidth 8).toNat < 4 ∧ (c.setWidth 8).setWidth 2 = c := by decide
  obtain ⟨h1, h2⟩ := h c
  simp only [takeInputCode, encodeInputCode, List.cons_append, takeByte_cons, bind, Except.bind, if_pos h1, h2]
  rfl

theorem takeMany_flatMap {α : Type} {take : List Byte → Except DecodeError (α × List Byte)} {enc : α → List Byte}
    (h : ∀ x rest, take (enc x ++ rest) = .ok (x, rest)) (xs : List α) (rest : List Byte) :
    takeMany take xs.length (xs.flatMap enc ++ rest) = .ok (xs, rest) := by
  induction xs with
  | nil => rfl
  | cons x xs ih =>
    simp only [List.length_cons, List.flatMap_cons, List.append_assoc, takeMany, h, bind, Except.bind, ih]

@[simp] theorem vectorOfList_toList {α : Type} {n : Nat} (fill : α) (v : Vector α n) :
    vectorOfList n fill v.toList = v := by
  ext i hi
  simp [vectorOfList]

theorem takeMany_vector {α : Type} {take : List Byte → Except DecodeError (α × List Byte)} {enc : α → List Byte}
    (h : ∀ x rest, take (enc x ++ rest) = .ok (x, rest)) {n : Nat} (v : Vector α n) (rest : List Byte) :
    takeMany take n (v.toList.flatMap enc ++ rest) = .ok (v.toList, rest) := by
  have := takeMany_flatMap h v.toList rest
  rwa [Vector.length_toList] at this

@[simp] theorem takeSum_encodeSum (sum : Option SumArg) (rest : List Byte) :
    takeSum (encodeSum sum ++ rest) = .ok (sum, rest) := by
  cases sum with
  | none => rfl
  | some a =>
    simp only [encodeSum, List.cons_append, List.append_assoc, takeSum, takeByte_cons, bind, Except.bind,
      takeMany_vector takeOpRef_encodeOpRef, takeMany_vector takeInputCode_encodeInputCode, takeOpRef_encodeOpRef,
      vectorOfList_toList]
    rfl

@[simp] theorem takeThreshold_encodeThreshold (t : Threshold) (rest : List Byte) :
    takeThreshold (encodeThreshold t ++ rest) = .ok (t, rest) := by
  have h : (((t.extractLsb' 32 4).setWidth 8).setWidth 4 ++ t.extractLsb' 0 32 : BitVec 36) = t := by
    apply BitVec.eq_of_getLsbD_eq
    intro i hi
    simp only [BitVec.getLsbD_append, BitVec.getLsbD_extractLsb', BitVec.getLsbD_setWidth]
    split
    · simp [*]
    · have h1 : i - 32 < 4 := by omega
      have h2 : i - 32 < 8 := by omega
      simp [h1, h2, show 32 + (i - 32) = i by omega]
  simp only [takeThreshold, encodeThreshold, List.cons_append, takeByte_cons, bind, Except.bind, takeWord_beBytes32, h]

@[simp] theorem takeLevel_encodeLevel (l : TreeLevel) (rest : List Byte) :
    takeLevel (encodeLevel l :: rest) = .ok (l, rest) := by cases l <;> rfl

@[simp] theorem takeRole_encodeRole (r : Role) (rest : List Byte) : takeRole (encodeRole r :: rest) = .ok (r, rest) := by
  cases r <;> rfl

end Sys2Proof.Laws
end

