-- ==== Sys2Proof/Laws/Consumer.lean ====
section
/-! SUPPORT. The consumer over whole frames: at a frame boundary the five bytes of a frame are exactly its command, and a
list of frames is its commands one after another (R50, R72, R73). -/

namespace Sys2Proof.Laws
open Sys2Proof Sys2Proof.Machine

@[simp] theorem onCmd_frag (d : Dev) (c : Cmd) : (d.onCmd c).frag = d.frag := by cases c <;> simp [Dev.onCmd]
@[simp] theorem onCmd_stopped (d : Dev) (c : Cmd) : (d.onCmd c).stopped = d.stopped := by cases c <;> simp [Dev.onCmd]

theorem feedAll_frame (d : Dev) (c : Cmd) (h : d.aligned) : d.feedAll c.frame = d.onCmd c := by
  obtain ⟨sel, run, img, undef, frag, stopped⟩ := d
  obtain ⟨rfl, rfl⟩ : stopped = false ∧ frag = [] := h
  cases c with
  | sel a =>
    simp only [Cmd.frame, beBytes32, feedAll_cons, feedAll_nil]
    simp [Dev.feed, Dev.onFrame, Dev.onCmd]
  | chn w =>
    simp only [Cmd.frame, beBytes32, feedAll_cons, feedAll_nil]
    simp [Dev.feed, Dev.onFrame, Dev.onCmd, selectOpcode, chainOpcode]

theorem onCmd_aligned {d : Dev} (c : Cmd) (h : d.aligned) : (d.onCmd c).aligned :=
  ⟨(onCmd_stopped d c).trans h.1, (onCmd_frag d c).trans h.2⟩

theorem feedAll_framesOf (d : Dev) (cs : List Cmd) (h : d.aligned) : d.feedAll (framesOf cs) = cs.foldl Dev.onCmd d := by
  induction cs generalizing d with
  | nil => rfl
  | cons c cs ih =>
    rw [framesOf_cons, feedAll_append, feedAll_frame d c h, ih (d.onCmd c) (onCmd_aligned c h), List.foldl_cons]

theorem foldl_onCmd_aligned {d : Dev} (cs : List Cmd) (h : d.aligned) : (cs.foldl Dev.onCmd d).aligned := by
  induction cs generalizing d with
  | nil => exact h
  | cons c cs ih => exact ih (onCmd_aligned c h)

end Sys2Proof.Laws
end

