-- ==== Sys2Proof/Laws/Operands.lean ====
section
/-! SUPPORT. What the operand checks accept: the ranges of R232, with the value the register then takes. -/

namespace Sys2Proof.Laws
open Sys2Proof Sys2Proof.Machine

theorem checkIndex_of_range {n : Nat} {z : Int} (h : 0 ≤ z ∧ z < n) :
    checkIndex n z = some ⟨z.toNat, by omega⟩ := by simp only [checkIndex, dif_pos h]

theorem checkIndex_none {n : Nat} {z : Int} (h : ¬(0 ≤ z ∧ z < n)) : checkIndex n z = none := by
  simp only [checkIndex, dif_neg h]

/-- A register index presented as an integer is that index. -/
@[simp] theorem checkIndex_val {n : Nat} (k : Fin n) : checkIndex n (k.val : Int) = some k := by
  rw [checkIndex_of_range ⟨by omega, by have := k.isLt; omega⟩]
  rfl

theorem checkIndex_eq_some {n : Nat} {z : Int} {k : Fin n} : checkIndex n z = some k ↔ z = (k.val : Int) := by
  refine ⟨fun h => ?_, fun h => by rw [h, checkIndex_val]⟩
  unfold checkIndex at h
  split at h
  · rename_i hz
    rw [← Option.some.inj h]
    simp only
    omega
  · cases h

theorem checkIndex_eq_none {n : Nat} {z : Int} : checkIndex n z = none ↔ ¬(0 ≤ z ∧ z < n) := by
  refine ⟨fun h hz => ?_, checkIndex_none⟩
  rw [checkIndex_of_range hz] at h
  cases h

theorem ofCode_isSome (c : BitVec 4) : (Operation.ofCode c).isSome = true ↔ c.toNat < 10 := by
  revert c; decide

theorem ofRef_isSome (r : OpRef) : (Operation.ofRef r).isSome = true ↔ opRefInRange r := by
  cases r with
  | none => simp [Operation.ofRef, opRefInRange]
  | some c => simp [Operation.ofRef, opRefInRange, ofCode_isSome]

theorem ofRef_eq_none (r : OpRef) : Operation.ofRef r = none ↔ ¬opRefInRange r := by
  rw [← ofRef_isSome]; cases Operation.ofRef r <;> simp

theorem inputOfCode_isSome (c : BitVec 2) : (InputState.ofCode c).isSome = true ↔ c ≠ 3#2 := by
  revert c; decide

theorem valid_iff (a : SumArg) : validArg a = true ↔
    (∀ r ∈ a.pair.toList, opRefInRange r) ∧ (∀ r ∈ a.mid.toList, opRefInRange r) ∧ opRefInRange a.final
      ∧ ∀ c ∈ a.leafIn.toList, c ≠ 3#2 := by
  simp only [validArg, Bool.and_eq_true, List.all_eq_true, ofRef_isSome, inputOfCode_isSome, and_assoc]

theorem checkSum_of_valid {a : SumArg} (h : validArg a = true) : checkSum (some a) = some (cfgOf a) := by
  simp only [checkSum, h, if_true]

theorem checkSum_isSome (sum : Option SumArg) : (checkSum sum).isSome = true ↔ sumInRange sum := by
  cases sum with
  | none => simp [checkSum, sumInRange]
  | some a =>
    have : (checkSum (some a)).isSome = validArg a := by simp only [checkSum]; cases validArg a <;> rfl
    simp only [this, valid_iff, sumInRange, Option.some.injEq, exists_eq_left']

theorem checkSum_eq_none (sum : Option SumArg) : checkSum sum = none ↔ ¬sumInRange sum := by
  rw [← checkSum_isSome]; cases checkSum sum <;> simp

end Sys2Proof.Laws
end

