-- ==== Sys2Proof/Laws/Exec.lean ====
section
/-! SUPPORT. Everything an instruction can do, once: `exec_cases`, and everything a step can do: `step_cases`. Claims about
how commands end cite them and do not unfold the meanings. -/

namespace Sys2Proof.Laws
open Sys2Proof Sys2Proof.Machine

theorem checkIndex_le {n : Nat} {z : Int} (h : 0 ≤ z ∧ z ≤ (n : Int)) : ∃ k, checkIndex (n + 1) z = some k :=
  ⟨_, checkIndex_of_range ⟨h.1, by omega⟩⟩

theorem checkIndex_not_le {n : Nat} {z : Int} (h : ¬(0 ≤ z ∧ z ≤ (n : Int))) : checkIndex (n + 1) z = none :=
  checkIndex_none (by omega)

/-- Everything an instruction can do: with its operands in range it runs the emission of its list, or (emitting nothing) ends
OK and leaves the device, the sink and the inputs alone, and OUT too unless it is RESET, which empties it; otherwise it
answers InvalidArgument. -/
theorem exec_cases (i : Instr) (s : State) :
    (operandsInRange i ∧ emission i s ≠ [] ∧ exec i s = runEmission (emission i s) s)
    ∨ (operandsInRange i ∧ emission i s = [] ∧ ∃ t, exec i s = .next t ∧ t.reply.map Reply.status = some .ok
        ∧ t.dev = s.dev ∧ t.sink = s.sink ∧ t.sinkCalls = s.sinkCalls ∧ (i ≠ .reset → t.out = s.out) ∧ (i = .reset → t.out = [])
        ∧ t.params = s.params ∧ t.port = s.port ∧ t.inner = s.inner)
    ∨ (¬operandsInRange i ∧ emission i s = [] ∧ exec i s = runInvalid s) := by
  cases i
  case forState n =>
    by_cases h : 0 ≤ n ∧ n ≤ 15
    · obtain ⟨k, hk⟩ := checkIndex_le (n := 15) h
      refine .inr (.inl ⟨h, rfl, ?_⟩)
      simp only [exec, execForState, checkState, hk, Option.map]
      exact ⟨_, rfl, rfl, rfl, rfl, rfl, fun _ => rfl, by simp, rfl, rfl, rfl⟩
    · exact .inr (.inr ⟨h, rfl, by simp only [exec, execForState, checkState, checkIndex_not_le (n := 15) h, Option.map]⟩)
  case occurs n =>
    by_cases h : 0 ≤ n ∧ n ≤ 1048575
    · obtain ⟨k, hk⟩ := checkIndex_le (n := 1048575) h
      refine .inr (.inl ⟨h, rfl, ?_⟩)
      simp only [exec, execOccurs, checkCount, hk, Option.map]
      exact ⟨_, rfl, rfl, rfl, rfl, rfl, fun _ => rfl, by simp, rfl, rfl, rfl⟩
    · exact .inr (.inr ⟨h, rfl, by simp only [exec, execOccurs, checkCount, checkIndex_not_le (n := 1048575) h, Option.map]⟩)
  case whileStoring x =>
    by_cases h : sumInRange x
    · cases hc : checkSum x with
      | none => exact absurd h ((checkSum_eq_none x).1 hc)
      | some c =>
        refine .inr (.inl ⟨h, rfl, ?_⟩)
        simp only [exec, execWhileStoring, hc]
        exact ⟨_, rfl, rfl, rfl, rfl, rfl, fun _ => rfl, by simp, rfl, rfl, rfl⟩
    · exact .inr (.inr ⟨h, rfl, by simp only [exec, execWhileStoring, (checkSum_eq_none x).2 h]⟩)
  case ifTarget x =>
    by_cases h : sumInRange x
    · cases hc : checkSum x with
      | none => exact absurd h ((checkSum_eq_none x).1 hc)
      | some c =>
        refine .inr (.inl ⟨h, rfl, ?_⟩)
        simp only [exec, execIfTarget, hc]
        exact ⟨_, rfl, rfl, rfl, rfl, rfl, fun _ => rfl, by simp, rfl, rfl, rfl⟩
    · exact .inr (.inr ⟨h, rfl, by simp only [exec, execIfTarget, (checkSum_eq_none x).2 h]⟩)
  case elseTarget x n =>
    by_cases hn : 0 ≤ n ∧ n ≤ 15
    · obtain ⟨k, hk⟩ := checkIndex_le (n := 15) hn
      by_cases h : sumInRange x
      · cases hc : checkSum x with
        | none => exact absurd h ((checkSum_eq_none x).1 hc)
        | some c =>
        refine .inr (.inl ⟨⟨h, hn⟩, rfl, ?_⟩)
        simp only [exec, execElseTarget, hc, checkState, hk, Option.map]
        exact ⟨_, rfl, rfl, rfl, rfl, rfl, fun _ => rfl, by simp, rfl, rfl, rfl⟩
      · exact .inr (.inr ⟨fun hh => h hh.1, rfl, by simp only [exec, execElseTarget, (checkSum_eq_none x).2 h]⟩)
    · refine .inr (.inr ⟨fun hh => hn hh.2, rfl, ?_⟩)
      have : checkState n = none := by simp only [checkState, checkIndex_not_le (n := 15) hn, Option.map]
      simp only [exec, execElseTarget, this]
      cases checkSum x <;> rfl
  case lut l op =>
    by_cases h : opRefInRange op
    · cases hc : Operation.ofRef op with
      | none => exact absurd h ((ofRef_eq_none op).1 hc)
      | some c =>
        refine .inr (.inl ⟨h, rfl, ?_⟩)
        simp only [exec, execLut, hc]
        exact ⟨_, rfl, rfl, rfl, rfl, rfl, fun _ => rfl, by simp, rfl, rfl, rfl⟩
    · exact .inr (.inr ⟨h, rfl, by simp only [exec, execLut, (ofRef_eq_none op).2 h]⟩)
  case isInv op =>
    by_cases h : opRefInRange op
    · cases hc : Operation.ofRef op with
      | none => exact absurd h ((ofRef_eq_none op).1 hc)
      | some c =>
        refine .inr (.inl ⟨h, rfl, ?_⟩)
        simp only [exec, execIsInv, hc]
        exact ⟨_, rfl, rfl, rfl, rfl, rfl, fun _ => rfl, by simp, rfl, rfl, rfl⟩
    · exact .inr (.inr ⟨h, rfl, by simp only [exec, execIsInv, (ofRef_eq_none op).2 h]⟩)
  case setPat k _ _ =>
    by_cases h : 0 ≤ k ∧ k ≤ 9
    · obtain ⟨j, hk⟩ := checkIndex_le (n := 9) h
      refine .inr (.inl ⟨h, rfl, ?_⟩)
      simp only [exec, execSetPat, hk]
      exact ⟨_, rfl, rfl, rfl, rfl, rfl, fun _ => rfl, by simp, rfl, rfl, rfl⟩
    · exact .inr (.inr ⟨h, rfl, by simp only [exec, execSetPat, checkIndex_not_le (n := 9) h]⟩)
  case setRng k _ _ _ =>
    by_cases h : 0 ≤ k ∧ k ≤ 1
    · obtain ⟨j, hk⟩ := checkIndex_le (n := 1) h
      refine .inr (.inl ⟨h, rfl, ?_⟩)
      simp only [exec, execSetRng, hk]
      exact ⟨_, rfl, rfl, rfl, rfl, rfl, fun _ => rfl, by simp, rfl, rfl, rfl⟩
    · exact .inr (.inr ⟨h, rfl, by simp only [exec, execSetRng, checkIndex_not_le (n := 1) h]⟩)
  case setEdg k _ _ _ =>
    by_cases h : 0 ≤ k ∧ k ≤ 1
    · obtain ⟨j, hk⟩ := checkIndex_le (n := 1) h
      refine .inr (.inl ⟨h, rfl, ?_⟩)
      simp only [exec, execSetEdg, hk]
      exact ⟨_, rfl, rfl, rfl, rfl, rfl, fun _ => rfl, by simp, rfl, rfl, rfl⟩
    · exact .inr (.inr ⟨h, rfl, by simp only [exec, execSetEdg, checkIndex_not_le (n := 1) h]⟩)
  case setTmr k _ =>
    by_cases h : 0 ≤ k ∧ k ≤ 1
    · obtain ⟨j, hk⟩ := checkIndex_le (n := 1) h
      refine .inr (.inl ⟨h, rfl, ?_⟩)
      simp only [exec, execSetTmr, hk]
      exact ⟨_, rfl, rfl, rfl, rfl, rfl, fun _ => rfl, by simp, rfl, rfl, rfl⟩
    · exact .inr (.inr ⟨h, rfl, by simp only [exec, execSetTmr, checkIndex_not_le (n := 1) h]⟩)
  case encPat k =>
    by_cases h : 0 ≤ k ∧ k ≤ 9
    · obtain ⟨j, hk⟩ := checkIndex_le (n := 9) h
      exact .inl ⟨h, by simp [emission, hk, patProgram, programOf], by simp only [exec, execEncPat, emission, hk]; rfl⟩
    · have := checkIndex_not_le (n := 9) h; exact .inr (.inr ⟨h, by simp [emission, this], by simp only [exec, execEncPat, this]⟩)
  case encRng k =>
    by_cases h : 0 ≤ k ∧ k ≤ 1
    · obtain ⟨j, hk⟩ := checkIndex_le (n := 1) h
      exact .inl ⟨h, by simp [emission, hk, rngProgram, programOf], by simp only [exec, execEncRng, emission, hk]; rfl⟩
    · have := checkIndex_not_le (n := 1) h; exact .inr (.inr ⟨h, by simp [emission, this], by simp only [exec, execEncRng, this]⟩)
  case encEdg k =>
    by_cases h : 0 ≤ k ∧ k ≤ 1
    · obtain ⟨j, hk⟩ := checkIndex_le (n := 1) h
      exact .inl ⟨h, by simp [emission, hk, edgProgram, programOf], by simp only [exec, execEncEdg, emission, hk]; rfl⟩
    · have := checkIndex_not_le (n := 1) h; exact .inr (.inr ⟨h, by simp [emission, this], by simp only [exec, execEncEdg, this]⟩)
  case encTmr k =>
    by_cases h : 0 ≤ k ∧ k ≤ 1
    · obtain ⟨j, hk⟩ := checkIndex_le (n := 1) h
      exact .inl ⟨h, by simp [emission, hk, tmrProgram, programOf], by simp only [exec, execEncTmr, emission, hk]; rfl⟩
    · have := checkIndex_not_le (n := 1) h; exact .inr (.inr ⟨h, by simp [emission, this], by simp only [exec, execEncTmr, this]⟩)
  case encSum r => exact .inl ⟨trivial, by simp [emission, sumProgram, programOf], rfl⟩
  case encState => exact .inl ⟨trivial, by simp [emission, stateProgram, programOf], rfl⟩
  case reset => exact .inr (.inl ⟨trivial, rfl, _, rfl, rfl, rfl, rfl, rfl, fun h => absurd rfl h, fun _ => rfl, rfl, rfl, rfl⟩)
  all_goals first
    | exact .inr (.inl ⟨trivial, rfl, _, rfl, rfl, rfl, rfl, rfl, fun _ => rfl, by simp, rfl, rfl, rfl⟩)
    | exact .inl ⟨trivial, List.cons_ne_nil _ _, rfl⟩

/-- No instruction touches the parameters or what waits to be run. -/
theorem exec_inputs {i : Instr} {s t : State} (h : exec i s = .next t) :
    t.params = s.params ∧ t.port = s.port ∧ t.inner = s.inner := by
  rcases exec_cases i s with ⟨-, -, e⟩ | ⟨-, -, t', e, -, -, -, -, -, -, h1, h2, h3⟩ | ⟨-, -, e⟩ <;> rw [e] at h
  · rcases runEmission_cases (emission i s) s with ⟨-, e'⟩ | ⟨n, tk, -, -, -, e'⟩ <;> rw [e'] at h <;> cases h <;> simp
  · cases h; exact ⟨h1, h2, h3⟩
  · cases h; simp

/-- Everything a step to a next state can do: wait; run the internal packet; run the host command presented first, or answer
one that no row reads. An internal packet is gone after any step. -/
theorem step_cases {s t : State} (h : step s = .next t) :
    (s.inner = none ∧ s.port = [] ∧ t = s)
    ∨ (∃ p i, s.inner = some p ∧ decode p.lane p.bytes = .ok i ∧ exec i { s with inner := none } = .next t)
    ∨ (∃ p, s.inner = some p ∧ p.lane = .command ∧ t = raiseInvalidArgument { s with inner := none })
    ∨ (∃ bytes rest i, s.inner = none ∧ s.port = bytes :: rest ∧ decode .command bytes = .ok i
        ∧ exec i { s with port := rest } = .next t)
    ∨ (∃ bytes rest, s.inner = none ∧ s.port = bytes :: rest ∧ t = raiseInvalidArgument { s with port := rest }) := by
  unfold step State.fetch at h
  cases hi : s.inner with
  | some p =>
    simp only [hi] at h
    split at h
    · rename_i i hd; exact .inr (.inl ⟨p, i, rfl, hd, h⟩)
    · cases hl : p.lane <;> simp only [hl, rejectPacket, reduceCtorEq] at h
      cases h; exact .inr (.inr (.inl ⟨p, rfl, hl, rfl⟩))
  | none =>
    cases hp : s.port with
    | nil => simp only [hi, hp] at h; cases h; exact .inl ⟨rfl, rfl, rfl⟩
    | cons bytes rest =>
      simp only [hi, hp] at h
      split at h
      · rename_i i hd; exact .inr (.inr (.inr (.inl ⟨bytes, rest, i, rfl, rfl, hd, h⟩)))
      · cases h; exact .inr (.inr (.inr (.inr ⟨bytes, rest, rfl, rfl, rfl⟩)))

end Sys2Proof.Laws
end

