-- ==== Sys2Proof/Laws/Compilers.lean ====
section
/-! SUPPORT. The compilers' words: a table bit by bit, a packed walk read back, the lengths of the programs, halves as numbers,
the control word bit by bit. -/

namespace Sys2Proof.Laws
open Sys2Proof Sys2Proof.Machine

/-- Bit `i` of a table is its entry `i`. -/
theorem tableOf_getLsbD (e : BitVec 4 → Bool) (i : Nat) (h : i < 16) : (tableOf e).getLsbD i = e (BitVec.ofNat 4 i) := by
  simp [tableOf, h]; congr 1; apply BitVec.eq_of_toNat_eq; simp; omega

theorem length_rngWalk (m) : ∀ n t, (rngWalk m n t).length = n := by
  intro n; induction n with
  | zero => intro t; rfl
  | succ n ih => intro t; simp only [rngWalk]; split <;> simp [ih]

theorem length_packWalk (o) : ∀ n (l : List Half), l.length = 2 * n → (packWalk o l).length = n := by
  intro n; induction n with
  | zero => intro l h; simp at h; subst h; rfl
  | succ n ih =>
    intro l h
    match l, h with
    | a :: b :: l, h => simp at h; simp [packWalk]; exact ih l (by omega)

/-- Reading a packed walk back: the table of position `p` of a walk of `2*m` positions. -/
theorem walkedTable_packWalk (o : HalfOrder) : ∀ (m : Nat) (l : List Half), l.length = 2 * m → ∀ p < 2 * m,
    walkedTable o (2 * m) (packWalk o l) p = l.getD (2 * m - 1 - p) 0#16 := by
  intro m; induction m with
  | zero => intro l h p hp; omega
  | succ m ih =>
    intro l h p hp
    match l, h with
    | a :: b :: l, h =>
      simp at h
      have hl : l.length = 2 * m := by omega
      rcases (by omega : p = 2*m+1 ∨ p = 2*m ∨ p < 2*m) with e | e | e
      · subst e; cases o <;> simp [walkedTable, packWalk, packWalked, Nat.add_mod, show 2 * (m+1) - 1 - (2*m+1) = 0 by omega]
      · subst e; cases o <;> simp [walkedTable, packWalk, packWalked, show 2 * (m+1) - 1 - (2*m) = 1 by omega]
      · have := ih l hl p e
        rw [show 2*(m+1) - 1 - p = (2*m - 1 - p) + 2 by omega]
        simp only [packWalk, List.getD_cons_succ]
        rw [← this]
        simp only [walkedTable, show 2*(m+1) - 1 - p = (2*m - 1 - p) + 2 by omega, Nat.add_div_right _ (by decide : 0 < 2),
          List.getD_cons_succ]

@[simp] theorem length_rngWords (o : HalfOrder) (t m : Word) : (rngWords o t m).length = 16 :=
  length_packWalk o 16 _ (length_rngWalk m 32 _)

@[simp] theorem length_edgWords (o : HalfOrder) (t : EdgTerm) : (edgWords o t).length = 8 := length_packWalk o 8 _ rfl

@[simp] theorem length_sumWords (p : Params) (c : SumCfg) : (sumWords p c).length = p.sumOrder.length := by simp [sumWords]

/-- Two halves side by side as a number. -/
theorem packHalves_eq_ofNat (h l : Half) : packHalves h l = BitVec.ofNat 32 (65536 * h.toNat + l.toNat) := by
  apply BitVec.eq_of_toNat_eq
  have h1 := h.isLt; have h2 := l.isLt
  have : (packHalves h l).toNat = h.toNat * 2^16 ||| l.toNat := by
    rw [← Nat.shiftLeft_eq]; exact BitVec.toNat_append ..
  rw [this, ← Nat.shiftLeft_eq h.toNat 16, ← Nat.shiftLeft_add_eq_or_of_lt (by omega)]; simp [Nat.shiftLeft_eq]; omega

/-- The control word bit by bit (R160). -/
theorem ctrl_getLsbD (v : Level) (i : Nat) (hi : i < 32) : (ctrl v).getLsbD i =
    if i < 20 then v.count.getLsbD i else if i < 24 then v.elseState.getLsbD (i - 20)
    else if i = 24 then v.stop1 else if i = 25 then v.stop2 else if i = 26 then v.clear1 else if i = 27 then v.clear2
    else if i = 28 then v.start1 else if i = 29 then v.start2 else if i = 30 then v.raise else v.last := by
  simp only [ctrl, ctrlWord, flagAt, BitVec.getLsbD_or, BitVec.getLsbD_shiftLeft, BitVec.getLsbD_setWidth,
    BitVec.getLsbD_ofBool]
  interval_cases i <;> simp

end Sys2Proof.Laws
end

