-- ==== Sys2Proof/Laws/PerInstr.lean ====
section
/-! SUPPORT. What is said of every instruction as syntax, one lemma per constructor. -/

namespace Sys2Proof.Laws

/-- The shape of an instruction's bytes: a frame has five (R71, R87), an address or a data word four (R43), and a host
command begins with its number, below 0x40 (R90). -/
def EncodedShape.Statement (i : Instr) : Prop :=
  match laneOf i with
  | .frame => (encode i).length = 5
  | .address | .data _ => (encode i).length = 4
  | .command => ∃ n rest, encode i = n :: rest ∧ n.toNat < 0x40

theorem EncodedShape.select (a : Word) : EncodedShape.Statement (.select a) := rfl
theorem EncodedShape.chain (d : Word) : EncodedShape.Statement (.chain d) := rfl
theorem EncodedShape.addrFsmDesc (s : BitVec 4) : EncodedShape.Statement (.addrFsmDesc s) := rfl
theorem EncodedShape.addrPattern (k : BitVec 4) : EncodedShape.Statement (.addrPattern k) := rfl
theorem EncodedShape.addrRange (r b : BitVec 1) : EncodedShape.Statement (.addrRange r b) := rfl
theorem EncodedShape.addrEdge (e : BitVec 1) : EncodedShape.Statement (.addrEdge e) := rfl
theorem EncodedShape.addrTimer (t h : BitVec 1) : EncodedShape.Statement (.addrTimer t h) := rfl
theorem EncodedShape.addrSum (s : BitVec 4) (r : BitVec 2) : EncodedShape.Statement (.addrSum s r) := rfl
theorem EncodedShape.wordPatw (h l : Half) : EncodedShape.Statement (.wordPatw h l) := rfl
theorem EncodedShape.wordRngw (f g : Half) : EncodedShape.Statement (.wordRngw f g) := rfl
theorem EncodedShape.wordEdgw (f g : Half) : EncodedShape.Statement (.wordEdgw f g) := rfl
theorem EncodedShape.wordTmrlo (t : Word) : EncodedShape.Statement (.wordTmrlo t) := rfl
theorem EncodedShape.wordTmrhi (t : BitVec 4) : EncodedShape.Statement (.wordTmrhi t) := rfl
theorem EncodedShape.wordSumf (f : Half) : EncodedShape.Statement (.wordSumf f) := rfl
theorem EncodedShape.wordSumm (b a : Half) : EncodedShape.Statement (.wordSumm b a) := rfl
theorem EncodedShape.wordSump (o e : Half) : EncodedShape.Statement (.wordSump o e) := rfl
theorem EncodedShape.wordCtrl (last raise start2 start1 clear2 clear1 stop2 stop1 : Bool) (elseState : BitVec 4) (count : BitVec 20)
    : EncodedShape.Statement (.wordCtrl last raise start2 start1 clear2 clear1 stop2 stop1 elseState count) := rfl
theorem EncodedShape.reset : EncodedShape.Statement .reset := ⟨_, _, rfl, by decide⟩
theorem EncodedShape.lut (level : TreeLevel) (op : OpRef) : EncodedShape.Statement (.lut level op) := ⟨_, _, rfl, by decide⟩
theorem EncodedShape.isInv (op : OpRef) : EncodedShape.Statement (.isInv op) := ⟨_, _, rfl, by decide⟩
theorem EncodedShape.setPat (k : Int) (value mask : Word)
    : EncodedShape.Statement (.setPat k value mask) := ⟨_, _, rfl, by decide⟩
theorem EncodedShape.setRng (r : Int) (lower upper mask : Word)
    : EncodedShape.Statement (.setRng r lower upper mask) := ⟨_, _, rfl, by decide⟩
theorem EncodedShape.setEdg (e : Int) (rising falling neither : Word)
    : EncodedShape.Statement (.setEdg e rising falling neither) := ⟨_, _, rfl, by decide⟩
theorem EncodedShape.setTmr (t : Int) (threshold : Threshold)
    : EncodedShape.Statement (.setTmr t threshold) := ⟨_, _, rfl, by decide⟩
theorem EncodedShape.encPat (k : Int) : EncodedShape.Statement (.encPat k) := ⟨_, _, rfl, by decide⟩
theorem EncodedShape.encRng (r : Int) : EncodedShape.Statement (.encRng r) := ⟨_, _, rfl, by decide⟩
theorem EncodedShape.encEdg (e : Int) : EncodedShape.Statement (.encEdg e) := ⟨_, _, rfl, by decide⟩
theorem EncodedShape.encTmr (t : Int) : EncodedShape.Statement (.encTmr t) := ⟨_, _, rfl, by decide⟩
theorem EncodedShape.encSum (role : Role) : EncodedShape.Statement (.encSum role) := ⟨_, _, rfl, by decide⟩
theorem EncodedShape.encState : EncodedShape.Statement .encState := ⟨_, _, rfl, by decide⟩
theorem EncodedShape.forState (n : Int) : EncodedShape.Statement (.forState n) := ⟨_, _, rfl, by decide⟩
theorem EncodedShape.whileStoring (sum : Option SumArg)
    : EncodedShape.Statement (.whileStoring sum) := ⟨_, _, rfl, by decide⟩
theorem EncodedShape.ifTarget (sum : Option SumArg) : EncodedShape.Statement (.ifTarget sum) := ⟨_, _, rfl, by decide⟩
theorem EncodedShape.occurs (count : Int) : EncodedShape.Statement (.occurs count) := ⟨_, _, rfl, by decide⟩
theorem EncodedShape.elseTarget (sum : Option SumArg) (n : Int)
    : EncodedShape.Statement (.elseTarget sum n) := ⟨_, _, rfl, by decide⟩
theorem EncodedShape.lastState : EncodedShape.Statement .lastState := ⟨_, _, rfl, by decide⟩
theorem EncodedShape.continueToNextState : EncodedShape.Statement .continueToNextState := ⟨_, _, rfl, by decide⟩
theorem EncodedShape.onHitRaiseTrigger : EncodedShape.Statement .onHitRaiseTrigger := ⟨_, _, rfl, by decide⟩
theorem EncodedShape.onHitStartTimer1 : EncodedShape.Statement .onHitStartTimer1 := ⟨_, _, rfl, by decide⟩
theorem EncodedShape.onHitStartTimer2 : EncodedShape.Statement .onHitStartTimer2 := ⟨_, _, rfl, by decide⟩
theorem EncodedShape.onHitStopTimer1 : EncodedShape.Statement .onHitStopTimer1 := ⟨_, _, rfl, by decide⟩
theorem EncodedShape.onHitStopTimer2 : EncodedShape.Statement .onHitStopTimer2 := ⟨_, _, rfl, by decide⟩
theorem EncodedShape.onHitClearTimer1 : EncodedShape.Statement .onHitClearTimer1 := ⟨_, _, rfl, by decide⟩
theorem EncodedShape.onHitClearTimer2 : EncodedShape.Statement .onHitClearTimer2 := ⟨_, _, rfl, by decide⟩
theorem EncodedShape.build : EncodedShape.Statement .build := ⟨_, _, rfl, by decide⟩

end Sys2Proof.Laws
end

