-- ==== Sys2Proof/Laws/Programs.lean ====
section
/-! SUPPORT. What whole programs do to the consumer's image, and that every operation of the consumer keeps it well formed. -/

namespace Sys2Proof.Laws
open Sys2Proof Sys2Proof.Machine

theorem programLength_pos {a n} (h : programLength a = some n) : 0 < n := by
  unfold programLength at h
  repeat' split at h
  all_goals simp at h
  all_goals omega

/-- What a SELECT does to the content of one address: nothing, or a program cut short is void. -/
theorem read_onSelect (d : Dev) (a : Word) (b : Nat) :
    (d.onSelect a).img.read b = d.img.read b
    ∨ ((d.onSelect a).img.read b = none ∧ ∃ old n, d.sel = some old ∧ old.toNat = b ∧ programLength b = some n
        ∧ 0 < d.run.length ∧ d.run.length < n) := by
  rw [onSelect_img]
  rcases dropShort_cases d with h | ⟨o, n, h1, h2, h3, h4, h⟩
  · rw [h]; exact .inl rfl
  · rw [h]; simp only [read_erase]
    split
    · rename_i e; subst e
      exact .inr ⟨rfl, o, n, h1, rfl, h2, List.length_pos_of_ne_nil h3, h4⟩
    · exact .inl rfl

/-- Chaining words into a selected mapped chain, never beyond its length: complete at exactly its length. -/
theorem foldl_chain_within {a : Word} {n : Nat} (hn : programLength a.toNat = some n) :
    ∀ (ws : List Word) (d : Dev), d.sel = some a → (d.run ++ ws).length ≤ n →
      let e := (ws.map Cmd.chn).foldl Dev.onCmd d
      e.sel = some a ∧ e.run = d.run ++ ws ∧ (d.undef = false → e.undef = false)
      ∧ ((ws ≠ [] ∧ (d.run ++ ws).length = n →
            ∀ b, e.img.read b = if a.toNat = b then some (d.run ++ ws) else d.img.read b)
          ∧ ((d.run ++ ws).length < n → e.img = d.img)) := by
  intro ws
  induction ws with
  | nil => intro d hs hl; simp [hs]
  | cons w ws ih =>
    intro d hs hl
    simp only [List.map_cons, List.foldl_cons]
    have hl' : (d.run ++ [w] ++ ws).length ≤ n := by simpa using hl
    have hle : d.run.length + 1 + ws.length ≤ n := by simp at hl; omega
    rcases onChain_cases d w with ⟨h, -⟩ | ⟨a', h1, h2, -⟩ | ⟨a', h1, h2, h⟩ | ⟨a', m, h1, h2, h3, h⟩ | ⟨a', m, h1, h2, h3, h⟩
    · rw [hs] at h; cases h
    · rw [hs] at h1; cases h1; rw [hn] at h2; cases h2
    · rw [hs] at h1; cases h1; rw [hn] at h2; cases h2
      have : ws = [] := by cases ws with
        | nil => rfl
        | cons x xs => simp at hle
      subst this
      simp only [List.map_nil, List.foldl_nil, Dev.onCmd, h]
      refine ⟨by simp [hs], by simp, fun hu => ?_, ⟨fun _ b => ?_, fun hh => by simp at hh⟩⟩
      · rw [refresh_undef_of_not]; exact hu; exact hu
      · simp [read_write]
    · rw [hs] at h1; cases h1; rw [hn] at h2; cases h2; omega
    · rw [hs] at h1; cases h1; rw [hn] at h2; cases h2
      have hsel : (d.onChain w).sel = some a := by simp [hs]
      have hr : (d.onChain w).run = d.run ++ [w] := by rw [h]
      have hi : (d.onChain w).img = d.img := by rw [h]
      have hu : (d.onChain w).undef = d.undef := by rw [h]
      have := ih (d.onChain w) hsel (by rw [hr]; exact hl')
      simp only [Dev.onCmd]
      simp only at this
      rw [hr, hi, hu] at this
      obtain ⟨t1, t2, t3, t4, t5⟩ := this
      refine ⟨t1, by rw [t2]; simp, t3, fun ⟨_, hh⟩ b => ?_, fun hh => t5 (by simpa using hh)⟩
      have hne : ws ≠ [] := by rintro rfl; simp at hh; omega
      have := t4 ⟨hne, by simpa using hh⟩ b
      simpa using this

/-- A complete program: its address is defined, every other reads as after the SELECT alone. -/
theorem foldl_program (d : Dev) (a : Word) (ws : List Word) (hn : programLength a.toNat = some ws.length) :
    let e := (programOf a ws).foldl Dev.onCmd d
    e.sel = some a ∧ e.run = ws ∧ (d.undef = false → e.undef = false)
    ∧ (∀ b, e.img.read b = if a.toNat = b then some ws else (d.onSelect a).img.read b) := by
  have hp := programLength_pos hn
  have := foldl_chain_within hn ws (d.onSelect a) rfl (by simp)
  simp only [onSelect_run, List.nil_append] at this
  obtain ⟨t1, t2, t3, t4, -⟩ := this
  refine ⟨t1, t2, fun hu => t3 (by simpa using hu), t4 ⟨by rintro rfl; simp at hp, trivial⟩⟩

/-! ## Several programs, one after another -/

/-- Every program of the list is complete: its address is mapped and it has as many words as the map gives (R46, R47). -/
abbrev CompletePrograms (ps : List (Word × List Word)) : Prop := ∀ q ∈ ps, programLength q.1.toNat = some q.2.length

/-- The wire commands of a list of programs. -/
abbrev cmdsOf (ps : List (Word × List Word)) : List Cmd := ps.flatMap fun q => programOf q.1 q.2

/-- The chain selected last has had exactly its words: the next SELECT cuts nothing short. -/
def runComplete (d : Dev) : Prop := ∃ a, d.sel = some a ∧ programLength a.toNat = some d.run.length

theorem read_onSelect_of_runComplete {d : Dev} (h : runComplete d) (a : Word) (b : Nat) :
    (d.onSelect a).img.read b = d.img.read b := by
  obtain ⟨o, ho, hn⟩ := h
  rcases read_onSelect d a b with h | ⟨-, old, n, h1, rfl, h2, -, h3⟩
  · exact h
  · rw [ho] at h1; cases h1; rw [hn] at h2; cases h2; omega

theorem runComplete_program (d : Dev) {a : Word} {ws : List Word} (hn : programLength a.toNat = some ws.length) :
    runComplete ((programOf a ws).foldl Dev.onCmd d) := by
  obtain ⟨h1, h2, -, -⟩ := foldl_program d a ws hn
  exact ⟨a, h1, by rw [h2, hn]⟩

/-- From where nothing is cut short, complete programs leave every chain they do not select as it was. -/
theorem read_programs_frame {ps : List (Word × List Word)} (h : CompletePrograms ps) {b : Nat} (hb : ∀ q ∈ ps, q.1.toNat ≠ b)
    {d : Dev} (hd : runComplete d) : ((cmdsOf ps).foldl Dev.onCmd d).img.read b = d.img.read b := by
  induction ps generalizing d with
  | nil => rfl
  | cons q ps ih =>
    have hq := h q (by simp)
    simp only [cmdsOf, List.flatMap_cons, List.foldl_append]
    rw [ih (fun r hr => h r (by simp [hr])) (fun r hr => hb r (by simp [hr])) (runComplete_program d hq),
      (foldl_program d q.1 q.2 hq).2.2.2, if_neg (hb q (by simp)), read_onSelect_of_runComplete hd]

/-- What complete programs leave in the chains they select does not depend on what was there. -/
theorem read_programs_congr {ps : List (Word × List Word)} (h : CompletePrograms ps) {b : Nat} (hb : ∃ q ∈ ps, q.1.toNat = b)
    (d d' : Dev) : ((cmdsOf ps).foldl Dev.onCmd d).img.read b = ((cmdsOf ps).foldl Dev.onCmd d').img.read b := by
  induction ps generalizing d d' with
  | nil => simp at hb
  | cons q ps ih =>
    have hq := h q (by simp)
    have hps : CompletePrograms ps := fun r hr => h r (by simp [hr])
    simp only [cmdsOf, List.flatMap_cons, List.foldl_append]
    by_cases hin : ∃ r ∈ ps, r.1.toNat = b
    · exact ih hps hin _ _
    · have hout : ∀ r ∈ ps, r.1.toNat ≠ b := fun r hr e => hin ⟨r, hr, e⟩
      have hqb : q.1.toNat = b := by
        obtain ⟨r, hr, e⟩ := hb
        rcases List.mem_cons.1 hr with rfl | hr
        · exact e
        · exact absurd e (hout r hr)
      rw [read_programs_frame hps hout (runComplete_program d hq), read_programs_frame hps hout (runComplete_program d' hq),
        (foldl_program d q.1 q.2 hq).2.2.2, (foldl_program d' q.1 q.2 hq).2.2.2, if_pos hqb, if_pos hqb]

theorem runComplete_programs {ps : List (Word × List Word)} (h : CompletePrograms ps) (hne : ps ≠ []) (d : Dev) :
    runComplete ((cmdsOf ps).foldl Dev.onCmd d) := by
  induction ps generalizing d with
  | nil => exact absurd rfl hne
  | cons q ps ih =>
    simp only [cmdsOf, List.flatMap_cons, List.foldl_append]
    by_cases hp : ps = []
    · subst hp; exact runComplete_program d (h q (by simp))
    · exact ih (fun r hr => h r (by simp [hr])) hp _

/-- Complete programs sent twice leave every chain as when sent once. -/
theorem read_programs_twice {ps : List (Word × List Word)} (h : CompletePrograms ps) (d : Dev) (b : Nat) :
    ((cmdsOf ps).foldl Dev.onCmd ((cmdsOf ps).foldl Dev.onCmd d)).img.read b = ((cmdsOf ps).foldl Dev.onCmd d).img.read b := by
  by_cases hb : ∃ q ∈ ps, q.1.toNat = b
  · exact read_programs_congr h hb _ _
  · by_cases hp : ps = []
    · subst hp; rfl
    · exact read_programs_frame h (fun q hq e => hb ⟨q, hq, e⟩) (runComplete_programs h hp d)

/-! ## The invariant -/

theorem zero_mapped : 0 ∈ mappedAddresses := by decide

theorem setUndef_wf {d : Dev} (h : d.wf) : d.setUndef.wf := by
  obtain ⟨h1, h2, h3, h4, h5, h6⟩ := h
  refine ⟨List.Pairwise.nil, by intro c hc; simp at hc, h3, h4, fun _ => ⟨0, zero_mapped, rfl⟩, fun _ => rfl⟩

theorem unparseable_wf {d : Dev} (h : d.wf) : d.unparseable.wf := by
  obtain ⟨h1, h2, h3, h4, h5, h6⟩ := h
  refine ⟨List.Pairwise.nil, by intro c hc; simp at hc, h3, h4, fun _ => ⟨0, zero_mapped, rfl⟩, fun _ => rfl⟩

theorem read_none_erase {m : Memory} {a b} (h : m.read b = none) : (m.erase a).read b = none := by
  rw [read_erase]; split <;> [rfl; exact h]

theorem onSelect_wf {d : Dev} (a) (h : d.wf) : (d.onSelect a).wf := by
  obtain ⟨h1, h2, h3, h4, h5, h6⟩ := h
  refine ⟨?_, ?_, by simpa [Dev.fragIsFrame] using h3, fun _ => rfl, fun hu => ?_, by simpa using h6⟩
  · rw [onSelect_img]; rcases dropShort_cases d with h | ⟨_, _, -, -, -, -, h⟩ <;> rw [h]
    · exact h1
    · exact erase_wf _ h1
  · intro c hc; rw [onSelect_img] at hc; rcases dropShort_cases d with h | ⟨_, _, -, -, -, -, h⟩ <;> rw [h] at hc
    · exact h2 c hc
    · exact h2 c (mem_erase hc)
  · obtain ⟨m, hm, hr⟩ := h5 (by simpa using hu)
    refine ⟨m, hm, ?_⟩
    rcases read_onSelect d a m with h | ⟨h, -⟩
    · rw [h, hr]
    · exact h

theorem refresh_wf {d : Dev} (h1 : d.img.wf) (h2 : d.imgComplete) (h3 : d.fragIsFrame) (h4 : d.sel = none → d.run = [])
    (h6 : d.stopped = false) : d.refresh.wf := by
  refine ⟨by simpa using h1, by simpa [Dev.imgComplete] using h2, by simpa [Dev.fragIsFrame] using h3, by simpa using h4,
    fun hu => ?_, by simp [h6]⟩
  unfold Dev.refresh at hu
  split at hu
  · cases hu
  · rename_i hh
    rw [hu] at hh
    simp at hh
    obtain ⟨m, hm, hr⟩ := hh
    exact ⟨m, hm, by simpa using hr⟩

theorem onChain_wf {d : Dev} (w) (h : d.wf) (hs : d.stopped = false) : (d.onChain w).wf := by
  obtain ⟨h1, h2, h3, h4, h5, h6⟩ := h
  rcases onChain_cases d w with ⟨_, h⟩ | ⟨a', q1, q2, h⟩ | ⟨a', q1, q2, h⟩ | ⟨a', n, q1, q2, q3, h⟩ | ⟨a', n, q1, q2, q3, h⟩
    <;> rw [h]
  · exact setUndef_wf ⟨h1, h2, h3, h4, h5, h6⟩
  · exact setUndef_wf ⟨h1, h2, h3, by simp [q1], h5, h6⟩
  · refine refresh_wf (write_wf _ _ h1) ?_ h3 (by simp [q1]) hs
    intro c hc
    rcases mem_write hc with rfl | hc
    · simpa using q2
    · exact h2 c hc
  · refine ⟨erase_wf _ h1, fun c hc => h2 c (mem_erase hc), h3, by simp [q1], fun hu => ?_, h6⟩
    obtain ⟨m, hm, hr⟩ := h5 hu
    exact ⟨m, hm, read_none_erase hr⟩
  · exact ⟨h1, h2, h3, by simp [q1], h5, h6⟩

theorem withFrag_wf {d : Dev} (h : d.wf) {f} (hf : Dev.fragIsFrame { d with frag := f }) : Dev.wf { d with frag := f } := by
  obtain ⟨h1, h2, h3, h4, h5, h6⟩ := h
  exact ⟨h1, h2, hf, h4, h5, h6⟩

/-- A byte keeps the consumer well formed. -/
theorem feed_wf {d : Dev} (b) (h : d.wf) : (d.feed b).wf := by
  unfold Dev.feed
  split
  · exact h
  · rename_i hs
    have hs : d.stopped = false := by simpa using hs
    split
    · split
      · rename_i hb; exact withFrag_wf h ⟨by simp, by simpa using hb⟩
      · exact unparseable_wf h
    · unfold Dev.onFrame
      have hw : Dev.wf { d with frag := [] } := withFrag_wf h ⟨by simp, by simp⟩
      split
      · exact onSelect_wf _ hw
      · split
        · exact onChain_wf _ hw hs
        · exact unparseable_wf hw
    · rename_i h1 h2
      have h3 := h.2.2.1
      refine withFrag_wf h ⟨?_, ?_⟩
      · have := h3.1
        match hf : d.frag with
        | [] => simp
        | [_] => simp
        | [_, _] => simp
        | [_, _, _] => simp
        | [a, b, c, e] => exact absurd hf (h2 a b c e)
        | _ :: _ :: _ :: _ :: _ :: _ => rw [hf] at this; exfalso; simp at this; omega
      · cases hf : d.frag with
        | nil => exact absurd hf h1
        | cons x xs => have := h3.2; rw [hf] at this; simpa using this

theorem feedAll_wf {d : Dev} (bs) (h : d.wf) : (d.feedAll bs).wf := by
  induction bs generalizing d with
  | nil => exact h
  | cons b bs ih => exact ih (feed_wf b h)

theorem ioFailure_wf {d : Dev} (r : Bool) (h : d.wf) :
    (d.ioFailure r).wf ∧ ((d.ioFailure r).stopped = false → (d.ioFailure r).frag = []) := by
  unfold Dev.ioFailure
  split
  · rename_i hf; exact ⟨setUndef_wf h, fun _ => hf⟩
  · split
    · exact ⟨withFrag_wf (setUndef_wf h) ⟨by simp, by simp⟩, fun _ => rfl⟩
    · exact ⟨unparseable_wf h, by simp⟩

end Sys2Proof.Laws
end

