-- ==== Sys2Proof/Laws/Readers.lean ====
section
/-! SUPPORT. Every reader of the decoder reads a prefix of the bytes and does not look past it, so `decodePrefix` reads the
same instruction whatever follows its bytes. -/

namespace Sys2Proof.Laws
open Sys2Proof

/-- A reader reads a prefix of the bytes, and reads the same whatever follows that prefix. -/
def ReadsPrefix {α : Type} (take : List Byte → Except DecodeError (α × List Byte)) : Prop :=
  ∀ bytes x rest, take bytes = .ok (x, rest) → ∃ front, bytes = front ++ rest ∧ ∀ r, take (front ++ r) = .ok (x, r)

namespace ReadsPrefix

variable {α β : Type}

theorem bind {t : List Byte → Except DecodeError (α × List Byte)} {g : α × List Byte → Except DecodeError (β × List Byte)}
    (ht : ReadsPrefix t) (hg : ∀ a, ReadsPrefix fun r => g (a, r)) : ReadsPrefix fun bytes => t bytes >>= g := by
  intro bytes x rest h
  cases h1 : t bytes with
  | error e => simp [h1, Bind.bind, Except.bind] at h
  | ok p =>
    obtain ⟨a, r1⟩ := p
    simp only [h1, Bind.bind, Except.bind] at h
    obtain ⟨front1, rfl, e1⟩ := ht _ _ _ h1
    obtain ⟨front2, rfl, e2⟩ := hg a _ _ _ h
    exact ⟨front1 ++ front2, by simp, fun r => by simp only [List.append_assoc, e1, Bind.bind, Except.bind, e2]⟩

theorem ok (x : α) : ReadsPrefix fun bytes => .ok (x, bytes) := by
  intro _ y rest h
  simp only [Except.ok.injEq, Prod.mk.injEq] at h
  obtain ⟨rfl, rfl⟩ := h
  exact ⟨[], rfl, fun _ => rfl⟩

theorem error (e : DecodeError) : ReadsPrefix fun _ => (.error e : Except DecodeError (α × List Byte)) :=
  fun _ _ _ h => by cases h

theorem ite {c : Prop} [Decidable c] {f g : List Byte → Except DecodeError (α × List Byte)} (hf : ReadsPrefix f)
    (hg : ReadsPrefix g) : ReadsPrefix fun bytes => if c then f bytes else g bytes := by split <;> assumption

theorem pure (e : Except DecodeError α) : ReadsPrefix fun bytes => e >>= fun i => .ok (i, bytes) := by
  cases e with
  | ok x => exact ok x
  | error e => exact error e

theorem byte : ReadsPrefix takeByte := by
  intro bytes x rest h
  cases bytes with
  | nil => cases h
  | cons b bs => cases h; exact ⟨[x], rfl, fun _ => rfl⟩

theorem word : ReadsPrefix takeWord := by
  intro bytes x rest h
  match bytes, h with
  | b1 :: b2 :: b3 :: b4 :: bs, h => cases h; exact ⟨[b1, b2, b3, b4], rfl, fun _ => rfl⟩

theorem nat : ReadsPrefix takeNat := by
  intro bytes
  induction bytes with
  | nil => intro x rest h; cases h
  | cons b bs ih =>
    intro x rest h
    rw [takeNat] at h
    split at h
    · rename_i hb
      cases h
      exact ⟨[b], rfl, fun r => by simp only [List.cons_append, List.nil_append, takeNat, if_pos hb]⟩
    · rename_i hb
      cases hn : takeNat bs with
      | error e => simp [hn] at h
      | ok p =>
        obtain ⟨n, r⟩ := p
        simp only [hn, Except.ok.injEq, Prod.mk.injEq] at h
        obtain ⟨rfl, rfl⟩ := h
        obtain ⟨front, rfl, e⟩ := ih _ _ hn
        exact ⟨b :: front, rfl, fun r => by rw [List.cons_append, takeNat, if_neg hb, e]⟩

theorem int : ReadsPrefix takeInt := by
  refine bind byte fun _ => ?_
  dsimp +instances only
  refine bind nat fun _ => ?_
  dsimp +instances only
  exact ite (ok _) (ite (ok _) (error _))

theorem opRef : ReadsPrefix takeOpRef := by
  refine bind byte fun _ => ?_
  dsimp +instances only
  exact ite (ok _) (ite (ok _) (error _))

theorem inputCode : ReadsPrefix takeInputCode := by
  refine bind byte fun _ => ?_
  dsimp +instances only
  exact ite (ok _) (error _)

theorem many {t : List Byte → Except DecodeError (α × List Byte)} (ht : ReadsPrefix t) (n : Nat) :
    ReadsPrefix (takeMany t n) := by
  induction n with
  | zero => exact ok _
  | succ n ih =>
    refine bind ht fun _ => ?_
    dsimp only
    refine bind ih fun _ => ?_
    dsimp only
    exact ok _

theorem sum : ReadsPrefix takeSum := by
  refine bind byte fun _ => ?_
  dsimp +instances only
  refine ite (ok _) (ite ?_ (error _))
  refine bind (many opRef 8) fun _ => ?_
  dsimp only
  refine bind (many opRef 2) fun _ => ?_
  dsimp only
  refine bind opRef fun _ => ?_
  dsimp only
  refine bind (many inputCode 16) fun _ => ?_
  dsimp only
  exact ok _

theorem threshold : ReadsPrefix takeThreshold := by
  refine bind byte fun _ => ?_
  dsimp only
  refine bind word fun _ => ?_
  dsimp only
  exact ok _

theorem level : ReadsPrefix takeLevel := by
  refine bind byte fun _ => ?_
  dsimp +instances only
  exact ite (ok _) (ite (ok _) (ite (ok _) (error _)))

theorem role : ReadsPrefix takeRole := by
  refine bind byte fun _ => ?_
  dsimp +instances only
  exact ite (ok _) (ite (ok _) (ite (ok _) (error _)))

theorem command (n : Byte) : ReadsPrefix (decodeCommand n) := by
  unfold decodeCommand
  split
  all_goals
    repeat
      refine bind (by first | exact int | exact word | exact sum | exact opRef | exact level | exact role | exact threshold)
        fun _ => ?_
      try dsimp only
    first | exact ok _ | exact error _

theorem lane (l : Lane) : ReadsPrefix (decodePrefix l) := by
  cases l <;> refine bind (by first | exact byte | exact word) fun _ => ?_ <;> dsimp only
  · exact command _
  · refine bind word fun _ => ?_
    dsimp only
    exact pure _
  · exact pure _
  · exact pure _

end ReadsPrefix

end Sys2Proof.Laws
end

