-- ==== Sys2Proof/Tests/Slice0.lean ====
section
/-! SUPPORT. The model's own tests. Expected values are those of spec/95_test_vectors.md (the numbers S1 to S7, T1 to T127,
P1 to P5 in the comments) or written out from the encodings of spec/30_encoding.md; then, for every obligation with
hypotheses, a witness that meets them. -/

namespace Sys2Proof.Tests
open Sys2Proof Sys2Proof.Machine

/-! ## Helpers -/

/-- The power-on state with a sink that accepts the next 80 calls. -/
def ready : State := { State.reset with sink := List.replicate 80 .accept }

/-- The power-on state with a sink that accepts `n` calls and then fails one, having drawn `taken` (R40). -/
def failing (n : Nat) (taken : Fin 4) : State := { State.reset with sink := List.replicate n .accept ++ [.fail taken] }

/-- The state a command leaves (no instruction faults or refuses). -/
def after (o : Host.Outcome State Fault Refusal) : State :=
  match o with
  | .next s => s
  | .fault _ | .refused _ => State.reset

def statusOf (o : Host.Outcome State Fault Refusal) : Option Status := (after o).reply.map Reply.status
def resultOf (o : Host.Outcome State Fault Refusal) : Option Result := (after o).reply.bind Reply.result

/-- The bytes of a SELECT and the words of its program. -/
def bytesOf (a : Word) (ws : List Word) : List Byte := framesOf (programOf a ws)

/-- A sum argument by operation codes, every input disabled. -/
def sumArg (p0 p1 p2 p3 p4 p5 p6 p7 m0 m1 f : BitVec 4) : SumArg where
  pair := #v[some p0, some p1, some p2, some p3, some p4, some p5, some p6, some p7]
  mid := #v[some m0, some m1]
  final := some f
  leafIn := Vector.replicate 16 0#2

def someSum : SumArg := sumArg 1 1 1 1 1 1 1 1 1 1 1

/-- T70's sum. -/
def sumT70 : SumCfg := cfgOf (sumArg 0 1 2 3 4 5 6 7 8 9 6)

/-! ## Well-formedness smoke: each check refuses an ill-formed term -/

theorem smoke_addrPattern : (Instr.addrPattern 9#4).wellFormed = true ∧ (Instr.addrPattern 10#4).wellFormed = false := by decide
theorem smoke_addrSum : (Instr.addrSum 0#4 2#2).wellFormed = true ∧ (Instr.addrSum 0#4 3#2).wellFormed = false := by decide
theorem smoke_params : Params.default.wf ∧ ¬{ Params.default with sumOrder := [.F, .F, .P3, .P2, .P1, .P0] }.wf := by decide

/-! ## Decoding: words written out from the encodings of 30_encoding.md -/

/-- R72, R73: the example frames. -/
theorem test_decode_frames :
    decode .frame [0x9E#8, 0#8, 0#8, 0#8, 0x42#8] = .ok (.select 0x42#32)
    ∧ decode .frame [0x9F#8, 0xFF#8, 0xFF#8, 0x04#8, 0x00#8] = .ok (.chain 0xFFFF0400#32) := by decide

/-- R74: one address of each class. -/
theorem test_decode_addresses :
    decode .address [0#8, 0#8, 0#8, 0x0B#8] = .ok (.addrFsmDesc 11#4)
    ∧ decode .address [0#8, 0#8, 0#8, 0x29#8] = .ok (.addrPattern 9#4)
    ∧ decode .address [0#8, 0#8, 0#8, 0x32#8] = .ok (.addrRange 1#1 0#1)
    ∧ decode .address [0#8, 0#8, 0#8, 0x35#8] = .ok (.addrEdge 1#1)
    ∧ decode .address [0#8, 0#8, 0#8, 0x3B#8] = .ok (.addrTimer 1#1 1#1)
    ∧ decode .address [0#8, 0#8, 0#8, 0x5C#8] = .ok (.addrSum 7#4 0#2) := by decide

/-- R46, R75: addresses outside the map. -/
theorem test_decode_unmapped :
    decode .address [0#8, 0#8, 0#8, 0x2A#8] = .error (.unmappedAddress 0x2A#32)
    ∧ decode .address [0#8, 0#8, 0#8, 0x36#8] = .error (.unmappedAddress 0x36#32)
    ∧ decode .address [0#8, 0#8, 0#8, 0x43#8] = .error (.unmappedAddress 0x43#32)
    ∧ decode .address [0#8, 0#8, 0#8, 0x80#8] = .error (.unmappedAddress 0x80#32) := by decide

/-- R76 to R82: the fields of the data words. -/
theorem test_decode_words :
    decode (.data .patw) [0#8, 2#8, 0#8, 4#8] = .ok (.wordPatw 2#16 4#16)
    ∧ decode (.data .rngw) [0x55#8, 0x55#8, 0xAA#8, 0xAA#8] = .ok (.wordRngw 0x5555#16 0xAAAA#16)
    ∧ decode (.data .edgw) [0xCC#8, 0x33#8, 0#8, 0#8] = .ok (.wordEdgw 0xCC33#16 0#16)
    ∧ decode (.data .tmrlo) [0x23#8, 0x45#8, 0x67#8, 0x89#8] = .ok (.wordTmrlo 0x23456789#32)
    ∧ decode (.data .tmrhi) [0#8, 0#8, 0#8, 0x0F#8] = .ok (.wordTmrhi 0xF#4)
    ∧ decode (.data .sumf) [0#8, 0#8, 0#8, 0x06#8] = .ok (.wordSumf 6#16)
    ∧ decode (.data .summ) [0xFF#8, 0xF0#8, 0xEE#8, 0xEE#8] = .ok (.wordSumm 0xFFF0#16 0xEEEE#16)
    ∧ decode (.data .sump) [0x87#8, 0x77#8, 0x78#8, 0x88#8] = .ok (.wordSump 0x8777#16 0x7888#16) := by decide

/-- R83, T94: the control word of S4. -/
theorem test_decode_ctrl : decode (.data .ctrl) [0x50#8, 0x30#8, 0x00#8, 0x05#8]
    = .ok (.wordCtrl false true false true false false false false 3#4 5#20) := by decide

/-- U5: a bit that is always zero is set. -/
theorem test_decode_reserved :
    decode (.data .tmrhi) [0#8, 0#8, 0#8, 0x10#8] = .error (.reservedBits 0x10#32)
    ∧ decode (.data .sumf) [0#8, 1#8, 0#8, 0#8] = .error (.reservedBits 0x10000#32) := by decide

/-- R90: command numbers (operand bytes in the model's layout, entry 4). -/
theorem test_decode_commands :
    decode .command [0x00#8] = .ok .reset
    ∧ decode .command [0x01#8, 1#8, 6#8] = .ok (.lut .mid (some 6#4))
    ∧ decode .command [0x02#8, 0x80#8] = .ok (.isInv none)
    ∧ decode .command [0x10#8, 0#8, 9#8, 0#8, 0#8, 0#8, 1#8, 0#8, 0#8, 0#8, 2#8] = .ok (.setPat 9 1#32 2#32)
    ∧ decode .command [0x13#8, 0#8, 1#8, 0x0F#8, 0xFF#8, 0xFF#8, 0xFF#8, 0xFF#8] = .ok (.setTmr 1 0xFFFFFFFFF#36)
    ∧ decode .command [0x24#8, 2#8] = .ok (.encSum .capture)
    ∧ decode .command [0x30#8, 1#8, 0#8] = .ok (.forState (-1))
    ∧ decode .command [0x33#8, 0#8, 0x80#8, 0x80#8, 0x40#8] = .ok (.occurs 1048576)
    ∧ decode .command [0x34#8, 0x80#8, 0#8, 16#8] = .ok (.elseTarget none 16)
    ∧ decode .command [0x3D#8] = .ok .onHitClearTimer2 := by decide

/-- R90: the gaps in the numbering are no commands (U6). -/
theorem test_decode_unknown :
    decode .command [0x3E#8] = .error (.unknownCommand 0x3E#8) ∧ decode .command [0x03#8] = .error (.unknownCommand 3#8)
    ∧ decode .frame [0x9D#8, 0#8, 0#8, 0#8, 0#8] = .error (.unknownOpcode 0x9D#8) := by decide

/-- A table word: a frame by its bits 39:0, an address, a command number with operand bytes of zeros. -/
theorem test_decodeTableWord :
    decodeTableWord 40 0x9E00000042 = some (.select 0x42#32) ∧ decodeTableWord 32 0x31 = some (.addrRange 0#1 1#1)
    ∧ decodeTableWord 8 0x36 = some .continueToNextState ∧ decodeTableWord 8 0x20 = some (.encPat 0)
    ∧ decodeTableWord 8 0x34 = some (.elseTarget (some (sumArg 0 0 0 0 0 0 0 0 0 0 0)) 0) := by decide

theorem test_withFetchWord_runs : (match step (ready.withFetchWord 40 0x9E00000042) with
    | .next s => decide (s.out = [0x9E#8, 0#8, 0#8, 0#8, 0x42#8] ∧ s.port = [] ∧ s.inner = none)
    | .fault _ | .refused _ => false) = true := by decide

/-- R210: the bytes of a frame presented by the host are no command. -/
theorem test_host_cannot_send_a_frame : (match step { ready with port := [[0x9E#8, 0#8, 0#8, 0#8, 0x42#8]] } with
    | .next s => decide (s.out = [] ∧ s.reply = some ⟨.invalidArgument, none⟩)
    | .fault _ | .refused _ => false) = true := by decide

/-- R46: 84 mapped addresses. -/
theorem test_mapped : mappedAddresses.length = 84 ∧ programLength 0x43 = none ∧ programLength 0x31 = some 16 := by decide

/-! ## The wire (T120, T121, T122 to T127) -/

theorem test_select : (after (exec (.select 0x42#32) ready)).out = [0x9E#8, 0#8, 0#8, 0#8, 0x42#8] := by decide
theorem test_chain : (after (exec (.chain 0x50300005#32) ready)).out = [0x9F#8, 0x50#8, 0x30#8, 0#8, 5#8] := by decide

/-- T70's address and mid word, run as single wire commands. -/
theorem test_addrSum : (after (exec (.addrSum 15#4 2#2) ready)).out = [0x9E#8, 0#8, 0#8, 0#8, 0x7E#8] := by decide
theorem test_wordSumm : (after (exec (.wordSumm 0xFFF0#16 0xEEEE#16) ready)).out = [0x9F#8, 0xFF#8, 0xF0#8, 0xEE#8, 0xEE#8] := by
  decide

def encTmrOn (s : State) : State := after (exec (.encTmr 0) (s.setTmr 0 0x123456789#36))

/-- T122, T123. -/
theorem test_ioFailure_first_frame :
    (encTmrOn (failing 0 3)).out = [] ∧ (encTmrOn (failing 0 3)).reply = some ⟨.ioFailure, none⟩
    ∧ (encTmrOn (failing 0 3)).dev.undef = true
    ∧ (encTmrOn (failing 1 3)).out = [0x9E#8, 0#8, 0#8, 0#8] := by decide

/-- T125, T126. -/
theorem test_ioFailure_later :
    (encTmrOn (failing 5 0)).out
      = [0x9E#8, 0#8, 0#8, 0#8, 0x38#8, 0x9F#8, 0x23#8, 0x45#8, 0x67#8, 0x89#8, 0x9E#8]
    ∧ (encTmrOn (failing 5 0)).dev.img.read 0x38 = none
    ∧ (encTmrOn (failing 7 2)).out = [0x9E#8, 0#8, 0#8, 0#8, 0x38#8, 0x9F#8, 0x23#8, 0x45#8, 0x67#8, 0x89#8,
        0x9E#8, 0#8, 0#8, 0#8, 0x39#8, 0x9F#8, 0#8, 0#8] := by decide

/-- P4, command 3: the selection the accepted frame made stays. -/
theorem test_ioFailure_sel : (after (exec (.encTmr 1) ((failing 3 2).setTmr 1 0xFFFFFFFFF#36))).dev.sel = some 0x3A#32
    ∧ (after (exec (.encTmr 1) ((failing 3 2).setTmr 1 0xFFFFFFFFF#36))).out
        = [0x9E#8, 0#8, 0#8, 0#8, 0x3A#8, 0x9F#8, 0xFF#8, 0xFF#8] := by decide

/-! ## Table reads (T1 to T9) -/

/-- The ten Operations by name, in the order of R10's table. -/
def allOperations : List Operation := [.nop, .any, .and, .nand, .or, .nor, .xor, .nxor, .aOnly, .bOnly]

/-- The literal tables of R100, R101 and R102, by level. -/
def literalLut : TreeLevel → List Half
  | .pair => [0x0000#16, 0xFFFF#16, 0x8000#16, 0x7FFF#16, 0xF888#16, 0x0777#16, 0x7888#16, 0x8777#16, 0x8888#16, 0xF000#16]
  | .mid => [0x0000#16, 0xFFFF#16, 0x8000#16, 0x7FFF#16, 0xFFFE#16, 0x0001#16, 0x0116#16, 0xFEE9#16, 0xEEEE#16, 0xFFF0#16]
  | .final => [0x0000#16, 0xFFFF#16, 0x0008#16, 0x0007#16, 0x000E#16, 0x0001#16, 0x0006#16, 0x0009#16, 0x0002#16, 0x0004#16]

/-- The regression test R105 asks for: for all ten operations, by name, the pair, mid and final constants are the literals. -/
theorem test_operationTable_literals :
    (∀ op, op ∈ allOperations)
    ∧ allOperations.map (lutConstant .pair) = literalLut .pair
    ∧ allOperations.map (lutConstant .mid) = literalLut .mid
    ∧ allOperations.map (lutConstant .final) = literalLut .final :=
  ⟨fun op => by cases op <;> decide, by decide, by decide, by decide⟩
/-- The same thirty constants through the command (R103), by operation code; a null and an unknown operation. -/
theorem test_lut :
    (∀ level ∈ [TreeLevel.pair, .mid, .final], ∀ c : Fin 10,
      resultOf (exec (.lut level (some (BitVec.ofNat 4 c.val))) ready) = (literalLut level)[c.val]?.map Result.table)
    ∧ statusOf (exec (.lut .pair none) ready) = some .invalidArgument
    ∧ statusOf (exec (.lut .mid (some 10#4)) ready) = some .invalidArgument := by decide
theorem test_isInv : resultOf (exec (.isInv (some 7#4)) ready) = some (.flag true)
    ∧ resultOf (exec (.isInv (some 9#4)) ready) = some (.flag false)
    ∧ statusOf (exec (.isInv none) ready) = some .invalidArgument := by decide

/-! ## The bank (T20 to T64) -/

theorem test_setPat : (after (exec (.setPat 9 1#32 2#32) ready)).bank.pat[9] = ⟨1#32, 2#32⟩
    ∧ (after (exec (.setPat 9 1#32 2#32) ready)).bank.pat[8] = ⟨0#32, 0#32⟩
    ∧ statusOf (exec (.setPat 10 1#32 2#32) ready) = some .invalidArgument := by decide
theorem test_setRng : (after (exec (.setRng 1 200#32 100#32 0xFF#32) ready)).bank.rng[1] = ⟨200#32, 100#32, 0xFF#32⟩
    ∧ statusOf (exec (.setRng 2 0#32 0#32 0#32) ready) = some .invalidArgument := by decide
theorem test_setEdg : (after (exec (.setEdg 0 1#32 2#32 3#32) ready)).bank.edg[0] = ⟨1#32, 2#32, 3#32⟩
    ∧ statusOf (exec (.setEdg (-1) 0#32 0#32 0#32) ready) = some .invalidArgument := by decide
theorem test_setTmr : (after (exec (.setTmr 1 0xFFFFFFFFF#36) ready)).bank.tmr[1] = 0xFFFFFFFFF#36
    ∧ statusOf (exec (.setTmr 2 0#36) ready) = some .invalidArgument := by decide

/-- T20. -/
theorem test_encPat : (after (exec (.encPat 3) (ready.setPat 3 ⟨0x12345678#32, 0xFFFF00F0#32⟩))).out
    = bytesOf 0x23#32 [0x00020004#32, 0x00080010#32, 0xFFFFFFFF#32, 0x0080FFFF#32] := by decide
/-- S2. -/
theorem test_encPat_nibble : patWords ⟨0xA#32, 0xF#32⟩ = [0xFFFFFFFF#32, 0xFFFFFFFF#32, 0xFFFFFFFF#32, 0xFFFF0400#32] := by
  decide

/-- S3, the lower boundary. -/
theorem test_encRng_lower : rngWords .firstWalkedHigh (targetLo 100#32) 0xFFFFFFFF#32
    = List.replicate 12 0x55555555#32 ++ [0x5555AAAA#32, 0xAAAA5555#32, 0x55555555#32, 0xAAAAAAAA#32] := by decide
/-- T41, the upper boundary; T44 with the halves swapped. -/
theorem test_encRng_upper : rngWords .firstWalkedHigh (targetHi 0x20#32) 0xFF#32
      = List.replicate 12 0xFFFFFFFF#32 ++ [0x55555555#32, 0xAAAA5555#32, 0x55555555#32, 0x55555555#32]
    ∧ rngWords .firstWalkedLow (targetLo 2#32) 0x80000001#32
      = 0xFFFF5555#32 :: (List.replicate 14 0xFFFFFFFF#32 ++ [0xAAAAFFFF#32]) := by decide

/-- T50. -/
theorem test_encEdg : (after (exec (.encEdg 0) (ready.setEdg 0 ⟨1#32, 2#32, 0x80000000#32⟩))).out
    = bytesOf 0x34#32 [0xCC330000#32, 0#32, 0#32, 0#32, 0#32, 0#32, 0#32, 0x00003B0A#32] := by decide
/-- T56, and T50 with the halves swapped. -/
theorem test_encEdg_words : edgWords .firstWalkedHigh ⟨0#32, 3#32, 0#32⟩ = List.replicate 7 0#32 ++ [0x00007350#32]
    ∧ edgWords .firstWalkedLow ⟨1#32, 2#32, 0x80000000#32⟩ = 0x0000CC33#32 :: (List.replicate 6 0#32 ++ [0x3B0A0000#32]) := by
  decide

/-- T60. -/
theorem test_encTmr : (encTmrOn ready).out = bytesOf 0x38#32 [0x23456789#32] ++ bytesOf 0x39#32 [0x00000001#32] := by decide
/-- T64, T127: validation comes before the sink. -/
theorem test_encTmr_invalid : statusOf (exec (.encTmr 2) (failing 0 0)) = some .invalidArgument
    ∧ (after (exec (.encTmr 2) (failing 0 0))).dev.undef = false := by decide

/-! ## Sums and states (T70 to T96, P1) -/

/-- T70. -/
theorem test_encSum : (after (exec (.encSum .capture) { ready with lvl := { Level.level0 with state := 15#4, cap := sumT70 } })).out
    = bytesOf 0x7E#32 [0x00000006#32, 0xFFF0EEEE#32, 0x87777888#32, 0x0777F888#32, 0x7FFF8000#32, 0xFFFF0000#32] := by decide
/-- T70's parameter variants. -/
theorem test_encSum_params :
    sumWords { Params.default with pairHalf := .oddLow } sumT70
      = [0x00000006#32, 0xFFF0EEEE#32, 0x78888777#32, 0xF8880777#32, 0x80007FFF#32, 0x0000FFFF#32]
    ∧ sumWords { Params.default with sumOrder := [.P0, .P1, .P2, .P3, .M, .F] } sumT70
      = [0xFFFF0000#32, 0x7FFF8000#32, 0x0777F888#32, 0x87777888#32, 0xFFF0EEEE#32, 0x00000006#32] := by decide

/-- T82, T83, T85, T96: the control word. -/
theorem test_ctrl :
    ctrl { Level.level0 with count := 1048575#20 } = 0x000FFFFF#32
    ∧ ctrl { Level.level0 with elseState := 15#4 } = 0x00F00000#32
    ∧ ctrl { Level.level0 with count := 7#20, stop2 := true } = 0x02000007#32
    ∧ ctrl { Level.level0 with count := 1#20, stop1 := true, raise := true, last := true } = 0xC1000001#32 := by decide

/-- P1, command 13: the descriptor and the capture, hit and else sums. -/
def levelP1 : Level :=
  { Level.level0 with
    cap := cfgOf (sumArg 2 0 0 0 0 0 0 0 4 0 8), hit := cfgOf (sumArg 8 0 0 0 0 0 0 0 4 0 8), count := 4#20
    elseState := 1#4, raise := true }

theorem test_encState : (after (exec .encState { ready with lvl := levelP1 })).out = List.flatten
    [bytesOf 0x00#32 [0x40100004#32],
     bytesOf 0x42#32 [0x00000002#32, 0x0000FFFE#32, 0#32, 0#32, 0#32, 0x00008000#32],
     bytesOf 0x40#32 [0x00000002#32, 0x0000FFFE#32, 0#32, 0#32, 0#32, 0x00008888#32],
     bytesOf 0x41#32 [0#32, 0#32, 0#32, 0#32, 0#32, 0#32]] := by decide
/-- P1's end state: what the device holds. -/
theorem test_encState_device :
    (after (exec .encState { ready with lvl := levelP1 })).dev.img.read 0x40
      = some [0x00000002#32, 0x0000FFFE#32, 0#32, 0#32, 0#32, 0x00008888#32]
    ∧ (after (exec .encState { ready with lvl := levelP1 })).dev.sel = some 0x41#32
    ∧ (after (exec .encState { ready with lvl := levelP1 })).dev.undef = false := by decide +kernel

/-! ## The builder (T100 to T116) -/

theorem test_forState : (after (exec (.forState 15) ready)).b.state = 15#4
    ∧ statusOf (exec (.forState 16) ready) = some .invalidArgument
    ∧ statusOf (exec (.forState (-1)) ready) = some .invalidArgument := by decide
theorem test_occurs : (after (exec (.occurs 1048575) ready)).b.count = 1048575#20
    ∧ statusOf (exec (.occurs 1048576) ready) = some .invalidArgument
    ∧ statusOf (exec (.occurs (-1)) ready) = some .invalidArgument :=
  ⟨by decide, by decide, by decide⟩
theorem test_whileStoring : (after (exec (.whileStoring (some (sumArg 0 1 2 3 4 5 6 7 8 9 6))) ready)).b.cap = sumT70
    ∧ statusOf (exec (.whileStoring none) ready) = some .invalidArgument := by decide
/-- T107, T108. -/
theorem test_ifTarget : statusOf (exec (.ifTarget (some { someSum with final := none })) ready) = some .invalidArgument
    ∧ statusOf (exec (.ifTarget (some (sumArg 1 1 1 12 1 1 1 1 1 1 1))) ready) = some .invalidArgument
    ∧ (after (exec (.ifTarget (some someSum)) ready)).b.hit = cfgOf someSum := by decide
/-- T109, T110. -/
theorem test_elseTarget :
    statusOf (exec (.elseTarget (some { someSum with leafIn := (Vector.replicate 16 0#2).set 0 3#2 }) 2) ready)
      = some .invalidArgument
    ∧ (after (exec (.elseTarget (some someSum) 15) ready)).b = { Level.level0 with els := cfgOf someSum, elseState := 15#4 } := by
  decide
theorem test_elseTarget_target : after (exec (.elseTarget (some someSum) 16) ready)
    = { ready with reply := some ⟨.invalidArgument, none⟩ } := by decide

theorem test_flags :
    (after (exec .lastState ready)).b = { Level.level0 with last := true }
    ∧ (after (exec .continueToNextState { ready with b := { Level.level0 with last := true } })).b = Level.level0
    ∧ (after (exec .onHitRaiseTrigger ready)).b = { Level.level0 with raise := true }
    ∧ (after (exec .onHitStartTimer1 ready)).b = { Level.level0 with start1 := true }
    ∧ (after (exec .onHitStartTimer2 ready)).b = { Level.level0 with start2 := true }
    ∧ (after (exec .onHitStopTimer1 ready)).b = { Level.level0 with stop1 := true }
    ∧ (after (exec .onHitStopTimer2 ready)).b = { Level.level0 with stop2 := true }
    ∧ (after (exec .onHitClearTimer1 ready)).b = { Level.level0 with clear1 := true }
    ∧ (after (exec .onHitClearTimer2 ready)).b = { Level.level0 with clear2 := true } := by decide

/-- T115. -/
theorem test_build : (after (exec .build { ready with b := { Level.level0 with state := 2#4, count := 7#20 } })).lvl
      = { Level.level0 with state := 2#4, count := 7#20 }
    ∧ (after (exec .build { ready with b := { Level.level0 with state := 2#4, count := 7#20 } })).b = Level.level0 := by decide

/-- R260: OUT, the bank and the levels go; the device stays. -/
theorem test_reset : after (exec .reset { (encTmrOn ready) with lvl := levelP1 })
    = { ready with dev := (encTmrOn ready).dev, sink := (encTmrOn ready).sink, sinkCalls := 8, reply := some ⟨.ok, none⟩ } := by
  decide

/-! ## Witnesses: the hypotheses of each obligation can be met -/

theorem witness_DecodeEncodeRoundTrip : (Instr.addrSum 15#4 2#2).wellFormed = true ∧ Instr.build.wellFormed = true := by decide
theorem witness_DecodedIsWellFormedOnItsLane : decode .command [0x25#8] = .ok .encState := by decide
theorem witness_WireBytesHaveOneMeaning :
    Lane.frame ≠ .command ∧ decode .frame [0x9F#8, 0#8, 0#8, 0#8, 0#8] = .ok (.chain 0#32)
    ∧ Lane.data .tmrhi ≠ .command ∧ decode (.data .tmrhi) [0#8, 0#8, 0#8, 15#8] = .ok (.wordTmrhi 15#4) := by decide

def presented (bytes : List Byte) : State := { ready with port := [bytes] }
def internal (lane : Lane) (bytes : List Byte) : State := { ready with inner := some ⟨lane, bytes⟩ }

theorem witness_StepRunsTheDecodedPacket :
    ((presented [0x3F#8]).inner = none ∧ (presented [0x3F#8]).port = [[0x3F#8]] ∧ decode .command [0x3F#8] = .ok .build)
    ∧ (internal .address [0#8, 0#8, 0#8, 0x38#8]).inner = some ⟨.address, [0#8, 0#8, 0#8, 0x38#8]⟩
    ∧ decode .address [0#8, 0#8, 0#8, 0x38#8] = .ok (.addrTimer 0#1 0#1) := by decide
theorem witness_UndecodablePacketsAndIdleSteps :
    ((presented [0x3E#8]).inner = none ∧ (presented [0x3E#8]).port = [[0x3E#8]]
      ∧ decode .command [0x3E#8] = .error (.unknownCommand 0x3E#8))
    ∧ ((internal .address [0#8, 0#8, 0#8, 0x2A#8]).inner = some ⟨.address, [0#8, 0#8, 0#8, 0x2A#8]⟩
      ∧ decode .address [0#8, 0#8, 0#8, 0x2A#8] = .error (.unmappedAddress 0x2A#32) ∧ Lane.address ≠ .command)
    ∧ (internal .command [0x3E#8]).inner = some ⟨.command, [0x3E#8]⟩
    ∧ ready.inner = none ∧ ready.port = [] := by decide
theorem witness_PlacedTableWordRunsNext : decodeTableWord 8 0x3F = some .build := by decide

def selected : State := { ready with dev := { Dev.start with sel := some 0x38#32 } }

/-- Each clause: accepting; aligned; the first call fails; the second fails, with the least and the greatest
draw; a host command's SELECT. -/
theorem witness_SelectPrimitive : ready.accepts 2 ∧ ready.dev.aligned ∧ (failing 0 1).answerAt 0 = .fail 1
    ∧ ((failing 1 0).answerAt 0 = .accept ∧ (failing 1 0).answerAt 1 = .fail 0)
    ∧ ((failing 1 3).answerAt 0 = .accept ∧ (failing 1 3).answerAt 1 = .fail 3)
    ∧ ready.params.wf ∧ laneOf .encState = .command ∧ Cmd.sel 0x41#32 ∈ emission .encState ready := by decide
theorem witness_ChainPrimitive : selected.accepts 2 ∧ selected.dev.aligned ∧ selected.dev.sel = some 0x38#32
    ∧ (failing 0 1).answerAt 0 = .fail 1 ∧ (failing 1 3).answerAt 0 = .accept ∧ (failing 1 3).answerAt 1 = .fail 3 := by decide

def otherHalves : State := { ready with params := { Params.default with halfOrder := .firstWalkedLow, pairHalf := .oddLow } }

theorem witness_AddressFormatsSelect : ready.accepts 2 := by decide
theorem witness_WordFormatsChain :
    (ready.accepts 2 ∧ ready.params.halfOrder = .firstWalkedHigh ∧ ready.params.pairHalf = .oddHigh)
    ∧ otherHalves.accepts 2 ∧ otherHalves.params.halfOrder = .firstWalkedLow ∧ otherHalves.params.pairHalf = .oddLow := by decide

/-- The first and the last sink call of ENCTMR. -/
theorem witness_FirstFailingCallStopsTheCommand :
    operandsInRange (.encTmr 1)
    ∧ (0 < 2 * (emission (.encTmr 1) (failing 0 0)).length ∧ (failing 0 0).accepts 0 ∧ (failing 0 0).answerAt 0 = .fail 0)
    ∧ 7 < 2 * (emission (.encTmr 1) (failing 7 3)).length ∧ (failing 7 3).accepts 7 ∧ (failing 7 3).answerAt 7 = .fail 3 := by
  refine ⟨⟨by decide, by decide⟩, by decide, by decide⟩

theorem witness_IOFailureEffects : ∃ t, exec (.encTmr 1) (failing 3 2) = .next t ∧ t.reply.map Reply.status = some .ioFailure :=
  ⟨after (exec (.encTmr 1) (failing 3 2)), rfl, by decide⟩
theorem witness_IOFailureExactlyOnAFailingCall :
    ∃ t, exec .encState (failing 45 3) = .next t ∧ laneOf .encState = .command ∧ t.reply.map Reply.status = some .ioFailure :=
  ⟨after (exec .encState (failing 45 3)), rfl, rfl, by decide⟩
theorem witness_InvalidArgumentChangesNothing :
    ∃ t, exec (.encPat 10) ready = .next t ∧ t.reply.map Reply.status = some .invalidArgument :=
  ⟨_, rfl, by decide⟩
theorem witness_InvalidArgumentExactlyForTheListedCauses : ¬operandsInRange (.setRng 2 0#32 0#32 0#32) ∧ operandsInRange .build :=
  ⟨fun h => absurd h.2 (by decide), trivial⟩
theorem witness_InRangeCommandsEndOk :
    operandsInRange (.encRng 1) ∧ ready.accepts (2 * (emission (.encRng 1) ready).length) :=
  ⟨⟨by decide, by decide⟩, by decide⟩

theorem witness_LutReturnsTheConstant : 9 < (10#4).toNat ∧ 9 < (15#4).toNat := by decide
theorem witness_IsInvReturnsTheFlag : (0#4).toNat ≤ 9 ∧ (9#4).toNat ≤ 9 ∧ 9 < (10#4).toNat ∧ 9 < (15#4).toNat := by decide
theorem witness_SettersWriteOneSlot :
    ((-1 : Int) < 0 ∨ 9 < (-1 : Int)) ∧ ((10 : Int) < 0 ∨ 9 < (10 : Int)) ∧ ((-1 : Int) < 0 ∨ 1 < (-1 : Int))
    ∧ ((2 : Int) < 0 ∨ 1 < (2 : Int)) := by decide

/-- The sink conditions of the encode commands' results. -/
theorem witness_encodeSinks : ready.accepts 10 ∧ ready.accepts 68 ∧ ready.accepts 18 ∧ ready.accepts 8
    ∧ ready.accepts (2 + 2 * ready.params.sumOrder.length) ∧ ready.accepts (8 + 6 * ready.params.sumOrder.length + 2) := by decide

/-- The clauses of the bank's encoders: a masked-in and a masked-out bit, the ends of the walks. -/
theorem witness_encoderClauses :
    ((7 : Nat) < 8 ∧ (15 : Nat) < 16 ∧ (3 : Nat) < 4
      ∧ (ready.setPat 0 ⟨0#32, 0xFFFFFFFF#32⟩).bank.pat[(0 : Fin 10)].mask.getLsbD (4 * 7 + 3) = true)
    ∧ (31 : Nat) < 32 ∧ (15 : Nat) < 16 := by decide

/-- Both halves orders of the sum's pair words. -/
theorem witness_EncSumEmitsTheSum : otherHalves.accepts (2 + 2 * otherHalves.params.sumOrder.length)
    ∧ otherHalves.params.pairHalf = .oddLow ∧ ready.params.pairHalf = .oddHigh := by decide
/-- Two states that differ in B, the bank and the input states. -/
def otherLeaves : State :=
  { ready with
    bank := { Bank.zero with tmr := Vector.replicate 2 5#36 }, b := { Level.level0 with count := 3#20 }
    lvl := { Level.level0 with hit := { SumCfg.sum0 with leafIn := Vector.replicate 16 .enabled } } }

theorem witness_SumsReadOnlyTheirOperations :
    otherLeaves.params.sumOrder = ready.params.sumOrder ∧ otherLeaves.params.pairHalf = ready.params.pairHalf
    ∧ otherLeaves.lvl.state = ready.lvl.state ∧ (∀ n, otherLeaves.answerAt n = ready.answerAt n)
    ∧ otherLeaves.lvl.hit.sameOperations ready.lvl.hit ∧ otherLeaves.lvl.cap.sameOperations ready.lvl.cap
    ∧ otherLeaves.lvl.els.sameOperations ready.lvl.els ∧ otherLeaves.lvl.sameControlFields ready.lvl
    ∧ otherLeaves.lvl.hit ≠ ready.lvl.hit :=
  ⟨rfl, rfl, rfl, fun _ => rfl, by decide, by decide, by decide, by decide, by decide⟩
theorem witness_EncStateEmitsDescriptorThenSums :
    ready.accepts (8 + 6 * ready.params.sumOrder.length + 2) ∧ ready.params.wf := by decide
theorem witness_FramesPerCommand : ready.params.wf ∧ operandsInRange (.encRng 1) ∧ laneOf (.encRng 1) = .command
    ∧ Instr.encRng 1 ≠ .reset ∧ ready.accepts (2 * (emission (.encRng 1) ready).length) :=
  ⟨by decide, ⟨by decide, by decide⟩, rfl, by simp, by decide⟩
theorem witness_EmittedProgramsAreComplete : ready.params.wf ∧ laneOf .encState = .command := by decide
theorem witness_EncodingIsPure :
    (∃ t, laneOf (.encTmr 0) = .command ∧ emission (.encTmr 0) ready ≠ [] ∧ exec (.encTmr 0) ready = .next t)
    ∧ operandsInRange (.encTmr 0) ∧ Instr.encTmr 0 ≠ .reset ∧ ready.accepts (2 * (emission (.encTmr 0) ready).length)
    ∧ ready.params.wf :=
  ⟨⟨_, rfl, by decide, rfl⟩, ⟨by decide, by decide⟩, by simp, by decide, by decide⟩

/-- Both ends of each range, inside and outside. -/
theorem witness_ForStateWritesOrRefuses :
    ((0 : Int) ≤ 0 ∧ (0 : Int) ≤ 15) ∧ ((0 : Int) ≤ 15 ∧ (15 : Int) ≤ 15) ∧ ((-1 : Int) < 0 ∨ 15 < (-1 : Int))
    ∧ ((16 : Int) < 0 ∨ 15 < (16 : Int)) := by decide
theorem witness_OccursWritesOrRefuses :
    ((0 : Int) ≤ 0 ∧ (0 : Int) ≤ 1048575) ∧ ((0 : Int) ≤ 1048575 ∧ (1048575 : Int) ≤ 1048575)
    ∧ ((-1 : Int) < 0 ∨ 1048575 < (-1 : Int)) ∧ ((1048576 : Int) < 0 ∨ 1048575 < (1048576 : Int)) := by decide

theorem witness_SumCommandsSetTheirSum : sumInRange (some someSum) ∧ (0 : Int) ≤ 15 ∧ (15 : Int) ≤ 15 := by
  refine ⟨⟨someSum, rfl, ?_, ?_, ⟨1#4, rfl, by decide⟩, by decide⟩, by decide, by decide⟩
  · intro r hr
    have : ∀ r ∈ someSum.pair.toList, r = some 1#4 := by decide
    exact ⟨1#4, this r hr, by decide⟩
  · intro r hr
    have : ∀ r ∈ someSum.mid.toList, r = some 1#4 := by decide
    exact ⟨1#4, this r hr, by decide⟩

/-- A null sum, a null operation and an unknown one; and a target on either side of the range. -/
theorem witness_InvalidSumsAreRefused :
    ¬sumInRange none ∧ ¬sumInRange (some { someSum with final := none }) ∧ ¬sumInRange (some { someSum with final := some 10#4 })
    ∧ ((-1 : Int) < 0 ∨ 15 < (-1 : Int)) ∧ ((16 : Int) < 0 ∨ 15 < (16 : Int)) := by
  refine ⟨?_, ?_, ?_, by decide, by decide⟩
  · rintro ⟨a, h, -⟩; cases h
  · rintro ⟨a, h, -, -, ⟨c, hc, -⟩, -⟩; cases h; cases hc
  · rintro ⟨a, h, -, -, ⟨c, hc, hl⟩, -⟩; cases h; cases hc; revert hl; decide

/-- Every sticky flag set, and a command that keeps them. -/
def allFlags : State :=
  { ready with b := { Level.level0 with
    raise := true, start1 := true, start2 := true, stop1 := true, stop2 := true, clear1 := true, clear2 := true } }

theorem witness_ActionFlagsAreSticky :
    (∃ t, exec .continueToNextState allFlags = .next t) ∧ Instr.continueToNextState ≠ .build
    ∧ Instr.continueToNextState ≠ .reset ∧ allFlags.b.raise = true ∧ allFlags.b.start1 = true ∧ allFlags.b.start2 = true
    ∧ allFlags.b.stop1 = true ∧ allFlags.b.stop2 = true ∧ allFlags.b.clear1 = true ∧ allFlags.b.clear2 = true := by
  refine ⟨⟨_, rfl⟩, by simp, by simp, by decide⟩
theorem witness_BuildCopiesAndResets : ∃ t u, exec .build allFlags = .next t ∧ exec .build t = .next u := ⟨_, _, rfl, rfl⟩
theorem witness_BuiltLevelIsIndependent :
    (∃ t, exec (.forState 3) ready = .next t) ∧ Instr.forState 3 ≠ .build ∧ Instr.forState 3 ≠ .reset :=
  ⟨⟨_, rfl⟩, by simp, by simp⟩
theorem witness_RegistersHaveTheirOwnWriters : ∃ t, exec (.encEdg 1) ready = .next t := ⟨_, rfl⟩
theorem witness_StreamOnlyGrows : (∃ t, exec (.setTmr 0 5#36) ready = .next t) ∧ Instr.setTmr 0 5#36 ≠ .reset
    ∧ emission (.setTmr 0 5#36) ready = [] := ⟨⟨_, rfl⟩, by simp, rfl⟩

theorem reset_params_wf : State.reset.params.wf := by decide
theorem witness_EveryStepKeepsTheInvariant : (presented [0x23#8, 0#8, 0#8]).Inv
    ∧ ∃ t, step (presented [0x23#8, 0#8, 0#8]) = .next t := by
  refine ⟨⟨by decide, ⟨by decide, by decide, by decide, by decide, by decide, by decide⟩, by decide⟩, _, rfl⟩

/-! ### The device -/

/-- A consumer in the middle of a program for 0x20, with 0x38 defined. -/
def midway : Dev := { Dev.start with sel := some 0x20#32, run := [1#32], img := [(0x20, [1#32, 2#32, 3#32, 4#32]), (0x38, [5#32])] }

/-- Another address is untouched, and the address whose program is cut short reads as unknown. -/
theorem witness_CompleteProgramDefinesItsChain :
    midway.aligned ∧ programLength (0x39#32).toNat = some [7#32].length ∧ midway.undef = false ∧ 0x38 ≠ (0x39#32).toNat
    ∧ 0x20 ≠ (0x39#32).toNat ∧ midway.sel = some 0x20#32 ∧ programLength 0x20 = some 4 ∧ 0 < midway.run.length
    ∧ midway.run.length < 4 := by decide
theorem witness_EncodeCommandsProgramTheDevice :
    ready.params.wf ∧ ready.dev.aligned ∧ ready.dev.undef = false ∧ ready.accepts 68 := by decide
/-- A chain the command does not select, and the one its first SELECT cuts short. -/
theorem witness_EncodeCommandsLeaveOtherChains :
    { ready with dev := midway }.params.wf ∧ midway.aligned ∧ laneOf (.encTmr 1) = .command
    ∧ { ready with dev := midway }.accepts (2 * (emission (.encTmr 1) { ready with dev := midway }).length)
    ∧ (∃ t, exec (.encTmr 1) { ready with dev := midway } = .next t)
    ∧ (∀ a, Cmd.sel a ∈ emission (.encTmr 1) { ready with dev := midway } → a.toNat ≠ 0x38 ∧ a.toNat ≠ 0x20) := by
  refine ⟨by decide, by decide, rfl, by decide, ⟨_, rfl⟩, fun a h => ?_⟩
  have e : emission (.encTmr 1) { ready with dev := midway } = [.sel 0x3A#32, .chn 0#32, .sel 0x3B#32, .chn 0#32] := by decide
  have h' : a = 0x3A#32 ∨ a = 0x3B#32 := by simpa [e] using h
  rcases h' with rfl | rfl <;> decide
/-- One word short and one word over. -/
theorem witness_WrongLengthVoidsTheAddress :
    (programLength (0x20#32).toNat = some 4 ∧ [1#32, 2#32, 3#32] ≠ [] ∧ [1#32, 2#32, 3#32].length ≠ 4)
    ∧ programLength (0x38#32).toNat = some 1 ∧ [1#32, 2#32] ≠ [] ∧ [1#32, 2#32].length ≠ 1 := by decide
/-- Nothing selected, and an unmapped address selected. -/
theorem witness_ChainWithoutMappedTargetIsUndefined :
    (∀ a, Dev.start.sel = some a → programLength a.toNat = none)
    ∧ ∀ a, { Dev.start with sel := some 0x43#32 }.sel = some a → programLength a.toNat = none := by
  refine ⟨fun a h => absurd h (by simp [Dev.start]), fun a h => ?_⟩
  rw [← Option.some.inj h]
  decide
theorem witness_UndefinedUntilAllAddressesReprogrammed : Dev.start.setUndef.wf ∧ Dev.start.setUndef.undef = true := by
  refine ⟨⟨by decide, by decide, by decide, by decide, fun _ => ⟨0, by decide, rfl⟩, by decide⟩, rfl⟩
theorem witness_ProgramOrderDoesNotMatter : 0x38#32 ≠ 0x0F#32 ∧ programLength (0x38#32).toNat = some [1#32].length
    ∧ programLength (0x0F#32).toNat = some [2#32].length := by decide
theorem witness_CutFrameIsNeverMisread :
    ({ ready with dev := { Dev.start with frag := [0x9F#8, 0xFF#8] } }.dev.frag ≠ []
      ∧ { ready with dev := { Dev.start with frag := [0x9F#8, 0xFF#8] } }.params.framingRestarts = false)
    ∧ { ready with
        params := { Params.default with framingRestarts := true }
        dev := { Dev.start with frag := [0x9E#8] } }.params.framingRestarts = true
    ∧ { Dev.start with frag := [0x9E#8] }.stopped = false := by decide
/-- Two programs (ENCTMR), from the middle of another one; and a consumer that has stopped. -/
theorem witness_ReEncodingIsIdempotent :
    (∃ t u, exec (.encTmr 1) { ready with dev := midway } = .next t ∧ exec (.encTmr 1) t = .next u)
    ∧ { ready with dev := midway }.params.wf ∧ midway.frag = [] ∧ laneOf (.encTmr 1) = .command
    ∧ Instr.encTmr 1 ≠ .reset
    ∧ { ready with dev := midway }.accepts (4 * (emission (.encTmr 1) { ready with dev := midway }).length)
    ∧ Dev.start.unparseable.stopped = true :=
  ⟨⟨_, _, rfl, rfl⟩, by decide, rfl, rfl, by simp, by decide, rfl⟩
/-- A step of each kind: an encode command, RESET. -/
theorem witness_FramesComeFromEncodeCommands :
    (∃ t, step (presented [0x23#8, 0#8, 0#8]) = .next t) ∧ (presented [0x23#8, 0#8, 0#8]).inner = none
    ∧ decode .command [0x23#8, 0#8, 0#8] = .ok (.encTmr 0)
    ∧ (∃ t, step (presented [0x00#8]) = .next t) ∧ decode .command [0x00#8] = .ok .reset :=
  ⟨⟨_, rfl⟩, rfl, by decide, ⟨_, rfl⟩, by decide⟩

end Sys2Proof.Tests
end

/-! SUPPORT. The statements of 10_state.md: what an instruction leaves unchanged, how the stream grows, what the encode commands
leave in the device, and the state at power-on. The rules they rest on stand first. -/

namespace Sys2Proof.Proofs
open Sys2Proof Sys2Proof.Machine Sys2Proof.Laws

/-! ## Who writes the registers -/

/-- The fourteen configuration commands of the level builder (R181 to R194). -/
def IsBuilderCommand (i : Instr) : Prop :=
  (∃ n, i = .forState n) ∨ (∃ x, i = .whileStoring x) ∨ (∃ x, i = .ifTarget x)
    ∨ (∃ n, i = .occurs n) ∨ (∃ x n, i = .elseTarget x n) ∨ i = .lastState ∨ i = .continueToNextState
    ∨ i = .onHitRaiseTrigger ∨ i = .onHitStartTimer1 ∨ i = .onHitStartTimer2 ∨ i = .onHitStopTimer1
    ∨ i = .onHitStopTimer2 ∨ i = .onHitClearTimer1 ∨ i = .onHitClearTimer2

/-- The bank, the builder and the level register are the same in both states. -/
structure SameRegisters (s t : State) : Prop where
  bank : t.bank = s.bank
  b : t.b = s.b
  lvl : t.lvl = s.lvl

/-- A command that emits writes no register, whatever the sink answers (R216, R236). -/
theorem runEmission_sameRegisters {cs : List Cmd} {s t : State} (h : runEmission cs s = .next t) : SameRegisters s t := by
  rcases runEmission_cases cs s with ⟨-, e⟩ | ⟨n, taken, -, -, -, e⟩ <;> rw [e] at h <;> cases h <;> exact ⟨rfl, rfl, rfl⟩

theorem runInvalid_sameRegisters {s t : State} (h : runInvalid s = .next t) : SameRegisters s t := by
  cases h; exact ⟨rfl, rfl, rfl⟩

/-- Everything an instruction can do to the registers: the one write of a setter, of RESET, of `build` or of a builder
command, or nothing. -/
inductive RegisterStep (s : State) : Instr → State → Prop
  | setPat {k : Int} {v m : Word} (j : Fin 10) : RegisterStep s (.setPat k v m) ((s.setPat j ⟨v, m⟩).complete none)
  | setRng {r : Int} {l u m : Word} (j : Fin 2) : RegisterStep s (.setRng r l u m) ((s.setRng j ⟨l, u, m⟩).complete none)
  | setEdg {e : Int} {x y z : Word} (j : Fin 2) : RegisterStep s (.setEdg e x y z) ((s.setEdg j ⟨x, y, z⟩).complete none)
  | setTmr {k : Int} {v : Threshold} (j : Fin 2) : RegisterStep s (.setTmr k v) ((s.setTmr j v).complete none)
  | reset : RegisterStep s .reset (s.resetRegisters.complete none)
  | build : RegisterStep s .build (s.build.complete none)
  | builder {i : Instr} {w : Level → Level} (hi : IsBuilderCommand i) : RegisterStep s i ((s.setB w).complete none)
  | same {i : Instr} {t : State} (h : SameRegisters s t) : RegisterStep s i t

/-- Every instruction's effect on the registers is one of these. -/
theorem exec_registerStep {i : Instr} {s t : State} (h : exec i s = .next t) : RegisterStep s i t := by
  cases i
  case select | chain | addrFsmDesc | addrPattern | addrRange | addrEdge | addrTimer | addrSum | wordPatw | wordRngw
      | wordEdgw | wordTmrlo | wordTmrhi | wordSumf | wordSumm | wordSump | wordCtrl | encSum | encState =>
    exact .same (runEmission_sameRegisters h)
  case encPat | encRng | encEdg | encTmr =>
    simp only [exec, execEncPat, execEncRng, execEncEdg, execEncTmr] at h
    split at h
    · exact .same (runInvalid_sameRegisters h)
    · exact .same (runEmission_sameRegisters h)
  case lut | isInv =>
    simp only [exec, execLut, execIsInv] at h
    split at h
    · exact .same (runInvalid_sameRegisters h)
    · cases h; exact .same ⟨rfl, rfl, rfl⟩
  case setPat | setRng | setEdg | setTmr =>
    simp only [exec, execSetPat, execSetRng, execSetEdg, execSetTmr] at h
    split at h
    · exact .same (runInvalid_sameRegisters h)
    · cases h; constructor
  case reset => cases h; exact .reset
  case build => cases h; exact .build
  case lastState | continueToNextState | onHitRaiseTrigger | onHitStartTimer1 | onHitStartTimer2 | onHitStopTimer1
      | onHitStopTimer2 | onHitClearTimer1 | onHitClearTimer2 =>
    cases h; exact .builder (by simp [IsBuilderCommand])
  case forState | whileStoring | ifTarget | occurs =>
    simp only [exec, execForState, execWhileStoring, execIfTarget, execOccurs] at h
    split at h
    · exact .same (runInvalid_sameRegisters h)
    · cases h; exact .builder (by simp [IsBuilderCommand])
  case elseTarget =>
    simp only [exec, execElseTarget] at h
    split at h
    · cases h; exact .builder (by simp [IsBuilderCommand])
    · exact .same (runInvalid_sameRegisters h)

section
variable {i : Instr} {s t : State}

theorem RegisterStep.pat (h : RegisterStep s i t) :
    t.bank.pat = s.bank.pat ∨ i = .reset ∨ ∃ k v m, i = .setPat k v m := by
  cases h with
  | same h => exact .inl (congrArg Bank.pat h.bank)
  | setPat => exact .inr (.inr ⟨_, _, _, rfl⟩)
  | _ => simp

theorem RegisterStep.rng (h : RegisterStep s i t) :
    t.bank.rng = s.bank.rng ∨ i = .reset ∨ ∃ r l u m, i = .setRng r l u m := by
  cases h with
  | same h => exact .inl (congrArg Bank.rng h.bank)
  | setRng => exact .inr (.inr ⟨_, _, _, _, rfl⟩)
  | _ => simp

theorem RegisterStep.edg (h : RegisterStep s i t) :
    t.bank.edg = s.bank.edg ∨ i = .reset ∨ ∃ e x y z, i = .setEdg e x y z := by
  cases h with
  | same h => exact .inl (congrArg Bank.edg h.bank)
  | setEdg => exact .inr (.inr ⟨_, _, _, _, rfl⟩)
  | _ => simp

theorem RegisterStep.tmr (h : RegisterStep s i t) :
    t.bank.tmr = s.bank.tmr ∨ i = .reset ∨ ∃ k v, i = .setTmr k v := by
  cases h with
  | same h => exact .inl (congrArg Bank.tmr h.bank)
  | setTmr => exact .inr (.inr ⟨_, _, rfl⟩)
  | _ => simp

theorem RegisterStep.b (h : RegisterStep s i t) : t.b = s.b ∨ i = .reset ∨ i = .build ∨ IsBuilderCommand i := by
  cases h with
  | same h => exact .inl h.b
  | builder hi => exact .inr (.inr (.inr hi))
  | _ => simp

theorem RegisterStep.lvl (h : RegisterStep s i t) : t.lvl = s.lvl ∨ i = .reset ∨ i = .build := by
  cases h with
  | same h => exact .inl h.lvl
  | _ => simp

end

/-! ## Who writes OUT, the device and the sink's answers -/

/-- An instruction that emits nothing leaves the device and the sink's answers alone, and OUT too unless it is RESET. -/
theorem exec_of_emission_nil {i : Instr} {s t : State} (h : exec i s = .next t) (he : emission i s = []) :
    t.dev = s.dev ∧ t.sink = s.sink ∧ t.sinkCalls = s.sinkCalls ∧ (i ≠ .reset → t.out = s.out) := by
  rcases exec_cases i s with ⟨-, hne, -⟩ | ⟨-, -, t', e, -, hdev, hsink, hcalls, hout, -⟩ | ⟨-, -, e⟩
  · exact absurd he hne
  · rw [e] at h; cases h; exact ⟨hdev, hsink, hcalls, hout⟩
  · rw [e] at h; cases h; exact ⟨rfl, rfl, rfl, fun _ => rfl⟩

/-- A command that emits appends to OUT the front of its frames that the sink accepted (R236). -/
theorem runEmission_out {cs : List Cmd} {s t : State} (h : runEmission cs s = .next t) :
    ∃ bytes, t.out = s.out ++ bytes := by
  rcases runEmission_cases cs s with ⟨-, e⟩ | ⟨n, taken, -, -, -, e⟩ <;> rw [e] at h <;> cases h <;> exact ⟨_, rfl⟩

/-- Every instruction but RESET extends OUT. -/
theorem exec_out {i : Instr} {s t : State} (h : exec i s = .next t) (hi : i ≠ .reset) :
    ∃ bytes, t.out = s.out ++ bytes := by
  by_cases he : emission i s = []
  · obtain ⟨-, -, -, hout⟩ := exec_of_emission_nil h he
    exact ⟨[], by rw [hout hi, List.append_nil]⟩
  · rcases exec_cases i s with ⟨-, -, e⟩ | ⟨-, hnil, -⟩ | ⟨-, hnil, -⟩
    · exact runEmission_out (e ▸ h)
    · exact absurd hnil he
    · exact absurd hnil he

/-- Settles O45: the registers by `exec_registerStep`, OUT, the device and the sink by `exec_of_emission_nil`, the inputs
by `exec_inputs`. -/
theorem registersHaveTheirOwnWriters : Obligations.RegistersHaveTheirOwnWriters := by
  intro i s t h
  have hout : t.out = s.out ∨ i = .reset ∨ emission i s ≠ [] := by
    by_cases he : emission i s = []
    · obtain ⟨-, -, -, hout⟩ := exec_of_emission_nil h he
      by_cases hi : i = .reset
      · exact .inr (.inl hi)
      · exact .inl (hout hi)
    · exact .inr (.inr he)
  have hdev : (t.dev = s.dev ∧ t.sink = s.sink ∧ t.sinkCalls = s.sinkCalls) ∨ emission i s ≠ [] := by
    by_cases he : emission i s = []
    · obtain ⟨hd, hs, hc, -⟩ := exec_of_emission_nil h he
      exact .inl ⟨hd, hs, hc⟩
    · exact .inr he
  have hreg := exec_registerStep h
  exact ⟨hreg.pat, hreg.rng, hreg.edg, hreg.tmr, hreg.b, hreg.lvl, hout, hdev, exec_inputs h⟩

/-- Settles O46. -/
theorem streamOnlyGrows : Obligations.StreamOnlyGrows := by
  intro i s t h hi
  refine ⟨exec_out h hi, fun he => ?_⟩
  obtain ⟨hdev, hsink, hcalls, hout⟩ := exec_of_emission_nil h he
  exact ⟨hout hi, hdev, hsink, hcalls⟩

/-! ## What complete programs leave in the device -/

/-- No two programs of the list are of one address. -/
abbrev DistinctAddresses (ps : List (Word × List Word)) : Prop := ps.Pairwise fun p q => p.1.toNat ≠ q.1.toNat

/-- Complete programs of distinct addresses define each of them. -/
theorem read_programs_mem {ps : List (Word × List Word)} (h : CompletePrograms ps) (hd : DistinctAddresses ps)
    {q : Word × List Word} (hq : q ∈ ps) (d : Dev) :
    ((cmdsOf ps).foldl Dev.onCmd d).img.read q.1.toNat = some q.2 := by
  induction ps generalizing d with
  | nil => cases hq
  | cons p ps ih =>
    obtain ⟨hp, hps⟩ := List.forall_mem_cons.1 h
    obtain ⟨hne, hd⟩ := List.pairwise_cons.1 hd
    simp only [cmdsOf, List.flatMap_cons, List.foldl_append]
    rcases List.mem_cons.1 hq with rfl | hq
    · obtain ⟨-, -, -, hread⟩ := foldl_program d q.1 q.2 hp
      rw [read_programs_frame hps (fun r hr => (hne r hr).symm) (runComplete_program d hp), hread, if_pos rfl]
    · exact ih hps hd hq _

/-- Complete programs do not make the device undefined. -/
theorem undef_programs {ps : List (Word × List Word)} (h : CompletePrograms ps) {d : Dev} (hu : d.undef = false) :
    ((cmdsOf ps).foldl Dev.onCmd d).undef = false := by
  induction ps generalizing d with
  | nil => exact hu
  | cons p ps ih =>
    obtain ⟨hp, hps⟩ := List.forall_mem_cons.1 h
    obtain ⟨-, -, hund, -⟩ := foldl_program d p.1 p.2 hp
    simp only [cmdsOf, List.flatMap_cons, List.foldl_append]
    exact ih hps (hund hu)

/-- A command that emits complete programs of distinct addresses, on an accepting sink: the device then holds each of them
(R52). -/
theorem runEmission_programs {ps : List (Word × List Word)} {s : State} (h : CompletePrograms ps)
    (hd : DistinctAddresses ps) (ha : s.dev.aligned) (hu : s.dev.undef = false) (hacc : s.accepts (2 * (cmdsOf ps).length)) :
    ∃ t, runEmission (cmdsOf ps) s = .next t ∧ ∀ q ∈ ps, t.deviceHolds q.1.toNat q.2 := by
  refine ⟨_, runEmission_ok hacc, fun q hq => ?_⟩
  rw [State.deviceHolds, complete_dev, sent_dev, feedAll_framesOf _ _ ha]
  exact ⟨undef_programs h hu, read_programs_mem h hd hq _⟩

/-! ## The addresses of the encode commands and their program lengths -/

theorem toNat_patAddress (k : Fin 10) : (patAddress k).toNat = 0x20 + k.val := by revert k; decide
theorem toNat_rngAddress (r : Fin 2) : (rngAddress r).toNat = 0x30 + 2 * r.val := by revert r; decide
theorem toNat_rngAddress_upper (r : Fin 2) : (rngAddress r + 1#32).toNat = 0x31 + 2 * r.val := by revert r; decide
theorem toNat_edgAddress (e : Fin 2) : (edgAddress e).toNat = 0x34 + e.val := by revert e; decide
theorem toNat_tmrAddress (i : Fin 2) : (tmrAddress i).toNat = 0x38 + 2 * i.val := by revert i; decide
theorem toNat_tmrAddress_high (i : Fin 2) : (tmrAddress i + 1#32).toNat = 0x39 + 2 * i.val := by revert i; decide
theorem toNat_descriptorAddress (n : BitVec 4) : (descriptorAddress n).toNat = n.toNat := by revert n; decide
theorem toNat_sumAddress_hit (n : BitVec 4) : (sumAddress n .hit).toNat = 0x40 + 4 * n.toNat := by revert n; decide
theorem toNat_sumAddress_els (n : BitVec 4) : (sumAddress n .els).toNat = 0x41 + 4 * n.toNat := by revert n; decide
theorem toNat_sumAddress_capture (n : BitVec 4) : (sumAddress n .capture).toNat = 0x42 + 4 * n.toNat := by
  revert n; decide

theorem programLength_pat (k : Fin 10) : programLength (patAddress k).toNat = some 4 := by revert k; decide
theorem programLength_rng (r : Fin 2) : programLength (rngAddress r).toNat = some 16 := by revert r; decide
theorem programLength_rng_upper (r : Fin 2) : programLength (rngAddress r + 1#32).toNat = some 16 := by revert r; decide
theorem programLength_edg (e : Fin 2) : programLength (edgAddress e).toNat = some 8 := by revert e; decide
theorem programLength_tmr (i : Fin 2) : programLength (tmrAddress i).toNat = some 1 := by revert i; decide
theorem programLength_tmr_high (i : Fin 2) : programLength (tmrAddress i + 1#32).toNat = some 1 := by revert i; decide
theorem programLength_descriptor (n : BitVec 4) : programLength (descriptorAddress n).toNat = some 1 := by
  revert n; decide
theorem programLength_sum (n : BitVec 4) (role : Role) : programLength (sumAddress n role).toNat = some 6 := by
  cases role <;> revert n <;> decide

/-! ## The programs of a host command -/

/-- The programs a host command emits, each an address and its words, in order (R114, R122, R129, R131, R147, R165). -/
def programsOf (i : Instr) (s : State) : List (Word × List Word) :=
  match i with
  | .encPat k => (checkIndex 10 k).elim [] fun k => [(patAddress k, patWords s.bank.pat[k])]
  | .encRng r => (checkIndex 2 r).elim [] fun r =>
      [(rngAddress r, rngWords s.params.halfOrder (targetLo s.bank.rng[r].lower) s.bank.rng[r].mask),
        (rngAddress r + 1#32, rngWords s.params.halfOrder (targetHi s.bank.rng[r].upper) s.bank.rng[r].mask)]
  | .encEdg e => (checkIndex 2 e).elim [] fun e => [(edgAddress e, edgWords s.params.halfOrder s.bank.edg[e])]
  | .encTmr t => (checkIndex 2 t).elim [] fun t =>
      [(tmrAddress t, [tmrLow s.bank.tmr[t]]), (tmrAddress t + 1#32, [tmrHigh s.bank.tmr[t]])]
  | .encSum role => [(sumAddress s.lvl.state role, sumWords s.params (s.lvl.sumOf role))]
  | .encState =>
      [(descriptorAddress s.lvl.state, [ctrl s.lvl]), (sumAddress s.lvl.state .capture, sumWords s.params s.lvl.cap),
        (sumAddress s.lvl.state .hit, sumWords s.params s.lvl.hit), (sumAddress s.lvl.state .els, sumWords s.params s.lvl.els)]
  | _ => []

/-- What a host command emits is its programs, one after another. -/
theorem emission_eq_cmdsOf {i : Instr} (hl : laneOf i = .command) (s : State) : emission i s = cmdsOf (programsOf i s) := by
  cases i
  case encPat k => cases hk : checkIndex 10 k <;> simp [emission, programsOf, hk, patProgram]
  case encRng r => cases hr : checkIndex 2 r <;> simp [emission, programsOf, hr, rngProgram]
  case encEdg e => cases he : checkIndex 2 e <;> simp [emission, programsOf, he, edgProgram]
  case encTmr t => cases ht : checkIndex 2 t <;> simp [emission, programsOf, ht, tmrProgram]
  case encSum role => simp [emission, programsOf, sumProgram]
  case encState => simp [emission, programsOf, stateProgram, sumProgram]
  case select | chain | addrFsmDesc | addrPattern | addrRange | addrEdge | addrTimer | addrSum | wordPatw | wordRngw
      | wordEdgw | wordTmrlo | wordTmrhi | wordSumf | wordSumm | wordSump | wordCtrl => cases hl
  all_goals rfl

theorem cmdsOf_eq_nil {ps : List (Word × List Word)} (h : cmdsOf ps = []) : ps = [] := by
  cases ps with
  | nil => rfl
  | cons p ps => cases h

theorem completePrograms_nil : CompletePrograms [] := fun _ h => by cases h

theorem completePrograms_cons {a : Word} {ws : List Word} {n : Nat} {ps : List (Word × List Word)}
    (hn : programLength a.toNat = some n) (hl : ws.length = n) (h : CompletePrograms ps) : CompletePrograms ((a, ws) :: ps) :=
  List.forall_mem_cons.2 ⟨hl ▸ hn, h⟩

/-- With legal parameters every program of a host command is complete (R46, R47). -/
theorem programsOf_complete {s : State} (hp : s.params.wf) (i : Instr) : CompletePrograms (programsOf i s) := by
  have hsum (c : SumCfg) : (sumWords s.params c).length = 6 := (length_sumWords _ _).trans hp.2.1
  cases i
  case encPat k =>
    cases hk : checkIndex 10 k with
    | none => simp [programsOf, hk]
    | some k =>
      simp only [programsOf, hk, Option.elim]
      exact completePrograms_cons (programLength_pat k) rfl completePrograms_nil
  case encRng r =>
    cases hr : checkIndex 2 r with
    | none => simp [programsOf, hr]
    | some r =>
      simp only [programsOf, hr, Option.elim]
      exact completePrograms_cons (programLength_rng r) (length_rngWords ..)
        (completePrograms_cons (programLength_rng_upper r) (length_rngWords ..) completePrograms_nil)
  case encEdg e =>
    cases he : checkIndex 2 e with
    | none => simp [programsOf, he]
    | some e =>
      simp only [programsOf, he, Option.elim]
      exact completePrograms_cons (programLength_edg e) (length_edgWords ..) completePrograms_nil
  case encTmr t =>
    cases ht : checkIndex 2 t with
    | none => simp [programsOf, ht]
    | some t =>
      simp only [programsOf, ht, Option.elim]
      exact completePrograms_cons (programLength_tmr t) rfl
        (completePrograms_cons (programLength_tmr_high t) rfl completePrograms_nil)
  case encSum role => exact completePrograms_cons (programLength_sum _ role) (hsum _) completePrograms_nil
  case encState =>
    exact completePrograms_cons (programLength_descriptor _) rfl <|
      completePrograms_cons (programLength_sum _ .capture) (hsum _) <|
      completePrograms_cons (programLength_sum _ .hit) (hsum _) <|
      completePrograms_cons (programLength_sum _ .els) (hsum _) completePrograms_nil
  all_goals exact completePrograms_nil

/-- A host command programs no address twice. -/
theorem programsOf_distinct (i : Instr) (s : State) : DistinctAddresses (programsOf i s) := by
  cases i
  case encPat k => cases hk : checkIndex 10 k <;> simp [programsOf, hk]
  case encRng r =>
    cases hr : checkIndex 2 r with
    | none => simp [programsOf, hr]
    | some r =>
      simp only [programsOf, hr, Option.elim, DistinctAddresses, List.pairwise_pair, toNat_rngAddress, toNat_rngAddress_upper]
      omega
  case encEdg e => cases he : checkIndex 2 e <;> simp [programsOf, he]
  case encTmr t =>
    cases ht : checkIndex 2 t with
    | none => simp [programsOf, ht]
    | some t =>
      simp only [programsOf, ht, Option.elim, DistinctAddresses, List.pairwise_pair, toNat_tmrAddress, toNat_tmrAddress_high]
      omega
  case encSum role => exact List.pairwise_singleton _ _
  case encState =>
    have := s.lvl.state.isLt
    simp only [programsOf, DistinctAddresses, List.pairwise_cons, List.forall_mem_cons, List.not_mem_nil, false_imp_iff,
      implies_true, and_true, List.Pairwise.nil, toNat_descriptorAddress, toNat_sumAddress_hit, toNat_sumAddress_els, toNat_sumAddress_capture]
    omega
  all_goals exact List.Pairwise.nil

/-- No host command emits more than the 34 frames of ENCRNG (R217). -/
theorem length_cmdsOf_programsOf {s : State} (hp : s.params.wf) (i : Instr) : (cmdsOf (programsOf i s)).length ≤ 34 := by
  obtain ⟨-, hsix, -⟩ := hp
  cases i
  case encPat k => cases hk : checkIndex 10 k <;> simp [programsOf, hk, programOf, patWords]
  case encRng r => cases hr : checkIndex 2 r <;> simp [programsOf, hr, programOf]
  case encEdg e => cases he : checkIndex 2 e <;> simp [programsOf, he, programOf]
  case encTmr t => cases ht : checkIndex 2 t <;> simp [programsOf, ht, programOf]
  case encSum role => simp [programsOf, programOf, hsix]
  case encState => simp [programsOf, programOf, hsix]
  all_goals exact Nat.zero_le _

/-- After a host command on an accepting sink the device holds every program of it. -/
theorem exec_deviceHolds {i : Instr} (hl : laneOf i = .command) {s : State} (hp : s.params.wf) (ha : s.dev.aligned)
    (hu : s.dev.undef = false) (hacc : s.accepts 68) :
    ∃ t, exec i s = .next t ∧ ∀ q ∈ programsOf i s, t.deviceHolds q.1.toNat q.2 := by
  have hnil (he : emission i s = []) : programsOf i s = [] := cmdsOf_eq_nil (emission_eq_cmdsOf hl s ▸ he)
  rcases exec_cases i s with ⟨-, -, e⟩ | ⟨-, he, t, e, -⟩ | ⟨-, he, e⟩
  · rw [e, emission_eq_cmdsOf hl s]
    have hlen := length_cmdsOf_programsOf hp i
    exact runEmission_programs (programsOf_complete hp i) (programsOf_distinct i s) ha hu (accepts_mono hacc (by omega))
  · exact ⟨t, e, by simp [hnil he]⟩
  · exact ⟨_, e, by simp [hnil he]⟩

/-- Settles O52: every clause is `exec_deviceHolds` at the addresses of one encode command. -/
theorem encodeCommandsProgramTheDevice : Obligations.EncodeCommandsProgramTheDevice := by
  intro s hp ha hu hacc
  have holds (i : Instr) (hl : laneOf i = .command) := exec_deviceHolds hl hp ha hu hacc
  refine ⟨fun k => ?_, fun r => ?_, fun e => ?_, fun i => ?_, ?_, ?_, ?_, ?_⟩
  · obtain ⟨t, ht, h⟩ := holds (.encPat (k.val : Int)) rfl
    simp only [programsOf, checkIndex_val, Option.elim, List.forall_mem_singleton, toNat_patAddress] at h
    exact ⟨t, ht, h⟩
  · obtain ⟨t, ht, h⟩ := holds (.encRng (r.val : Int)) rfl
    simp only [programsOf, checkIndex_val, Option.elim, List.forall_mem_cons, toNat_rngAddress, toNat_rngAddress_upper] at h
    exact ⟨t, ht, h.1, h.2.1⟩
  · obtain ⟨t, ht, h⟩ := holds (.encEdg (e.val : Int)) rfl
    simp only [programsOf, checkIndex_val, Option.elim, List.forall_mem_singleton, toNat_edgAddress] at h
    exact ⟨t, ht, h⟩
  · obtain ⟨t, ht, h⟩ := holds (.encTmr (i.val : Int)) rfl
    simp only [programsOf, checkIndex_val, Option.elim, List.forall_mem_cons, toNat_tmrAddress, toNat_tmrAddress_high] at h
    exact ⟨t, ht, h.1, h.2.1⟩
  · obtain ⟨t, ht, h⟩ := holds (.encSum .hit) rfl
    simp only [programsOf, List.forall_mem_singleton, toNat_sumAddress_hit] at h
    exact ⟨t, ht, h⟩
  · obtain ⟨t, ht, h⟩ := holds (.encSum .els) rfl
    simp only [programsOf, List.forall_mem_singleton, toNat_sumAddress_els] at h
    exact ⟨t, ht, h⟩
  · obtain ⟨t, ht, h⟩ := holds (.encSum .capture) rfl
    simp only [programsOf, List.forall_mem_singleton, toNat_sumAddress_capture] at h
    exact ⟨t, ht, h⟩
  · obtain ⟨t, ht, h⟩ := holds .encState rfl
    simp only [programsOf, List.forall_mem_cons, toNat_descriptorAddress, toNat_sumAddress_capture, toNat_sumAddress_hit,
      toNat_sumAddress_els] at h
    obtain ⟨hctrl, hcap, hhit, hels, -⟩ := h
    exact ⟨t, ht, hctrl, hcap, hhit, hels⟩

/-! ## Power-on -/

/-- Every operation of the default sum is NOP and every term disabled (R21). -/
theorem sum0_fields : (∀ p : Fin 8, SumCfg.sum0.pair[p] = .nop) ∧ (∀ m : Fin 2, SumCfg.sum0.mid[m] = .nop)
    ∧ SumCfg.sum0.final = .nop ∧ ∀ l : Fin 16, SumCfg.sum0.leafIn[l] = .disabled := by
  simp [SumCfg.sum0]

/-- Settles O48: the three sums are `SUM0`, the bank is made of zeros. -/
theorem powerOnValues : Obligations.PowerOnValues := by
  refine ⟨fun c hc => ?_, rfl, rfl, rfl, by decide, rfl, ?_, ?_, ?_, ?_, rfl, rfl, rfl, rfl, fun _ => rfl⟩
  · obtain rfl : c = SumCfg.sum0 := by simpa [State.reset, Level.level0] using hc
    exact sum0_fields
  all_goals simp [State.reset, Bank.zero]

/-- The default parameters are legal (R3). -/
theorem default_params_wf : Params.default.wf := by decide

/-- The consumer at the start of a run is well formed: nothing is listed, nothing is selected (R56). -/
theorem start_wf : Dev.start.wf :=
  ⟨empty_wf, by simp [Dev.start], ⟨by decide, by simp [Dev.start]⟩, fun _ => rfl, by simp [Dev.start], by simp [Dev.start]⟩

/-- Settles O50. -/
theorem powerOnMeetsTheInvariant : Obligations.PowerOnMeetsTheInvariant := ⟨default_params_wf, start_wf, fun _ => rfl⟩

end Sys2Proof.Proofs

/-! SUPPORT. The statements of 20_memory.md: the chain address map in the decoder, the address formats and the emitted
programs, what the reference consumer does with a program of the right and of a wrong length and with a word that has no
target, and the invariant that every step keeps. -/

namespace Sys2Proof.Proofs
open Sys2Proof Sys2Proof.Machine Sys2Proof.Laws

/-! ## The invariant of a run -/

/-- The invariant reads the parameters and the consumer alone. -/
theorem inv_of_same {s t : State} (hp : t.params = s.params) (hd : t.dev = s.dev) (h : s.Inv) : t.Inv := by
  unfold State.Inv at h ⊢
  rwa [hp, hd]

/-- Whole frames leave the consumer at a frame boundary, or stopped if it had stopped (R42, R50). -/
theorem feedAll_framesOf_boundary {d : Dev} (h : d.stopped = false → d.frag = []) (cs : List Cmd) :
    (d.feedAll (framesOf cs)).stopped = false → (d.feedAll (framesOf cs)).frag = [] := by
  cases hs : d.stopped with
  | true =>
    rw [feedAll_of_stopped d _ hs]
    exact h
  | false =>
    rw [feedAll_framesOf d cs ⟨hs, h hs⟩]
    exact fun _ => (foldl_onCmd_aligned cs ⟨hs, h hs⟩).2

/-- A command that emits keeps the invariant, wherever its emission stops. -/
theorem runEmission_inv {cs : List Cmd} {s t : State} (hi : s.Inv) (h : runEmission cs s = .next t) : t.Inv := by
  obtain ⟨hp, hw, hb⟩ := hi
  rcases runEmission_cases cs s with ⟨-, e⟩ | ⟨n, taken, -, -, -, e⟩ <;> rw [e] at h <;> cases h
  · exact ⟨hp, feedAll_wf _ hw, feedAll_framesOf_boundary hb cs⟩
  · exact ⟨hp, ioFailure_wf _ (feedAll_wf _ hw)⟩

theorem exec_inv {i : Instr} {s t : State} (hi : s.Inv) (h : exec i s = .next t) : t.Inv := by
  rcases exec_cases i s with ⟨-, -, e⟩ | ⟨-, he, -⟩ | ⟨-, he, -⟩
  · exact runEmission_inv hi (e ▸ h)
  all_goals
    obtain ⟨hdev, -⟩ := exec_of_emission_nil h he
    exact inv_of_same (exec_inputs h).1 hdev hi

/-- Settles O49: a step waits, runs one instruction (`exec_inv`), or answers a packet that no row reads. -/
theorem everyStepKeepsTheInvariant : Obligations.EveryStepKeepsTheInvariant := by
  intro s t hi h
  rcases step_cases h with ⟨-, -, rfl⟩ | ⟨p, i, -, -, he⟩ | ⟨p, -, -, rfl⟩ | ⟨bytes, rest, i, -, -, -, he⟩
    | ⟨bytes, rest, -, -, rfl⟩
  · exact hi
  · refine exec_inv (inv_of_same (s := s) ?_ ?_ hi) he <;> rfl
  · exact inv_of_same rfl rfl hi
  · refine exec_inv (inv_of_same (s := s) ?_ ?_ hi) he <;> rfl
  · exact inv_of_same rfl rfl hi

/-! ## What the decoder can answer -/

/-- Every answer of a reader that is not an error satisfies `P`. -/
def AnswersOnly {α : Type} (P : α → Prop) (r : Except DecodeError α) : Prop := ∀ x, r = .ok x → P x

section AnswersOnly
variable {α β : Type} {P : α → Prop}

@[simp] theorem answersOnly_ok {x : α} : AnswersOnly P (.ok x) ↔ P x := by simp [AnswersOnly]

@[simp] theorem answersOnly_error {e : DecodeError} : AnswersOnly P (.error e) ↔ True := by simp [AnswersOnly]

@[simp] theorem answersOnly_ite {c : Prop} [Decidable c] {a b : Except DecodeError α} :
    AnswersOnly P (if c then a else b) ↔ (c → AnswersOnly P a) ∧ (¬c → AnswersOnly P b) := by
  split <;> simp [*]

/-- What is answered after an item was read is answered by what follows it. -/
theorem answersOnly_bind {m : Except DecodeError β} {g : β → Except DecodeError α} (h : ∀ y, AnswersOnly P (g y)) :
    AnswersOnly P (m >>= g) := by
  cases m with
  | ok y => exact h y
  | error e => exact answersOnly_error.2 trivial

/-- The answer of a reader without a rest, returned with one. -/
theorem answersOnly_withRest {r : Except DecodeError α} (h : AnswersOnly P r) (rest : List Byte) :
    AnswersOnly (fun p : α × List Byte => P p.1) (r >>= fun x => .ok (x, rest)) := by
  cases r with
  | ok x => exact answersOnly_ok.2 (h x rfl)
  | error e => exact answersOnly_error.2 trivial

end AnswersOnly

/-- The instruction is one of the table and its bytes stand on this lane. -/
abbrev StandsOn (lane : Lane) (i : Instr) : Prop := i.wellFormed = true ∧ laneOf i = lane

theorem decodeFrame_standsOn (opcode : Byte) (operand : Word) :
    AnswersOnly (StandsOn .frame) (decodeFrame opcode operand) := by
  simp [decodeFrame, StandsOn, Instr.wellFormed, laneOf]

/-- No unmapped field value gets through the address masks (R74, R75). -/
theorem decodeAddress_standsOn (a : Word) : AnswersOnly (StandsOn .address) (decodeAddress a) := by
  simp +contextual [decodeAddress, StandsOn, Instr.wellFormed, laneOf]

theorem decodeWord_standsOn (f : WordFormat) (w : Word) : AnswersOnly (StandsOn (.data f)) (decodeWord f w) := by
  cases f <;> simp [decodeWord, StandsOn, Instr.wellFormed, laneOf]

theorem decodeCommand_standsOn (n : Byte) (bytes : List Byte) :
    AnswersOnly (fun p => StandsOn .command p.1) (decodeCommand n bytes) := by
  unfold decodeCommand
  split
  all_goals
    repeat refine answersOnly_bind fun _ => ?_
    simp [StandsOn, Instr.wellFormed, laneOf]

theorem decodePrefix_standsOn (lane : Lane) (bytes : List Byte) :
    AnswersOnly (fun p => StandsOn lane p.1) (decodePrefix lane bytes) := by
  cases lane with
  | command => exact answersOnly_bind fun p => decodeCommand_standsOn p.1 p.2
  | frame => exact answersOnly_bind fun p => answersOnly_bind fun q => answersOnly_withRest (decodeFrame_standsOn p.1 q.1) q.2
  | address => exact answersOnly_bind fun p => answersOnly_withRest (decodeAddress_standsOn p.1) p.2
  | data f => exact answersOnly_bind fun p => answersOnly_withRest (decodeWord_standsOn f p.1) p.2

theorem decode_eq_ok {lane : Lane} {bytes : List Byte} {i : Instr} (h : decode lane bytes = .ok i) :
    decodePrefix lane bytes = .ok (i, []) := by
  unfold decode at h
  split at h
  · rename_i j hd
    cases h
    exact hd
  · cases h
  · cases h

/-- Settles O2: no reader of a lane answers anything but a well-formed instruction of that lane. -/
theorem decodedIsWellFormedOnItsLane : Obligations.DecodedIsWellFormedOnItsLane :=
  fun lane bytes _ h => decodePrefix_standsOn lane bytes _ (decode_eq_ok h)

/-! ## The chain addresses -/

theorem addrFsmDescWord_eq_ofNat (n : BitVec 4) : addrFsmDescWord n = BitVec.ofNat 32 n.toNat := by
  revert n; decide
theorem addrPatternWord_eq_ofNat (k : BitVec 4) : addrPatternWord k = BitVec.ofNat 32 (0x20 + k.toNat) := by
  revert k; decide
theorem addrRangeWord_eq_ofNat (r b : BitVec 1) :
    addrRangeWord r b = BitVec.ofNat 32 (0x30 + 2 * r.toNat + b.toNat) := by
  revert r b; decide
theorem addrEdgeWord_eq_ofNat (e : BitVec 1) : addrEdgeWord e = BitVec.ofNat 32 (0x34 + e.toNat) := by
  revert e; decide
theorem addrTimerWord_eq_ofNat (t h : BitVec 1) :
    addrTimerWord t h = BitVec.ofNat 32 (0x38 + 2 * t.toNat + h.toNat) := by
  revert t h; decide
theorem addrSumWord_eq_ofNat (n : BitVec 4) (r : BitVec 2) :
    addrSumWord n r = BitVec.ofNat 32 (0x40 + 4 * n.toNat + r.toNat) := by
  revert n r; decide

/-- Settles O11: each format runs as the SELECT of its bit-field address, which is the number of R46. -/
theorem addressFormatsSelect : Obligations.AddressFormatsSelect := by
  intro s hacc
  have selects (a : Word) : runEmission [.sel a] s = .next ((s.sent [.sel a]).complete none) := runEmission_ok hacc
  refine ⟨fun n => ?_, fun k => ?_, fun r b => ?_, fun e => ?_, fun t h => ?_, fun n r => ?_⟩
  · rw [← addrFsmDescWord_eq_ofNat]; exact selects _
  · rw [← addrPatternWord_eq_ofNat]; exact selects _
  · rw [← addrRangeWord_eq_ofNat]; exact selects _
  · rw [← addrEdgeWord_eq_ofNat]; exact selects _
  · rw [← addrTimerWord_eq_ofNat]; exact selects _
  · rw [← addrSumWord_eq_ofNat]; exact selects _

theorem descriptorAddress_eq (n : BitVec 4) : descriptorAddress n = addrFsmDescWord n := by revert n; decide
theorem patAddress_eq (k : Fin 10) : patAddress k = addrPatternWord (BitVec.ofNat 4 k.val) := by revert k; decide
theorem rngAddress_eq (r : Fin 2) : rngAddress r = addrRangeWord (BitVec.ofNat 1 r.val) 0#1 := by revert r; decide
theorem rngAddress_upper_eq (r : Fin 2) : rngAddress r + 1#32 = addrRangeWord (BitVec.ofNat 1 r.val) 1#1 := by
  revert r; decide
theorem edgAddress_eq (e : Fin 2) : edgAddress e = addrEdgeWord (BitVec.ofNat 1 e.val) := by revert e; decide
theorem tmrAddress_eq (t : Fin 2) : tmrAddress t = addrTimerWord (BitVec.ofNat 1 t.val) 0#1 := by revert t; decide
theorem tmrAddress_high_eq (t : Fin 2) : tmrAddress t + 1#32 = addrTimerWord (BitVec.ofNat 1 t.val) 1#1 := by
  revert t; decide
theorem sumAddress_eq (n : BitVec 4) : sumAddress n .hit = addrSumWord n 0#2 ∧ sumAddress n .els = addrSumWord n 1#2
    ∧ sumAddress n .capture = addrSumWord n 2#2 := by
  revert n; decide

/-- Settles O5: class by class, the two forms of the address and its entry in the map. -/
theorem addressFormsAgree : Obligations.AddressFormsAgree :=
  ⟨fun n => ⟨descriptorAddress_eq n, programLength_descriptor n⟩,
    fun k => ⟨patAddress_eq k, programLength_pat k⟩,
    fun r => ⟨rngAddress_eq r, rngAddress_upper_eq r, programLength_rng r, programLength_rng_upper r⟩,
    fun e => ⟨edgAddress_eq e, programLength_edg e⟩,
    fun t => ⟨tmrAddress_eq t, tmrAddress_high_eq t, programLength_tmr t, programLength_tmr_high t⟩,
    fun n =>
      have ⟨hit, els, capture⟩ := sumAddress_eq n
      ⟨hit, els, capture, programLength_sum n⟩⟩

/-- Settles O35: the programs are `programsOf`. -/
theorem emittedProgramsAreComplete : Obligations.EmittedProgramsAreComplete :=
  fun i s hp hl => ⟨programsOf i s, emission_eq_cmdsOf hl s, programsOf_complete hp i⟩

/-! ## Complete programs and the other chains -/

/-- The next SELECT cuts the program of address `b` short: `b` is selected, with words chained but fewer than the map gives
it (R52). -/
abbrev MidProgram (d : Dev) (b : Nat) : Prop :=
  ∃ old n, d.sel = some old ∧ old.toNat = b ∧ programLength b = some n ∧ 0 < d.run.length ∧ d.run.length < n

/-- Settles O51: the consumer over whole frames is `foldl_program`; another address reads as after the SELECT alone. -/
theorem completeProgramDefinesItsChain : Obligations.CompleteProgramDefinesItsChain := by
  intro d a ws ha hn
  obtain ⟨hsel, hrun, hundef, hread⟩ := foldl_program d a ws hn
  rw [feedAll_framesOf d _ ha]
  refine ⟨by rw [hread, if_pos rfl], hsel, hrun, foldl_onCmd_aligned _ ha, hundef, fun b hb => ?_⟩
  rw [hread, if_neg hb.symm]
  exact read_onSelect d a b

/-- Complete programs leave a chain they do not select as it was, unless their first SELECT cuts its program short. -/
theorem read_programs_other {ps : List (Word × List Word)} (h : CompletePrograms ps) {b : Nat}
    (hb : ∀ q ∈ ps, q.1.toNat ≠ b) (d : Dev) :
    ((cmdsOf ps).foldl Dev.onCmd d).img.read b = d.img.read b
    ∨ (((cmdsOf ps).foldl Dev.onCmd d).img.read b = none ∧ MidProgram d b) := by
  cases ps with
  | nil => exact .inl rfl
  | cons p ps =>
    obtain ⟨hp, hps⟩ := List.forall_mem_cons.1 h
    obtain ⟨hpb, hb⟩ := List.forall_mem_cons.1 hb
    obtain ⟨-, -, -, hread⟩ := foldl_program d p.1 p.2 hp
    simp only [cmdsOf, List.flatMap_cons, List.foldl_append]
    rw [read_programs_frame hps hb (runComplete_program d hp), hread, if_neg hpb]
    exact read_onSelect d p.1 b

/-- The address of each program is selected. -/
theorem sel_mem_cmdsOf {ps : List (Word × List Word)} {q : Word × List Word} (hq : q ∈ ps) : Cmd.sel q.1 ∈ cmdsOf ps :=
  List.mem_flatMap.2 ⟨q, hq, List.mem_cons_self⟩

/-- Settles O53: a command that emits sends complete programs (`read_programs_other`), any other leaves the device alone. -/
theorem encodeCommandsLeaveOtherChains : Obligations.EncodeCommandsLeaveOtherChains := by
  intro i s t b hp ha hl hacc h hb
  rcases exec_cases i s with ⟨-, -, e⟩ | ⟨-, he, -⟩ | ⟨-, he, -⟩
  · rw [e, runEmission_ok hacc] at h
    cases h
    rw [complete_dev, sent_dev, feedAll_framesOf _ _ ha]
    rw [emission_eq_cmdsOf hl] at hb ⊢
    exact read_programs_other (programsOf_complete hp i) (fun q hq => hb q.1 (sel_mem_cmdsOf hq)) s.dev
  all_goals
    obtain ⟨hdev, -⟩ := exec_of_emission_nil h he
    exact .inl (by rw [hdev])

/-! ## Programs of the wrong length -/

/-- With an address selected every word is appended to the run (R52). -/
theorem onChain_run {d : Dev} {a : Word} (hs : d.sel = some a) (w : Word) :
    (d.onChain w).run = d.run ++ [w] := by
  rcases onChain_cases d w with ⟨h, -⟩ | ⟨_, -, -, h⟩ | ⟨_, -, -, h⟩ | ⟨_, _, -, -, -, h⟩ | ⟨_, _, -, -, -, h⟩
  · rw [hs] at h; cases h
  · rw [h]; rfl
  · rw [h, refresh_run]
  · rw [h]
  · rw [h]

/-- So a list of words is appended to the run, and the selection stays. -/
theorem foldl_chain_sel_run {a : Word} (ws : List Word) {d : Dev} (hs : d.sel = some a) :
    ((ws.map Cmd.chn).foldl Dev.onCmd d).sel = some a ∧ ((ws.map Cmd.chn).foldl Dev.onCmd d).run = d.run ++ ws := by
  induction ws generalizing d with
  | nil => simp [hs]
  | cons w ws ih =>
    obtain ⟨hsel, hrun⟩ := ih (d := d.onChain w) (by rw [onChain_sel, hs])
    rw [onChain_run hs, List.append_assoc] at hrun
    exact ⟨hsel, hrun⟩

/-- A word chained beyond the map's length voids the selected address (R52). -/
theorem read_onChain_beyond {d : Dev} {a : Word} {n : Nat} (hs : d.sel = some a) (hn : programLength a.toNat = some n)
    (hl : n ≤ d.run.length) (w : Word) : (d.onChain w).img.read a.toNat = none := by
  rcases onChain_cases d w with ⟨h, -⟩ | ⟨_, h, hn', -⟩ | ⟨_, h, hn', -⟩ | ⟨_, _, h, -, -, e⟩ | ⟨_, _, h, hn', hlt, -⟩
    <;> rw [hs] at h <;> cases h
  · rw [hn] at hn'; cases hn'
  · rw [hn] at hn'; cases hn'; omega
  · rw [e, read_erase, if_pos rfl]
  · rw [hn] at hn'; cases hn'; omega

/-- A SELECT voids the address whose program it cuts short (R52, U12). -/
theorem read_onSelect_short {d : Dev} {a : Word} {n : Nat} (hs : d.sel = some a) (hn : programLength a.toNat = some n)
    (hne : d.run ≠ []) (hl : d.run.length < n) (b : Word) : (d.onSelect b).img.read a.toNat = none := by
  simp [onSelect_img, Dev.dropShort, hs, hn, hne, hl, read_erase]

/-- A SELECT defines no address. -/
theorem read_onSelect_none {d : Dev} {x : Nat} (h : d.img.read x = none) (b : Word) : (d.onSelect b).img.read x = none := by
  rcases read_onSelect d b x with e | ⟨e, -⟩
  · rw [e, h]
  · exact e

/-- Settles O54: a program too short is voided by the next SELECT, a program too long by its own last word. -/
theorem wrongLengthVoidsTheAddress : Obligations.WrongLengthVoidsTheAddress := by
  intro d a b ws n hn hne hl
  have chained (vs : List Word) := foldl_chain_sel_run vs (d := d.onSelect a) rfl
  simp only [programOf, List.cons_append, List.foldl_cons, List.foldl_append, List.foldl_nil]
  rcases Nat.lt_or_gt_of_ne hl with hlt | hgt
  · obtain ⟨hsel, hrun⟩ := chained ws
    exact read_onSelect_short hsel hn (by rw [hrun]; exact hne) (by rw [hrun]; exact hlt) b
  · obtain ⟨vs, w, rfl⟩ : ∃ vs w, ws = vs ++ [w] := ⟨_, _, (List.dropLast_append_getLast hne).symm⟩
    obtain ⟨hsel, hrun⟩ := chained vs
    refine read_onSelect_none ?_ b
    rw [List.map_append, List.foldl_append]
    exact read_onChain_beyond hsel hn (by rw [hrun]; simp at hgt ⊢; omega) w

/-! ## The undefined device -/

/-- Settles O55: of the five things a CHAIN can do, the three others need a mapped selection. -/
theorem chainWithoutMappedTargetIsUndefined : Obligations.ChainWithoutMappedTargetIsUndefined := by
  intro d w hmap
  rcases onChain_cases d w with ⟨-, h⟩ | ⟨a, -, -, h⟩ | ⟨a, hs, hn, -⟩ | ⟨a, n, hs, hn, -⟩ | ⟨a, n, hs, hn, -⟩
  · simp [Dev.onCmd, h]
  · simp [Dev.onCmd, h]
  all_goals rw [hmap a hs] at hn; cases hn

/-- Some mapped address has no known content. -/
abbrev HasUnknown (d : Dev) : Prop := ∃ a ∈ mappedAddresses, d.img.read a = none

theorem hasUnknown_setUndef (d : Dev) : HasUnknown d.setUndef := ⟨0, zero_mapped, rfl⟩

/-- `refresh` leaves a device marked only where some mapped address is unknown (R55). -/
theorem hasUnknown_of_refresh_undef {d : Dev} (h : d.refresh.undef = true) : HasUnknown d := by
  unfold Dev.refresh at h
  split at h
  · cases h
  · rename_i hall
    simpa [h] using hall

/-- After a frame that leaves the device marked some mapped address is unknown, if one was before. -/
theorem hasUnknown_onCmd {d : Dev} (c : Cmd) (hd : HasUnknown d) (hu : (d.onCmd c).undef = true) : HasUnknown (d.onCmd c) := by
  obtain ⟨x, hx, hr⟩ := hd
  cases c with
  | sel a => exact ⟨x, hx, read_onSelect_none hr a⟩
  | chn w =>
    rw [Dev.onCmd] at hu ⊢
    rcases onChain_cases d w with ⟨-, h⟩ | ⟨_, -, -, h⟩ | ⟨_, -, -, h⟩ | ⟨_, _, -, -, -, h⟩ | ⟨_, _, -, -, -, h⟩
      <;> rw [h] at hu ⊢
    · exact hasUnknown_setUndef _
    · exact hasUnknown_setUndef _
    · simpa [HasUnknown] using hasUnknown_of_refresh_undef hu
    · exact ⟨x, hx, read_none_erase hr⟩
    · exact ⟨x, hx, hr⟩

/-- A frame clears the mark only by completing a program after which every mapped address is known (R55). -/
theorem known_of_onCmd_clears {d : Dev} (c : Cmd) (hd : d.undef = true) (hu : (d.onCmd c).undef = false) :
    ∀ a ∈ mappedAddresses, ((d.onCmd c).img.read a).isSome = true := by
  cases c with
  | sel a => simp [Dev.onCmd, hd] at hu
  | chn w =>
    rw [Dev.onCmd] at hu ⊢
    rcases onChain_cases d w with ⟨-, h⟩ | ⟨_, -, -, h⟩ | ⟨_, -, -, h⟩ | ⟨_, _, -, -, -, h⟩ | ⟨_, _, -, -, -, h⟩
      <;> rw [h] at hu ⊢
    case inr.inr.inl =>
      rcases refresh_cases _ with he | ⟨-, -, hall⟩
      · rw [he] at hu
        simp [hd] at hu
      · simpa using hall
    all_goals simp [hd] at hu

/-- Settles O56: `known_of_onCmd_clears`, and a device still marked has an unknown address (`hasUnknown_onCmd`). -/
theorem undefinedUntilAllAddressesReprogrammed : Obligations.UndefinedUntilAllAddressesReprogrammed := by
  refine ⟨by decide, fun d c hw hu => ⟨known_of_onCmd_clears c hu, fun hall => ?_⟩⟩
  obtain ⟨-, -, -, -, hunknown, -⟩ := hw
  by_contra hm
  obtain ⟨a, ha, hr⟩ := hasUnknown_onCmd c (hunknown hu) (by simpa using hm)
  simpa [hr] using hall a ha

end Sys2Proof.Proofs

/-! SUPPORT. The statements of 30_encoding.md: decoding after encoding, the one meaning of wire bytes, the step that runs a
placed table word, the data words as numbers, and words written out from the spec. -/

namespace Sys2Proof.Proofs
open Sys2Proof Sys2Proof.Machine Sys2Proof.Laws

/-! ## Words made of fields -/

/-- A word of which only the low half is set is that half, zero-extended. -/
theorem packHalves_zero (f : Half) : packHalves 0#16 f = f.setWidth 32 := (BitVec.setWidth_eq_append (by decide)).symm

@[simp] theorem highHalf_setWidth (f : Half) : highHalf (f.setWidth 32) = 0#16 := by
  rw [← packHalves_zero, highHalf_packHalves]

@[simp] theorem lowHalf_setWidth (f : Half) : lowHalf (f.setWidth 32) = f := by
  rw [← packHalves_zero, lowHalf_packHalves]

theorem setWidth_lowHalf {w : Word} (h : highHalf w = 0#16) : (lowHalf w).setWidth 32 = w := by
  rw [← packHalves_zero, ← h, packHalves_halves]

theorem setWidth_lowNibble {w : Word} (h : w.extractLsb' 4 28 = 0#28) : (w.extractLsb' 0 4).setWidth 32 = w := by
  calc (w.extractLsb' 0 4).setWidth 32 = (0#28 ++ w.extractLsb' 0 4 : BitVec 32) := BitVec.setWidth_eq_append (by decide)
    _ = w := by rw [← h]; exact BitVec.extractLsb'_append_extractLsb' (w := 28) (len := 4)

/-- The control word bit by bit, as `ctrl_getLsbD` says it of a Level (R160). -/
theorem ctrlWord_getLsbD (l r t2 t1 c2 c1 p2 p1 : Bool) (e : BitVec 4) (n : BitVec 20) (i : Nat) (hi : i < 32) :
    (ctrlWord l r t2 t1 c2 c1 p2 p1 e n).getLsbD i =
      if i < 20 then n.getLsbD i else if i < 24 then e.getLsbD (i - 20)
      else if i = 24 then p1 else if i = 25 then p2 else if i = 26 then c1 else if i = 27 then c2
      else if i = 28 then t1 else if i = 29 then t2 else if i = 30 then r else l :=
  ctrl_getLsbD ⟨0#4, .sum0, .sum0, .sum0, n, e, p1, p2, c1, c2, t1, t2, r, l⟩ i hi

theorem ctrlWord_count (l r t2 t1 c2 c1 p2 p1 : Bool) (e : BitVec 4) (n : BitVec 20) :
    (ctrlWord l r t2 t1 c2 c1 p2 p1 e n).extractLsb' 0 20 = n := by
  apply BitVec.eq_of_getLsbD_eq
  intro i hi
  rw [BitVec.getLsbD_extractLsb', ctrlWord_getLsbD _ _ _ _ _ _ _ _ _ _ _ (by omega)]
  simp [hi]

theorem ctrlWord_elseState (l r t2 t1 c2 c1 p2 p1 : Bool) (e : BitVec 4) (n : BitVec 20) :
    (ctrlWord l r t2 t1 c2 c1 p2 p1 e n).extractLsb' 20 4 = e := by
  apply BitVec.eq_of_getLsbD_eq
  intro i hi
  rw [BitVec.getLsbD_extractLsb', ctrlWord_getLsbD _ _ _ _ _ _ _ _ _ _ _ (by omega)]
  simp [hi]
  omega

/-- Every word is the control word of its own fields (R83). -/
theorem ctrlWord_fields (w : Word) :
    ctrlWord (w.getLsbD 31) (w.getLsbD 30) (w.getLsbD 29) (w.getLsbD 28) (w.getLsbD 27) (w.getLsbD 26)
      (w.getLsbD 25) (w.getLsbD 24) (w.extractLsb' 20 4) (w.extractLsb' 0 20) = w := by
  apply BitVec.eq_of_getLsbD_eq
  intro i hi
  rw [ctrlWord_getLsbD _ _ _ _ _ _ _ _ _ _ i hi]
  interval_cases i <;> simp

/-! ## Decoding after encoding -/

/-! Each class of chain address is read back as itself (R74). -/

theorem decodeAddress_fsmDesc (s : BitVec 4) : decodeAddress (addrFsmDescWord s) = .ok (.addrFsmDesc s) := by
  revert s; decide
theorem decodeAddress_pattern {k : BitVec 4} (h : k.toNat < 10) :
    decodeAddress (addrPatternWord k) = .ok (.addrPattern k) := by
  revert k; decide
theorem decodeAddress_range (r b : BitVec 1) : decodeAddress (addrRangeWord r b) = .ok (.addrRange r b) := by
  revert r b; decide
theorem decodeAddress_edge (e : BitVec 1) : decodeAddress (addrEdgeWord e) = .ok (.addrEdge e) := by revert e; decide
theorem decodeAddress_timer (t h : BitVec 1) : decodeAddress (addrTimerWord t h) = .ok (.addrTimer t h) := by
  revert t h; decide
theorem decodeAddress_sum (s : BitVec 4) {r : BitVec 2} (h : r ≠ 3#2) :
    decodeAddress (addrSumWord s r) = .ok (.addrSum s r) := by
  revert s r; decide

theorem decodeWord_ctrlWord (l r t2 t1 c2 c1 p2 p1 : Bool) (e : BitVec 4) (n : BitVec 20) :
    decodeWord .ctrl (ctrlWord l r t2 t1 c2 c1 p2 p1 e n) = .ok (.wordCtrl l r t2 t1 c2 c1 p2 p1 e n) := by
  simp only [decodeWord, ctrlWord_count, ctrlWord_elseState]
  congr <;> exact ctrlWord_getLsbD l r t2 t1 c2 c1 p2 p1 e n _ (by decide)

theorem decodeWord_tmrhi (t : BitVec 4) : decodeWord .tmrhi (t.setWidth 32) = .ok (.wordTmrhi t) := by revert t; decide

/-! On a wire lane the word is read back, and what the lane's own decoder answers is the answer. -/

theorem decodePrefix_frame {opcode : Byte} {w : Word} {i : Instr} (h : decodeFrame opcode w = .ok i) (rest : List Byte) :
    decodePrefix .frame (opcode :: beBytes32 w ++ rest) = .ok (i, rest) := by
  simp only [decodePrefix, List.cons_append, takeByte_cons, takeWord_beBytes32, bind, Except.bind, h]

theorem decodePrefix_address {a : Word} {i : Instr} (h : decodeAddress a = .ok i) (rest : List Byte) :
    decodePrefix .address (beBytes32 a ++ rest) = .ok (i, rest) := by
  simp only [decodePrefix, takeWord_beBytes32, bind, Except.bind, h]

theorem decodePrefix_data {f : WordFormat} {w : Word} {i : Instr} (h : decodeWord f w = .ok i) (rest : List Byte) :
    decodePrefix (.data f) (beBytes32 w ++ rest) = .ok (i, rest) := by
  simp only [decodePrefix, takeWord_beBytes32, bind, Except.bind, h]

/-- The encoding of a host command is read back, whatever follows it: each reader reads back its operand (entry 4). -/
theorem decodePrefix_command {i : Instr} (h : laneOf i = .command) (rest : List Byte) :
    decodePrefix .command (encode i ++ rest) = .ok (i, rest) := by
  cases i
  case select | chain | addrFsmDesc | addrPattern | addrRange | addrEdge | addrTimer | addrSum | wordPatw | wordRngw
      | wordEdgw | wordTmrlo | wordTmrhi | wordSumf | wordSumm | wordSump | wordCtrl => cases h
  all_goals simp [encode, decodePrefix, decodeCommand, bind, Except.bind]

/-- The encoding of a well-formed instruction is read back on its lane, whatever follows it. -/
theorem decodePrefix_encode {i : Instr} (h : i.wellFormed = true) (rest : List Byte) :
    decodePrefix (laneOf i) (encode i ++ rest) = .ok (i, rest) := by
  cases i
  case select | chain => exact decodePrefix_frame rfl rest
  case addrFsmDesc s => exact decodePrefix_address (decodeAddress_fsmDesc s) rest
  case addrPattern k => exact decodePrefix_address (decodeAddress_pattern (of_decide_eq_true h)) rest
  case addrRange r b => exact decodePrefix_address (decodeAddress_range r b) rest
  case addrEdge e => exact decodePrefix_address (decodeAddress_edge e) rest
  case addrTimer t b => exact decodePrefix_address (decodeAddress_timer t b) rest
  case addrSum s r => exact decodePrefix_address (decodeAddress_sum s (of_decide_eq_true h)) rest
  case wordPatw | wordRngw | wordEdgw | wordSumm | wordSump => exact decodePrefix_data (by simp [decodeWord]) rest
  case wordTmrlo => exact decodePrefix_data rfl rest
  case wordTmrhi t => exact decodePrefix_data (decodeWord_tmrhi t) rest
  case wordSumf => exact decodePrefix_data (by simp [decodeWord]) rest
  case wordCtrl => exact decodePrefix_data (decodeWord_ctrlWord ..) rest
  all_goals exact decodePrefix_command rfl rest

/-- Bytes that are read to their end decode. -/
theorem decode_of_decodePrefix {lane : Lane} {bytes : List Byte} {i : Instr} (h : decodePrefix lane bytes = .ok (i, [])) :
    decode lane bytes = .ok i := by
  rw [decode, h]

/-- Settles O1: `decodePrefix_encode` with nothing after the encoding. -/
theorem decodeEncodeRoundTrip : Obligations.DecodeEncodeRoundTrip := by
  intro i h
  have hread := decodePrefix_encode h []
  rw [List.append_nil] at hread
  exact decode_of_decodePrefix hread

/-! ## Wire bytes have one meaning -/

section
variable {α β : Type} {P : α → Prop} {Q : β → Prop}

/-- As `answersOnly_bind`, with what is known of the item read. -/
theorem answersOnly_bind_of {m : Except DecodeError β} {g : β → Except DecodeError α} (hm : AnswersOnly Q m)
    (hg : ∀ y, Q y → AnswersOnly P (g y)) : AnswersOnly P (m >>= g) := by
  cases m with
  | ok y => exact hg y (hm y rfl)
  | error e => exact answersOnly_error.2 trivial

end

theorem beBytes32_be32 (b1 b2 b3 b4 : Byte) : beBytes32 (be32 b1 b2 b3 b4) = [b1, b2, b3, b4] := by
  have h1 : (b1 ++ b2 ++ b3 ++ b4).extractLsb' 24 8 = b1 := by
    rw [BitVec.extractLsb'_append_eq_of_le (by decide), BitVec.extractLsb'_append_eq_of_le (by decide)]
    exact BitVec.extractLsb'_append_eq_left
  have h2 : (b1 ++ b2 ++ b3 ++ b4).extractLsb' 16 8 = b2 := by
    rw [BitVec.extractLsb'_append_eq_of_le (by decide), BitVec.extractLsb'_append_eq_of_le (by decide)]
    exact BitVec.extractLsb'_append_eq_right
  have h3 : (b1 ++ b2 ++ b3 ++ b4).extractLsb' 8 8 = b3 := by
    rw [BitVec.extractLsb'_append_eq_of_le (by decide)]
    exact BitVec.extractLsb'_append_eq_right
  have h4 : (b1 ++ b2 ++ b3 ++ b4).extractLsb' 0 8 = b4 := BitVec.extractLsb'_append_eq_right
  exact congr (congrArg _ h1) (congr (congrArg _ h2) (congr (congrArg _ h3) (congrArg (· :: []) h4)))

theorem takeByte_reads (bytes : List Byte) : AnswersOnly (fun p => p.1 :: p.2 = bytes) (takeByte bytes) := by
  cases bytes with
  | nil => exact answersOnly_error.2 trivial
  | cons b rest => exact answersOnly_ok.2 rfl

theorem takeWord_reads (bytes : List Byte) : AnswersOnly (fun p => beBytes32 p.1 ++ p.2 = bytes) (takeWord bytes) := by
  unfold takeWord
  split
  · rw [answersOnly_ok, beBytes32_be32]; rfl
  · exact answersOnly_error.2 trivial

/-- A word whose bits above the low `k` are `p` is `p` beside its low `k` bits. -/
theorem append_extractLsb'_of_and_mask {n k : Nat} {p : BitVec n} {a : BitVec (n + k)}
    (h : a &&& (BitVec.allOnes n ++ 0#k) = p ++ 0#k) : p ++ a.extractLsb' 0 k = a := by
  have hhigh : a.extractLsb' k n = p := by
    rw [← BitVec.extractLsb'_append_extractLsb' (x := a), BitVec.and_append, BitVec.and_zero, BitVec.append_left_inj] at h
    rwa [BitVec.and_allOnes] at h
  rw [← hhigh, BitVec.extractLsb'_append_extractLsb']

theorem encode_decodeFrame (opcode : Byte) (w : Word) :
    AnswersOnly (fun i => encode i = opcode :: beBytes32 w) (decodeFrame opcode w) := by
  simp +contextual [decodeFrame, encode]

/-! The fields read under a class's mask make the address again (R74). -/

section
variable {a : Word}

theorem addrFsmDescWord_fields (h : a &&& 0xFFFFFFF0#32 = 0x00000000#32) : addrFsmDescWord (a.extractLsb' 0 4) = a :=
  append_extractLsb'_of_and_mask (n := 28) (k := 4) h
theorem addrPatternWord_fields (h : a &&& 0xFFFFFFF0#32 = 0x00000020#32) : addrPatternWord (a.extractLsb' 0 4) = a :=
  append_extractLsb'_of_and_mask (n := 28) (k := 4) h
theorem addrEdgeWord_fields (h : a &&& 0xFFFFFFFE#32 = 0x00000034#32) : addrEdgeWord (a.extractLsb' 0 1) = a :=
  append_extractLsb'_of_and_mask (n := 31) (k := 1) h

/-- Two fields side by side are one. -/
theorem append_fields {n k m : Nat} (p : BitVec n) (b : BitVec (n + k + m)) :
    p ++ b.extractLsb' m k ++ b.extractLsb' 0 m = (p ++ b.extractLsb' 0 (k + m)).cast (by omega) := by
  rw [BitVec.append_assoc, BitVec.extractLsb'_append_extractLsb'_eq_extractLsb' (by omega)]

theorem addrRangeWord_fields (h : a &&& 0xFFFFFFFC#32 = 0x00000030#32) :
    addrRangeWord (a.extractLsb' 1 1) (a.extractLsb' 0 1) = a :=
  (append_fields (n := 30) (k := 1) (m := 1) _ a).trans (append_extractLsb'_of_and_mask (n := 30) (k := 2) h)
theorem addrTimerWord_fields (h : a &&& 0xFFFFFFFC#32 = 0x00000038#32) :
    addrTimerWord (a.extractLsb' 1 1) (a.extractLsb' 0 1) = a :=
  (append_fields (n := 30) (k := 1) (m := 1) _ a).trans (append_extractLsb'_of_and_mask (n := 30) (k := 2) h)
theorem addrSumWord_fields (h : a &&& 0xFFFFFFC0#32 = 0x00000040#32) :
    addrSumWord (a.extractLsb' 2 4) (a.extractLsb' 0 2) = a :=
  (append_fields (n := 26) (k := 4) (m := 2) _ a).trans (append_extractLsb'_of_and_mask (n := 26) (k := 6) h)

end

theorem encode_decodeAddress (a : Word) : AnswersOnly (fun i => encode i = beBytes32 a) (decodeAddress a) := by
  have unmapped : AnswersOnly (fun i => encode i = beBytes32 a) (.error (.unmappedAddress a)) :=
    answersOnly_error.2 trivial
  refine answersOnly_ite.2 ⟨fun h => ?fsmDesc, fun _ => ?_⟩
  case fsmDesc => exact answersOnly_ok.2 (congrArg beBytes32 (addrFsmDescWord_fields h))
  refine answersOnly_ite.2 ⟨fun h => ?pattern, fun _ => ?_⟩
  case pattern =>
    exact answersOnly_ite.2
      ⟨fun _ => answersOnly_ok.2 (congrArg beBytes32 (addrPatternWord_fields h)), fun _ => unmapped⟩
  refine answersOnly_ite.2 ⟨fun h => ?range, fun _ => ?_⟩
  case range => exact answersOnly_ok.2 (congrArg beBytes32 (addrRangeWord_fields h))
  refine answersOnly_ite.2 ⟨fun h => ?edge, fun _ => ?_⟩
  case edge => exact answersOnly_ok.2 (congrArg beBytes32 (addrEdgeWord_fields h))
  refine answersOnly_ite.2 ⟨fun h => ?timer, fun _ => ?_⟩
  case timer => exact answersOnly_ok.2 (congrArg beBytes32 (addrTimerWord_fields h))
  refine answersOnly_ite.2 ⟨fun h => ?sum, fun _ => unmapped⟩
  case sum =>
    exact answersOnly_ite.2
      ⟨fun _ => unmapped, fun _ => answersOnly_ok.2 (congrArg beBytes32 (addrSumWord_fields h))⟩

theorem encode_decodeWord (f : WordFormat) (w : Word) : AnswersOnly (fun i => encode i = beBytes32 w) (decodeWord f w) := by
  cases f
  case patw | rngw | edgw | summ | sump => exact answersOnly_ok.2 (congrArg beBytes32 (packHalves_halves w))
  case tmrlo => exact answersOnly_ok.2 rfl
  case tmrhi =>
    exact answersOnly_ite.2 ⟨fun h => answersOnly_ok.2 (congrArg beBytes32 (setWidth_lowNibble h)),
      fun _ => answersOnly_error.2 trivial⟩
  case sumf =>
    exact answersOnly_ite.2 ⟨fun h => answersOnly_ok.2 (congrArg beBytes32 (setWidth_lowHalf h)),
      fun _ => answersOnly_error.2 trivial⟩
  case ctrl => exact answersOnly_ok.2 (congrArg beBytes32 (ctrlWord_fields w))

/-- What a wire lane reads encodes to the bytes it was read from. -/
theorem encode_decodePrefix {lane : Lane} (h : lane ≠ .command) (bytes : List Byte) :
    AnswersOnly (fun p => encode p.1 ++ p.2 = bytes) (decodePrefix lane bytes) := by
  cases lane with
  | command => exact absurd rfl h
  | frame =>
    refine answersOnly_bind_of (takeByte_reads bytes) fun ⟨opcode, _⟩ hop => ?_
    refine answersOnly_bind_of (takeWord_reads _) fun ⟨w, rest⟩ hw => ?_
    refine answersOnly_bind_of (encode_decodeFrame opcode w) fun i hi => answersOnly_ok.2 ?_
    rw [hi, List.cons_append, hw, hop]
  | address =>
    refine answersOnly_bind_of (takeWord_reads bytes) fun ⟨a, rest⟩ ha => ?_
    refine answersOnly_bind_of (encode_decodeAddress a) fun i hi => answersOnly_ok.2 ?_
    rw [hi, ha]
  | data f =>
    refine answersOnly_bind_of (takeWord_reads bytes) fun ⟨w, rest⟩ hw => ?_
    refine answersOnly_bind_of (encode_decodeWord f w) fun i hi => answersOnly_ok.2 ?_
    rw [hi, hw]

/-- Settles O3: `encode_decodePrefix` where nothing is left over. -/
theorem wireBytesHaveOneMeaning : Obligations.WireBytesHaveOneMeaning := by
  intro lane bytes i hl h
  have hbytes : encode i ++ [] = bytes := encode_decodePrefix hl bytes _ (decode_eq_ok h)
  rwa [List.append_nil] at hbytes

/-! ## A placed table word -/

/-- A table word that decodes is placed as a packet that decodes to the same instruction: the reader does not look past the
bytes it took. -/
theorem decode_tablePacket {nbits w : Nat} {i : Instr} (h : decodeTableWord nbits w = some i) :
    decode (tablePacket nbits w).1 (tablePacket nbits w).2 = .ok i := by
  unfold decodeTableWord at h
  unfold tablePacket
  cases hl : tableLane nbits w with
  | none => simp [hl] at h
  | some lane =>
    cases hd : decodePrefix lane (tableBytes nbits w) with
    | error e => simp [hl, hd] at h
    | ok p =>
      obtain ⟨j, rest⟩ := p
      obtain rfl : j = i := by simpa [hl, hd] using h
      obtain ⟨front, hbytes, hread⟩ := ReadsPrefix.lane lane _ _ _ hd
      have hfront := hread []
      rw [List.append_nil] at hfront
      simp only [hd]
      simpa [hbytes] using decode_of_decodePrefix hfront

/-- The next step runs the packet of a placed table word, at the state without it and without the internal packet that it
displaces. -/
theorem step_withFetchWord (s : State) {nbits w : Nat} {i : Instr}
    (h : decode (tablePacket nbits w).1 (tablePacket nbits w).2 = .ok i) :
    step (s.withFetchWord nbits w) = exec i { s with inner := none } := by
  rcases hp : tablePacket nbits w with ⟨lane, bytes⟩
  rw [hp] at h
  cases lane <;> simp only [step, State.withFetchWord, State.fetch, hp, h]

/-- Settles O8. -/
theorem placedTableWordRunsNext : Obligations.PlacedTableWordRunsNext :=
  fun s _ _ _ h => step_withFetchWord s (decode_tablePacket h)

/-! ## The data words as numbers -/

/-- A field shifted to a position above a number adds to it. -/
theorem ofNat_or_shiftLeft {v : Nat} (n k : Nat) (y : BitVec v) (hn : n < 2 ^ k) :
    BitVec.ofNat 32 n ||| (y.setWidth 32 <<< k) = BitVec.ofNat 32 (n + 2 ^ k * y.toNat) := by
  have hsum : n + 2 ^ k * y.toNat = n ||| y.toNat <<< k := by
    rw [Nat.or_comm, ← Nat.shiftLeft_add_eq_or_of_lt hn, Nat.shiftLeft_eq, Nat.mul_comm, Nat.add_comm]
  apply BitVec.eq_of_toNat_eq
  rw [hsum]
  simp [Nat.shiftLeft_eq]

/-- The control word as a number (R160). -/
theorem ctrlWord_eq_ofNat (l r t2 t1 c2 c1 p2 p1 : Bool) (e : BitVec 4) (n : BitVec 20) :
    ctrlWord l r t2 t1 c2 c1 p2 p1 e n = BitVec.ofNat 32 (n.toNat + 2 ^ 20 * e.toNat + 2 ^ 24 * p1.toNat + 2 ^ 25 * p2.toNat
      + 2 ^ 26 * c1.toNat + 2 ^ 27 * c2.toNat + 2 ^ 28 * t1.toNat + 2 ^ 29 * t2.toNat + 2 ^ 30 * r.toNat
      + 2 ^ 31 * l.toNat) := by
  have hn := n.isLt
  have he := e.isLt
  have hp1 := p1.toNat_lt
  have hp2 := p2.toNat_lt
  have hc1 := c1.toNat_lt
  have hc2 := c2.toNat_lt
  have ht1 := t1.toNat_lt
  have ht2 := t2.toNat_lt
  have hr := r.toNat_lt
  simp (disch := omega) only [ctrlWord, flagAt, ← BitVec.ofNat_toNat 32 n, ofNat_or_shiftLeft, BitVec.toNat_ofBool]

/-- Settles O12: each format runs as the CHAIN of its word (entry 2), which as a number is the sum of its fields. -/
theorem wordFormatsChain : Obligations.WordFormatsChain := by
  intro s hacc
  have chains (w : Word) : runEmission [.chn w] s = .next ((s.sent [.chn w]).complete none) := runEmission_ok hacc
  have halves (h l : Half) : runEmission [.chn (packHalves h l)] s
      = .next ((s.sent [.chn (BitVec.ofNat 32 (65536 * h.toNat + l.toNat))]).complete none) := by
    rw [chains, packHalves_eq_ofNat]
  refine ⟨halves, fun f g ho => ?rngwEdgwHigh, fun f g ho => ?rngwEdgwLow, chains, fun t => ?tmrhi, fun f => ?sumf, halves,
    fun o e ho => ?sumpHigh, fun o e ho => ?sumpLow, fun l r t2 t1 c2 c1 p2 p1 e n => ?ctrl⟩
  case rngwEdgwHigh | rngwEdgwLow => simp only [exec, execWordRngw, execWordEdgw, ho, packWalked, halves, and_self]
  case sumpHigh | sumpLow => simp only [exec, execWordSump, ho, packPair, halves]
  case tmrhi | sumf =>
    rw [BitVec.ofNat_toNat]
    exact chains _
  case ctrl =>
    rw [← ctrlWord_eq_ofNat]
    exact chains _

/-! ## Words written out -/

/-- Settles O4: eleven closed words, on which the decoder is run. -/
theorem specWordsDecode : Obligations.SpecWordsDecode := by
  unfold Obligations.SpecWordsDecode
  decide

end Sys2Proof.Proofs

/-! SUPPORT. The statements of 40_operation_table.md: `LUT` reads the literal tables at the operation's offset, `ISINV` tells
the inverted operations, and both refuse a reference that names no operation. -/

namespace Sys2Proof.Proofs
open Sys2Proof Sys2Proof.Machine Sys2Proof.Laws

/-! ## Operation references -/

theorem not_opRefInRange_none : ¬opRefInRange none := by
  rintro ⟨c, h, -⟩
  cases h

theorem not_opRefInRange_some {c : BitVec 4} (hc : 9 < c.toNat) : ¬opRefInRange (some c) := by
  rintro ⟨_, h, hlt⟩
  cases h
  omega

/-- An operation's code is its offset (R10). -/
theorem ofCode_map_offset : ∀ c : BitVec 4, c.toNat < 10 →
    (Operation.ofCode c).map (fun o => o.offset.val) = some c.toNat := by
  decide

theorem exists_ofRef_offset {c : BitVec 4} (h : c.toNat < 10) :
    ∃ o, Operation.ofRef (some c) = some o ∧ o.offset.val = c.toNat :=
  Option.map_eq_some_iff.1 (ofCode_map_offset c h)

/-- The flag by offset (R104). -/
theorem isInverted_eq_offset (o : Operation) :
    isInverted o = decide (o.offset.val = 3 ∨ o.offset.val = 5 ∨ o.offset.val = 7) := by
  cases o <;> decide

/-! ## The two commands -/

theorem exec_of_not_operandsInRange {i : Instr} (s : State) (h : ¬operandsInRange i) : exec i s = runInvalid s := by
  rcases exec_cases i s with ⟨hr, -⟩ | ⟨hr, -⟩ | ⟨-, -, e⟩
  · exact absurd hr h
  · exact absurd hr h
  · exact e

theorem exec_lut_of_ofRef {op : OpRef} {o : Operation} (level : TreeLevel) (s : State) (h : Operation.ofRef op = some o) :
    exec (.lut level op) s = .next (s.complete (some (.table (lutConstant level o)))) := by
  simp only [exec, execLut, h]

theorem exec_isInv_of_ofRef {op : OpRef} {o : Operation} (s : State) (h : Operation.ofRef op = some o) :
    exec (.isInv op) s = .next (s.complete (some (.flag (isInverted o)))) := by
  simp only [exec, execIsInv, h]

/-- Settles O20: code `c` names the operation of offset `c`, at which each level's literal table is read. -/
theorem lutReturnsTheConstant : Obligations.LutReturnsTheConstant := by
  intro s
  refine ⟨fun c => ?table, fun level op => rfl, fun level => ⟨?null, fun c hc => ?unknown⟩⟩
  case table =>
    have hcode : (BitVec.ofNat 4 c.val).toNat = c.val := by simp; omega
    obtain ⟨o, ho, hoff⟩ := exists_ofRef_offset (c := BitVec.ofNat 4 c.val) (by omega)
    obtain rfl : o.offset = c := Fin.ext (hoff.trans hcode)
    exact ⟨exec_lut_of_ofRef .pair s ho, exec_lut_of_ofRef .mid s ho, exec_lut_of_ofRef .final s ho⟩
  case null => exact exec_of_not_operandsInRange s not_opRefInRange_none
  case unknown => exact exec_of_not_operandsInRange s (not_opRefInRange_some hc)

/-- Settles O21: the operations of offsets 3, 5 and 7 are the inverted ones, and a code is its operation's offset. -/
theorem isInvReturnsTheFlag : Obligations.IsInvReturnsTheFlag := by
  intro s
  refine ⟨fun c hc => ?flag, fun op => rfl, ?null, fun c hc => ?unknown⟩
  case flag =>
    obtain ⟨o, ho, hoff⟩ := exists_ofRef_offset (c := c) (by omega)
    rw [exec_isInv_of_ofRef s ho, isInverted_eq_offset, hoff]
    rfl
  case null => exact exec_of_not_operandsInRange s not_opRefInRange_none
  case unknown => exact exec_of_not_operandsInRange s (not_opRefInRange_some hc)

end Sys2Proof.Proofs

/-! SUPPORT. The statements of 41_term_compiler.md: the setters of the detector bank, what the four term encoders send (match
tables, range walks, pair tables, split thresholds), and issuing an encode command twice. -/

namespace Sys2Proof.Proofs
open Sys2Proof Sys2Proof.Machine Sys2Proof.Laws

/-! ## Constants and targets -/

/-- Settles O29, parity by parity. -/
theorem neitherIsTheComplement : Obligations.NeitherIsTheComplement := by
  intro odd
  cases odd <;> decide

/-- The lower target is the two's complement of the bound (R118). -/
theorem targetLo_eq_neg (bound : Word) : targetLo bound = -bound := by
  rw [targetLo, BitVec.not_sub_one_eq_not_add_one, ← BitVec.neg_eq_not_add]

/-- Settles O28. -/
theorem rangeTargetsWrap : Obligations.RangeTargetsWrap :=
  fun bound => ⟨by rw [targetLo_eq_neg, BitVec.toNat_neg], BitVec.toNat_not⟩

/-! ## The setters -/

/-- Settles O23: an index in range is checked to itself, any other is out of range. -/
theorem settersWriteOneSlot : Obligations.SettersWriteOneSlot := by
  intro s
  refine ⟨fun k _ _ => ?pat, fun r _ _ _ => ?rng, fun e _ _ _ => ?edg, fun t _ => ?tmr, fun k _ _ hk => ?patOut,
    fun k _ _ _ _ hk => ?restOut⟩
  case pat | rng | edg | tmr =>
    simp only [exec, execSetPat, execSetRng, execSetEdg, execSetTmr, checkIndex_val]
    rfl
  case patOut =>
    have hout : ¬(0 ≤ k ∧ k ≤ 9) := by omega
    exact exec_of_not_operandsInRange s hout
  case restOut =>
    have hout : ¬(0 ≤ k ∧ k ≤ 1) := by omega
    exact ⟨exec_of_not_operandsInRange s hout, exec_of_not_operandsInRange s hout, exec_of_not_operandsInRange s hout⟩

/-! ## What an encode command sends -/

/-- An instruction that emits, on an accepting sink: every frame is sent and the status is OK. -/
theorem exec_of_emission {i : Instr} {s : State} {cs : List Cmd} (he : emission i s = cs) (hne : cs ≠ [])
    (hacc : s.accepts (2 * cs.length)) : exec i s = .next ((s.sent cs).complete none) := by
  subst he
  rcases exec_cases i s with ⟨-, -, e⟩ | ⟨-, hnil, -⟩ | ⟨-, hnil, -⟩
  · rw [e, runEmission_ok hacc]
  · exact absurd hnil hne
  · exact absurd hnil hne

theorem eq_ofNat_of_toNat_eq {a : Word} {n : Nat} (h : a.toNat = n) : a = BitVec.ofNat 32 n := by
  rw [← h, BitVec.ofNat_toNat, BitVec.setWidth_eq]

/-! ## Pattern tables -/

/-- A half of a packed word is read at its own bits. -/
theorem packHalves_getLsbD (h l : Half) {b i : Nat} (hb : b < 2) (hi : i < 16) :
    (packHalves h l).getLsbD (16 * b + i) = if b = 1 then h.getLsbD i else l.getLsbD i := by
  rw [packHalves, BitVec.getLsbD_append]
  rcases (by omega : b = 0 ∨ b = 1) with rfl | rfl
  · simp [hi]
  · simp

theorem nibble_getLsbD (w : Word) (k : Nat) {j : Nat} (hj : j < 4) : (nibble w k).getLsbD j = w.getLsbD (4 * k + j) := by
  simp [nibble, hj]

/-- A nibble's table holds a match for the candidates that agree with the value on the masked bits (R116). -/
theorem nibbleTable_getLsbD (t m : BitVec 4) {i : Nat} (hi : i < 16) :
    (nibbleTable t m).getLsbD i = true ↔ ∀ j < 4, m.getLsbD j = true → i.testBit j = t.getLsbD j := by
  rw [nibbleTable, tableOf_getLsbD _ _ hi, beq_iff_eq, BitVec.eq_of_getLsbD_eq_iff]
  refine forall₂_congr fun j hj => ?_
  simp only [BitVec.getLsbD_and, BitVec.getLsbD_xor, BitVec.getLsbD_ofNat, hj, decide_true, Bool.true_and,
    Nat.zero_testBit]
  cases i.testBit j <;> cases t.getLsbD j <;> cases m.getLsbD j <;> decide

/-- `T[n]` in terms of the term's own bits (R115, R116). -/
theorem patTable_getLsbD (t : PatTerm) (n : Nat) {i : Nat} (hi : i < 16) :
    (patTable t n).getLsbD i = true
      ↔ ∀ j < 4, t.mask.getLsbD (4 * n + j) = true → i.testBit j = t.value.getLsbD (4 * n + j) := by
  rw [patTable, nibbleTable_getLsbD _ _ hi]
  refine forall₂_congr fun j hj => ?_
  rw [nibble_getLsbD _ _ hj, nibble_getLsbD _ _ hj]

/-- `W[n/2]` holds nibble `n`'s table in its half `n mod 2` (R117). -/
theorem patWord_getLsbD (t : PatTerm) (n : Nat) {i : Nat} (hi : i < 16) :
    (patWord t (n / 2)).getLsbD (16 * (n % 2) + i) = (patTable t n).getLsbD i := by
  rw [patWord, packHalves_getLsbD _ _ (Nat.mod_lt n (by decide)) hi]
  split
  · rw [show 2 * (n / 2) + 1 = n by omega]
  · rw [show 2 * (n / 2) = n by omega]

theorem patWord_getD (t : PatTerm) {m : Nat} (hm : m < 4) :
    [patWord t 0, patWord t 1, patWord t 2, patWord t 3].getD m 0#32 = patWord t m := by
  interval_cases m <;> rfl

/-- Settles O24: the words are `patWords`, read back by `patWord_getLsbD`. -/
theorem encPatEmitsTheMatchTables : Obligations.EncPatEmitsTheMatchTables := by
  intro k s hacc
  refine ⟨patWord s.bank.pat[k] 3, patWord s.bank.pat[k] 2, patWord s.bank.pat[k] 1, patWord s.bank.pat[k] 0, ?_,
    fun n hn i hi => ?_⟩
  · rw [← eq_ofNat_of_toNat_eq (toNat_patAddress k)]
    refine exec_of_emission ?_ (List.cons_ne_nil _ _) hacc
    rw [emission, checkIndex_val]
    rfl
  · rw [patWord_getD _ (by omega), patWord_getLsbD _ _ hi, patTable_getLsbD _ _ hi]

/-! ## Range walks -/

theorem maskBitsBelow_succ (mask : Word) (p : Nat) :
    maskBitsBelow mask (p + 1) = maskBitsBelow mask p + if mask.getLsbD p then 1 else 0 := by
  simp [maskBitsBelow, List.range_succ, List.countP_append, List.countP_cons]

theorem maskBitsBelow_le (mask : Word) (p : Nat) : maskBitsBelow mask p ≤ p :=
  List.countP_le_length.trans_eq List.length_range

/-- The half of mask position `p`: a don't-care where the mask bit is 0, else by the bit of the target that the walk has
shifted to the top, which is numbered by the mask bits set below `p` (R119, R120). -/
def rngTable (target mask : Word) (p : Nat) : Half :=
  if mask.getLsbD p then (if target.getLsbD (maskBitsBelow mask p) then 0x5555#16 else 0xAAAA#16) else 0xFFFF#16

/-- With as many bits left in the shifted target as mask bits below `n`, the walk below `n` gives every position its half. -/
theorem rngWalk_getD (target mask : Word) {n p : Nat} (hn : n ≤ 32) (hp : p < n) :
    (rngWalk mask n (target <<< (32 - maskBitsBelow mask n))).getD (n - 1 - p) 0#16 = rngTable target mask p := by
  induction n with
  | zero => omega
  | succ n ih =>
    have hle := maskBitsBelow_le mask n
    have hsucc := maskBitsBelow_succ mask n
    have htail (t : Word) (hpn : p < n) (x : Half) (ht : t = target <<< (32 - maskBitsBelow mask n)) :
        (x :: rngWalk mask n t).getD (n + 1 - 1 - p) 0#16 = rngTable target mask p := by
      rw [show n + 1 - 1 - p = n - 1 - p + 1 by omega, List.getD_cons_succ, ht, ih (by omega) hpn]
    by_cases hm : mask.getLsbD n = true
    · rw [if_pos hm] at hsucc
      rw [rngWalk, if_pos hm, hsucc]
      rcases Nat.lt_or_eq_of_le (Nat.le_of_lt_succ hp) with hpn | rfl
      · refine htail _ hpn _ ?_
        rw [← BitVec.shiftLeft_add, show 32 - (maskBitsBelow mask n + 1) + 1 = 32 - maskBitsBelow mask n by omega]
      · have htop : (target <<< (32 - (maskBitsBelow mask p + 1))).getLsbD 31 = target.getLsbD (maskBitsBelow mask p) := by
          rw [BitVec.getLsbD_shiftLeft, show 31 - (32 - (maskBitsBelow mask p + 1)) = maskBitsBelow mask p by omega]
          simp
        rw [htop, rngTable, if_pos hm]
        simp [rngXor1, rngXor0]
    · rw [if_neg hm, Nat.add_zero] at hsucc
      rw [rngWalk, if_neg hm, hsucc]
      rcases Nat.lt_or_eq_of_le (Nat.le_of_lt_succ hp) with hpn | rfl
      · exact htail _ hpn _ rfl
      · rw [rngTable, if_neg hm]
        simp [rngNop]

/-- The walk of a boundary starts with as many target bits as the mask has bits set (R119). -/
theorem rngHalves_eq (target mask : Word) :
    rngHalves target mask = rngWalk mask 32 (target <<< (32 - maskBitsBelow mask 32)) := rfl

/-- The words of one boundary, read back position by position (R121). -/
theorem walkedTable_rngWords (o : HalfOrder) (target mask : Word) {p : Nat} (hp : p < 32) :
    walkedTable o 32 (rngWords o target mask) p = rngTable target mask p := by
  rw [rngWords, rngHalves_eq]
  exact (walkedTable_packWalk o 16 _ (length_rngWalk mask 32 _) p hp).trans (rngWalk_getD target mask (Nat.le_refl 32) hp)

/-- Settles O25: the two programs are `rngWords` of the two targets. -/
theorem encRngEmitsTheWalks : Obligations.EncRngEmitsTheWalks := by
  intro r s hacc
  refine ⟨rngWords s.params.halfOrder (targetLo s.bank.rng[r].lower) s.bank.rng[r].mask,
    rngWords s.params.halfOrder (targetHi s.bank.rng[r].upper) s.bank.rng[r].mask, length_rngWords .., length_rngWords .., ?_,
    fun p hp => ⟨walkedTable_rngWords _ _ _ hp, walkedTable_rngWords _ _ _ hp⟩⟩
  rw [← eq_ofNat_of_toNat_eq (toNat_rngAddress r), ← eq_ofNat_of_toNat_eq (toNat_rngAddress_upper r)]
  refine exec_of_emission ?_ (List.cons_ne_nil _ _) (accepts_mono hacc (by simp))
  rw [emission, checkIndex_val]
  rfl

/-! ## Pair tables -/

/-- The words of an edge term, read back pair by pair (R128). -/
theorem walkedTable_edgWords (o : HalfOrder) (t : EdgTerm) {q : Nat} (hq : q < 16) :
    walkedTable o 16 (edgWords o t) q = edgeTable t q := by
  refine (walkedTable_packWalk o 8 _ rfl q hq).trans ?_
  interval_cases q <;> rfl

/-- `L[q]` with the constants of the two parities written out (R124, R126, R127). -/
theorem edgeTable_eq (t : EdgTerm) (q : Nat) : edgeTable t q =
    (if t.neither.getLsbD (2 * q + 1) then 0xCC33#16
      else (if t.rising.getLsbD (2 * q + 1) then 0x00CC#16 else 0#16)
        ||| (if t.falling.getLsbD (2 * q + 1) then 0x3300#16 else 0#16))
    ||| (if t.neither.getLsbD (2 * q) then 0xA5A5#16
      else (if t.rising.getLsbD (2 * q) then 0x0A0A#16 else 0#16)
        ||| (if t.falling.getLsbD (2 * q) then 0x5050#16 else 0#16)) := by
  have hodd : ((2 * q + 1) % 2 == 1) = true := by simp
  have heven : ((2 * q) % 2 == 1) = false := by simp
  rw [edgeTable, edgeContribution, edgeContribution, hodd, heven]
  rfl

/-- Settles O26: the words are `edgWords`, read back by `walkedTable_edgWords`. -/
theorem encEdgEmitsThePairTables : Obligations.EncEdgEmitsThePairTables := by
  intro e s hacc
  refine ⟨edgWords s.params.halfOrder s.bank.edg[e], length_edgWords .., ?_, fun q hq => ?_⟩
  · rw [← eq_ofNat_of_toNat_eq (toNat_edgAddress e)]
    refine exec_of_emission ?_ (List.cons_ne_nil _ _) (accepts_mono hacc (by simp))
    rw [emission, checkIndex_val]
    rfl
  · rw [walkedTable_edgWords _ _ hq, edgeTable_eq]

/-! ## Split thresholds -/

theorem tmrLow_eq_ofNat (t : Threshold) : tmrLow t = BitVec.ofNat 32 (t.toNat % 2 ^ 32) :=
  eq_ofNat_of_toNat_eq (by simp [tmrLow])

theorem tmrHigh_eq_ofNat (t : Threshold) : tmrHigh t = BitVec.ofNat 32 (t.toNat / 2 ^ 32) := by
  refine eq_ofNat_of_toNat_eq ?_
  have := t.isLt
  simp [tmrHigh, Nat.shiftRight_eq_div_pow]
  omega

/-- Settles O27. -/
theorem encTmrEmitsTheSplitThreshold : Obligations.EncTmrEmitsTheSplitThreshold := by
  intro t s hacc
  rw [← eq_ofNat_of_toNat_eq (toNat_tmrAddress t), ← eq_ofNat_of_toNat_eq (toNat_tmrAddress_high t), ← tmrLow_eq_ofNat,
    ← tmrHigh_eq_ofNat]
  refine exec_of_emission ?_ (List.cons_ne_nil _ _) hacc
  rw [emission, checkIndex_val]
  rfl

/-! ## Encoding twice -/

/-- What an instruction emits depends on the registers and the parameters alone. -/
theorem emission_congr {s t : State} (hr : SameRegisters s t) (hp : t.params = s.params) (i : Instr) :
    emission i t = emission i s := by
  unfold emission
  rw [hr.bank, hr.lvl, hp]

theorem elim_eq_nil_congr {α : Type} {o : Option α} {f : α → List Cmd} (g : α → List Cmd) (hf : ∀ k, f k ≠ [])
    (h : o.elim [] f = []) : o.elim [] g = [] := by
  cases o with
  | none => rfl
  | some k => exact absurd h (hf k)

/-- Whether an instruction emits anything does not depend on the state. -/
theorem emission_eq_nil_congr {i : Instr} {s : State} (h : emission i s = []) (t : State) : emission i t = [] := by
  cases i
  case encPat | encRng | encEdg | encTmr => exact elim_eq_nil_congr _ (fun _ => List.cons_ne_nil _ _) h
  case wordRngw | wordEdgw | wordSump | encSum | encState => exact absurd h (List.cons_ne_nil _ _)
  all_goals exact h

theorem accepts_sent {cs : List Cmd} {s : State} {n : Nat} (h : s.accepts (2 * cs.length + n)) (r : Option Result) :
    ((s.sent cs).complete r).accepts n := by
  intro k hk
  have := h (2 * cs.length + k) (by omega)
  rwa [← answerAt_popAnswers, ← answerAt_deliver _ (framesOf cs)] at this

/-- Complete programs fed twice, from a frame boundary or to a stopped consumer, leave every chain as when fed once. -/
theorem read_feedAll_programs_twice {ps : List (Word × List Word)} (h : CompletePrograms ps) {d : Dev}
    (hb : d.stopped = false → d.frag = []) (x : Nat) :
    ((d.feedAll (framesOf (cmdsOf ps))).feedAll (framesOf (cmdsOf ps))).img.read x
      = (d.feedAll (framesOf (cmdsOf ps))).img.read x := by
  cases hs : d.stopped with
  | true => rw [feedAll_of_stopped d _ hs, feedAll_of_stopped d _ hs]
  | false =>
    have ha : d.aligned := ⟨hs, hb hs⟩
    rw [feedAll_framesOf d _ ha, feedAll_framesOf _ _ (foldl_onCmd_aligned _ ha), read_programs_twice h]

/-- Settles O59: a command that emits sends the same complete programs twice, any other leaves OUT and the device alone. -/
theorem reEncodingIsIdempotent : Obligations.ReEncodingIsIdempotent := by
  intro i s t u hp hb hl hacc hst htu
  by_cases he : emission i s = []
  · obtain ⟨-, -, -, hout⟩ := exec_of_emission_nil hst he
    obtain ⟨hdev', -, -, hout'⟩ := exec_of_emission_nil htu (emission_eq_nil_congr he t)
    refine ⟨fun x => by rw [hdev'], fun hi => ?_⟩
    rw [he, framesOf_nil, List.append_nil, List.append_nil]
    exact ⟨hout hi, hout' hi⟩
  · have ht := exec_of_emission rfl he (accepts_mono hacc (by omega))
    rw [hst] at ht
    cases ht
    have hsame : emission i ((s.sent (emission i s)).complete none) = emission i s := emission_congr ⟨rfl, rfl, rfl⟩ rfl i
    have hu := exec_of_emission hsame he (accepts_sent (accepts_mono hacc (by omega)) none)
    rw [htu] at hu
    cases hu
    refine ⟨fun x => ?_, fun _ => ⟨rfl, rfl⟩⟩
    simp only [complete_dev, sent_dev]
    rw [emission_eq_cmdsOf hl s]
    exact read_feedAll_programs_twice (programsOf_complete hp i) hb x

end Sys2Proof.Proofs

/-! SUPPORT. The statements of 42_sum_compiler.md: the words of a trigger sum as numbers, what they depend on, and what
`ENCSUM` and `ENCSTATE` send. -/

namespace Sys2Proof.Proofs
open Sys2Proof Sys2Proof.Machine Sys2Proof.Laws

/-! ## Addresses and words as numbers -/

theorem toNat_sumAddress (n : BitVec 4) (role : Role) :
    (sumAddress n role).toNat = 0x40 + 4 * n.toNat + (roleOffset role).toNat := by
  cases role <;> revert n <;> decide

theorem toNat_packHalves (h l : Half) : (packHalves h l).toNat = 65536 * h.toNat + l.toNat := by
  have hh := h.isLt
  have hl := l.isLt
  rw [packHalves_eq_ofNat, BitVec.toNat_ofNat]
  omega

/-- The final word's high half is zero (R142). -/
theorem toNat_finalWord (c : SumCfg) : (finalWord c).toNat = (lutConstant .final c.final).toNat :=
  BitVec.toNat_setWidth_of_le (by decide)

/-- The four pair words by number (R140). -/
theorem sumWord_pair (p : Params) (c : SumCfg) (n : Fin 4) :
    sumWord p c ([SumWord.P0, .P1, .P2, .P3].getD n.val .F) = pairWord p.pairHalf c n := by
  match n with
  | 0 | 1 | 2 | 3 => rfl

/-! ## What `ENCSUM` sends -/

theorem map_chn_sumWords (p : Params) (c : SumCfg) :
    (p.sumOrder.map fun n => Cmd.chn (BitVec.ofNat 32 (sumWord p c n).toNat)) = (sumWords p c).map .chn := by
  simp [sumWords]

theorem length_sumProgram (p : Params) (n : BitVec 4) (role : Role) (c : SumCfg) :
    (sumProgram p n role c).length = 1 + p.sumOrder.length := by
  simp [sumProgram, programOf, Nat.add_comm]

/-- On an accepting sink `ENCSUM` sends the program of its role's sum. -/
theorem exec_encSum {role : Role} {s : State} (hacc : s.accepts (2 + 2 * s.params.sumOrder.length)) :
    exec (.encSum role) s
      = .next ((s.sent (sumProgram s.params s.lvl.state role (s.lvl.sumOf role))).complete none) := by
  refine exec_of_emission rfl (List.cons_ne_nil _ _) (accepts_mono hacc ?_)
  rw [length_sumProgram]
  omega

/-- Settles O31: the words are `sumWord`, whose numbers are those of their halves. -/
theorem encSumEmitsTheSum : Obligations.EncSumEmitsTheSum := by
  intro role s c hc hacc
  obtain rfl : c = s.lvl.sumOf role := by cases role <;> exact hc
  refine ⟨fun n => (sumWord s.params (s.lvl.sumOf role) n).toNat, ?program, toNat_finalWord _, toNat_packHalves _ _,
    fun n => ⟨fun ho => ?oddHigh, fun ho => ?oddLow⟩⟩
  case program =>
    rw [exec_encSum hacc, map_chn_sumWords, sumProgram, programOf, eq_ofNat_of_toNat_eq (toNat_sumAddress _ role)]
    cases role <;> rfl
  case oddHigh | oddLow => simp only [sumWord_pair, ho, pairWord, packPair, toNat_packHalves]

/-! ## What the sum compiler reads -/

/-- The words of a sum depend on its operations, SUM_ORDER and PAIR_HALF alone (R148). -/
theorem sumWords_congr {p p' : Params} {c c' : SumCfg} (ho : p'.sumOrder = p.sumOrder) (hh : p'.pairHalf = p.pairHalf)
    (hc : c'.sameOperations c) : sumWords p' c' = sumWords p c := by
  obtain ⟨hpair, hmid, hfinal⟩ := hc
  rw [sumWords, sumWords, ho]
  refine List.map_congr_left fun n _ => ?_
  cases n <;> simp only [sumWord, finalWord, midWord, pairWord, hpair, hmid, hfinal, hh]

theorem ctrl_congr {v w : Level} (h : v.sameControlFields w) : ctrl v = ctrl w := by
  obtain ⟨hcount, helse, hp1, hp2, hc1, hc2, ht1, ht2, hraise, hlast⟩ := h
  rw [ctrl, ctrl, hcount, helse, hp1, hp2, hc1, hc2, ht1, ht2, hraise, hlast]

theorem exec_eq_runEmission {i : Instr} {s : State} (hne : emission i s ≠ []) : exec i s = runEmission (emission i s) s := by
  rcases exec_cases i s with ⟨-, -, e⟩ | ⟨-, hnil, -⟩ | ⟨-, hnil, -⟩
  · exact e
  · exact absurd hnil hne
  · exact absurd hnil hne

/-- An instruction that emits the same commands in both states sends alike to sinks that answer alike. -/
theorem sendAlike_of_emission_eq {i : Instr} {s s' : State} (hne : emission i s ≠ []) (he : emission i s' = emission i s)
    (ha : ∀ n, s'.answerAt n = s.answerAt n) : sendAlike i s s' := by
  rw [sendAlike, exec_eq_runEmission hne, exec_eq_runEmission (he ▸ hne), he]
  exact runEmission_alike _ ha

/-- Settles O32: the emissions are equal by `sumWords_congr` and `ctrl_congr`. -/
theorem sumsReadOnlyTheirOperations : Obligations.SumsReadOnlyTheirOperations := by
  intro s s' ho hh hstate ha
  refine ⟨fun role c c' hc hc' hsame => ?sum, fun hcap hhit hels hctrl => ?state⟩
  case sum =>
    obtain rfl : c = s.lvl.sumOf role := by cases role <;> exact hc
    obtain rfl : c' = s'.lvl.sumOf role := by cases role <;> exact hc'
    refine sendAlike_of_emission_eq (List.cons_ne_nil _ _) ?_ ha
    simp only [emission, sumProgram, hstate, sumWords_congr ho hh hsame]
  case state =>
    refine sendAlike_of_emission_eq (List.cons_ne_nil _ _) ?_ ha
    simp only [emission, stateProgram, sumProgram, hstate, ctrl_congr hctrl, sumWords_congr ho hh hcap,
      sumWords_congr ho hh hhit, sumWords_congr ho hh hels]

/-! ## What `ENCSTATE` sends -/

/-- The frames of `ENCSTATE`: two of the descriptor, and three sums of a SELECT and the words of SUM_ORDER (R166). -/
theorem length_stateProgram (p : Params) (v : Level) : (stateProgram p v).length = 2 + 3 * (1 + p.sumOrder.length) := by
  simp only [stateProgram, List.length_append, length_sumProgram, programOf, List.length_cons, List.length_map,
    List.length_nil]
  omega

/-- Settles O33: the list is `stateProgram` with its four addresses as numbers. -/
theorem encStateEmitsDescriptorThenSums : Obligations.EncStateEmitsDescriptorThenSums := by
  intro s hacc
  have he : emission .encState s = stateProgram s.params s.lvl := rfl
  have hlen := length_stateProgram s.params s.lvl
  refine ⟨?sent, fun hp => ?count⟩
  case sent =>
    have hexec := exec_of_emission he (List.cons_ne_nil _ _) (accepts_mono hacc (by omega))
    rw [← eq_ofNat_of_toNat_eq (toNat_descriptorAddress s.lvl.state),
      ← eq_ofNat_of_toNat_eq (toNat_sumAddress_capture s.lvl.state), ← eq_ofNat_of_toNat_eq (toNat_sumAddress_hit s.lvl.state),
      ← eq_ofNat_of_toNat_eq (toNat_sumAddress_els s.lvl.state)]
    exact hexec
  case count =>
    obtain ⟨-, hsix, -⟩ := hp
    rw [hsix] at hlen
    rw [length_framesOf, he]
    omega

end Sys2Proof.Proofs

/-! SUPPORT. The statement of 43_sequence_state.md: the control word read field by field, and a Level for every word. The rules
about the word of ten fields (`ctrlWord_count` and the like) stand with the decoder's. -/

namespace Sys2Proof.Proofs
open Sys2Proof Sys2Proof.Machine Sys2Proof.Laws

/-- A Level with the control fields of a word (R160); a control word does not hold the state number and the sums. -/
def levelOfCtrl (w : Word) : Level :=
  { Level.level0 with
    count := w.extractLsb' 0 20, elseState := w.extractLsb' 20 4,
    stop1 := w.getLsbD 24, stop2 := w.getLsbD 25, clear1 := w.getLsbD 26, clear2 := w.getLsbD 27,
    start1 := w.getLsbD 28, start2 := w.getLsbD 29, raise := w.getLsbD 30, last := w.getLsbD 31 }

theorem ctrl_levelOfCtrl (w : Word) : ctrl (levelOfCtrl w) = w := ctrlWord_fields w

/-- Settles O30: the count and the else state are read back whole, a flag by its bit, and `levelOfCtrl` reaches every word. -/
theorem controlWordLayout : Obligations.ControlWordLayout := by
  refine ⟨fun v => ⟨ctrlWord_count .., ctrlWord_elseState .., ?flags⟩, fun w => ⟨levelOfCtrl w, ctrl_levelOfCtrl w⟩⟩
  case flags => refine ⟨?_, ?_, ?_, ?_, ?_, ?_, ?_, ?_⟩ <;> exact ctrl_getLsbD v _ (by decide)

end Sys2Proof.Proofs

/-! SUPPORT. The statements of 44_level_builder.md: what a builder command writes, from one table of the fourteen commands, the
sticky action flags, and `build`. The rules about the operand checks stand first. -/

namespace Sys2Proof.Proofs
open Sys2Proof Sys2Proof.Machine Sys2Proof.Laws

/-! ## Operands in range -/

/-- An integer in range is checked to itself, as a number of any width (R232). -/
theorem map_ofNat_checkIndex {n w : Nat} {z : Int} (h : 0 ≤ z ∧ z < n) :
    (checkIndex n z).map (fun k => BitVec.ofNat w k.val) = some (BitVec.ofInt w z) := by
  lift z to Nat using h.1
  rw [checkIndex_of_range h, BitVec.ofInt_natCast]
  rfl

theorem checkState_of_range {n : Int} (h : 0 ≤ n ∧ n ≤ 15) : checkState n = some (BitVec.ofInt 4 n) :=
  map_ofNat_checkIndex (by omega)

theorem checkCount_of_range {n : Int} (h : 0 ≤ n ∧ n ≤ 1048575) : checkCount n = some (BitVec.ofInt 20 n) :=
  map_ofNat_checkIndex (by omega)

theorem checkSum_of_inRange {sum : Option SumArg} (h : sumInRange sum) :
    ∃ a, sum = some a ∧ checkSum sum = some (cfgOf a) := by
  obtain ⟨a, rfl, hvalid⟩ := h
  exact ⟨a, rfl, checkSum_of_valid ((valid_iff a).2 hvalid)⟩

/-- A reference that names an operation is that operation's code (R10, R180). -/
theorem eq_offset_of_opRefInRange {r : OpRef} (h : opRefInRange r) :
    r = some (BitVec.ofNat 4 ((Operation.ofRef r).getD .nop).offset.val) := by
  obtain ⟨c, rfl, hc⟩ := h
  obtain ⟨o, ho, hoff⟩ := exists_ofRef_offset hc
  rw [ho, Option.getD_some, hoff, BitVec.ofNat_toNat, BitVec.setWidth_eq]

/-- An input-state code is the code of its input state (R11, R180). -/
theorem eq_inputCode_of_ne : ∀ {c : BitVec 2}, c ≠ 3#2 → c = inputCode ((InputState.ofCode c).getD .disabled) := by
  decide

/-- The conversion of a valid sum keeps every field (R180). -/
theorem isCfgOf_cfgOf {a : SumArg} (h : sumInRange (some a)) : isCfgOf (cfgOf a) a := by
  obtain ⟨a', ha, hpair, hmid, hfinal, hleaf⟩ := h
  cases ha
  refine ⟨fun p => ?pair, fun m => ?mid, eq_offset_of_opRefInRange hfinal, fun l => ?leaf⟩ <;>
    simp only [cfgOf, Fin.getElem_fin, Vector.getElem_ofFn]
  case pair => exact eq_offset_of_opRefInRange (hpair _ (by simp))
  case mid => exact eq_offset_of_opRefInRange (hmid _ (by simp))
  case leaf => exact eq_inputCode_of_ne (hleaf _ (by simp))

/-! ## What a builder command writes -/

/-- The write of a builder command with its operands in range to the builder (R181 to R194); `exec_builder` ties it to the
model. -/
def builderWrite (i : Instr) (v : Level) : Level :=
  match i with
  | .forState n => { v with state := BitVec.ofInt 4 n }
  | .whileStoring (some a) => { v with cap := cfgOf a }
  | .ifTarget (some a) => { v with hit := cfgOf a }
  | .occurs n => { v with count := BitVec.ofInt 20 n }
  | .elseTarget (some a) n => { v with els := cfgOf a, elseState := BitVec.ofInt 4 n }
  | .lastState => { v with last := true }
  | .continueToNextState => { v with last := false }
  | .onHitRaiseTrigger => { v with raise := true }
  | .onHitStartTimer1 => { v with start1 := true }
  | .onHitStartTimer2 => { v with start2 := true }
  | .onHitStopTimer1 => { v with stop1 := true }
  | .onHitStopTimer2 => { v with stop2 := true }
  | .onHitClearTimer1 => { v with clear1 := true }
  | .onHitClearTimer2 => { v with clear2 := true }
  | _ => v

/-- A builder command with its operands in range does its write and ends OK. -/
theorem exec_builder {i : Instr} {s : State} (hi : IsBuilderCommand i) (hr : operandsInRange i) :
    exec i s = .next ((s.setB (builderWrite i)).complete none) := by
  cases i
  case forState n => simp only [exec, execForState, checkState_of_range hr]; rfl
  case occurs n => simp only [exec, execOccurs, checkCount_of_range hr]; rfl
  case whileStoring sum =>
    obtain ⟨a, rfl, ha⟩ := checkSum_of_inRange hr
    simp only [exec, execWhileStoring, ha]; rfl
  case ifTarget sum =>
    obtain ⟨a, rfl, ha⟩ := checkSum_of_inRange hr
    simp only [exec, execIfTarget, ha]; rfl
  case elseTarget sum n =>
    obtain ⟨hsum, hn⟩ := hr
    obtain ⟨a, rfl, ha⟩ := checkSum_of_inRange hsum
    simp only [exec, execElseTarget, ha, checkState_of_range hn]; rfl
  case lastState | continueToNextState | onHitRaiseTrigger | onHitStartTimer1 | onHitStartTimer2 | onHitStopTimer1
      | onHitStopTimer2 | onHitClearTimer1 | onHitClearTimer2 => rfl
  -- No other instruction is a builder command.
  all_goals simp [IsBuilderCommand] at hi

/-- Settles O39: the sum written is `cfgOf a`. -/
theorem sumCommandsSetTheirSum : Obligations.SumCommandsSetTheirSum := by
  intro a s h
  refine ⟨cfgOf a, isCfgOf_cfgOf h, exec_builder ?_ h, exec_builder ?_ h, fun n hn => exec_builder ?_ ⟨h, hn⟩⟩ <;>
    simp [IsBuilderCommand]

/-- Settles O37: `exec_builder` in range, a refusal outside. -/
theorem forStateWritesOrRefuses : Obligations.ForStateWritesOrRefuses := by
  refine fun n s => ⟨rfl, fun h => exec_builder (by simp [IsBuilderCommand]) h, fun h => ?_⟩
  have hout : ¬(0 ≤ n ∧ n ≤ 15) := by omega
  exact exec_of_not_operandsInRange s hout

/-- Settles O38, as O37 with the range of a count. -/
theorem occursWritesOrRefuses : Obligations.OccursWritesOrRefuses := by
  refine fun n s => ⟨rfl, fun h => exec_builder (by simp [IsBuilderCommand]) h, fun h => ?_⟩
  have hout : ¬(0 ≤ n ∧ n ≤ 1048575) := by omega
  exact exec_of_not_operandsInRange s hout

/-- Settles O40: each of these operands is out of range, for `elseTarget` by its sum or by its target. -/
theorem invalidSumsAreRefused : Obligations.InvalidSumsAreRefused := by
  refine fun sum n s => ⟨fun h => ⟨?_, ?_, ?_⟩, fun h => ?_⟩
  · exact exec_of_not_operandsInRange s h
  · exact exec_of_not_operandsInRange s h
  · exact exec_of_not_operandsInRange s fun ⟨hsum, _⟩ => h hsum
  · exact exec_of_not_operandsInRange s fun ⟨_, hn⟩ => by omega

/-- Settles O41: each command's encoding and meaning, evaluated. -/
theorem flagCommandsSetTheirFlag : Obligations.FlagCommandsSetTheirFlag :=
  ⟨rfl, fun _ => ⟨rfl, rfl, rfl, rfl, rfl, rfl, rfl, rfl, rfl⟩⟩

/-! ## The action flags -/

/-- Every action flag that is set stays set (R195). -/
def KeepsActionFlags (v w : Level) : Prop :=
  (v.raise = true → w.raise = true) ∧ (v.start1 = true → w.start1 = true) ∧ (v.start2 = true → w.start2 = true)
    ∧ (v.stop1 = true → w.stop1 = true) ∧ (v.stop2 = true → w.stop2 = true)
    ∧ (v.clear1 = true → w.clear1 = true) ∧ (v.clear2 = true → w.clear2 = true)

theorem keepsActionFlags_refl (v : Level) : KeepsActionFlags v v := ⟨id, id, id, id, id, id, id⟩

/-- A builder command writes no action flag, or sets one. -/
theorem builderWrite_keepsActionFlags (i : Instr) (v : Level) : KeepsActionFlags v (builderWrite i v) := by
  cases i
  case whileStoring sum | ifTarget sum | elseTarget sum n => cases sum <;> exact keepsActionFlags_refl v
  case onHitRaiseTrigger | onHitStartTimer1 | onHitStartTimer2 | onHitStopTimer1 | onHitStopTimer2 | onHitClearTimer1
      | onHitClearTimer2 => simp [KeepsActionFlags, builderWrite]
  all_goals exact keepsActionFlags_refl v

/-- Only `build` and RESET clear an action flag: a builder command does its write or is refused, any other instruction leaves
the builder alone. -/
theorem exec_keepsActionFlags {i : Instr} {s t : State} (h : exec i s = .next t) (hb : i ≠ .build) (hr : i ≠ .reset) :
    KeepsActionFlags s.b t.b := by
  rcases (exec_registerStep h).b with hsame | hreset | hbuild | hi
  · exact hsame ▸ keepsActionFlags_refl s.b
  · exact absurd hreset hr
  · exact absurd hbuild hb
  · by_cases hrange : operandsInRange i
    · rw [exec_builder hi hrange] at h
      cases h
      exact builderWrite_keepsActionFlags i s.b
    · rw [exec_of_not_operandsInRange s hrange] at h
      exact (runInvalid_sameRegisters h).b ▸ keepsActionFlags_refl s.b

/-- `build` and RESET leave the default level in the builder (R200, R260). -/
theorem exec_build_or_reset_b {i : Instr} {s t : State} (h : exec i s = .next t) (hi : i = .build ∨ i = .reset) :
    t.b = Level.level0 := by
  rcases hi with rfl | rfl <;> cases h <;> rfl

/-- A builder command whose write changes nothing shows in the reply alone. -/
theorem exec_builder_of_fixed {i : Instr} {s : State} (hi : IsBuilderCommand i) (hr : operandsInRange i)
    (h : builderWrite i s.b = s.b) : exec i s = .next { s with reply := some ⟨.ok, none⟩ } := by
  rw [exec_builder hi hr, State.setB, h]
  rfl

/-- Settles O42: flags are kept by `exec_keepsActionFlags`, cleared with the whole builder by `build` and RESET, and a flag
that is set is written what it holds. -/
theorem actionFlagsAreSticky : Obligations.ActionFlagsAreSticky := by
  refine ⟨fun i s t h hb hr => exec_keepsActionFlags h hb hr, fun i s t h hi => ?cleared, fun s => ?sets, fun s => ?again⟩
  case cleared =>
    rw [exec_build_or_reset_b h hi]
    decide
  case sets =>
    exact ⟨⟨_, rfl, rfl⟩, ⟨_, rfl, rfl⟩, ⟨_, rfl, rfl⟩, ⟨_, rfl, rfl⟩, ⟨_, rfl, rfl⟩, ⟨_, rfl, rfl⟩, ⟨_, rfl, rfl⟩, _, rfl, rfl⟩
  case again =>
    refine ⟨?_, ?_, ?_, ?_, ?_, ?_, ?_⟩ <;>
      exact fun h => exec_builder_of_fixed (by simp [IsBuilderCommand]) trivial (by rw [builderWrite, ← h])

/-! ## `build` -/

/-- Settles O43: the second `build` copies the builder that the first one reset. -/
theorem buildCopiesAndResets : Obligations.BuildCopiesAndResets := by
  refine fun s => ⟨rfl, fun t u ht hu => ?_⟩
  cases ht
  cases hu
  exact ⟨rfl, rfl⟩

/-- Settles O44: LVL has no other writer (`RegisterStep.lvl`). -/
theorem builtLevelIsIndependent : Obligations.BuiltLevelIsIndependent := by
  refine ⟨fun i s t h hb hr => ?kept, fun s t h => ?transition⟩
  case kept =>
    rcases (exec_registerStep h).lvl with hsame | hreset | hbuild
    · exact hsame
    · exact absurd hreset hr
    · exact absurd hbuild hb
  case transition =>
    cases h
    exact ⟨rfl, rfl⟩

end Sys2Proof.Proofs

/-! SUPPORT. The statements of 45_command_encoder.md: the wire primitives and their failing calls, the frames of each encode
command, that encoding is pure, the order of two programs, and that every frame comes from an encode command. -/

namespace Sys2Proof.Proofs
open Sys2Proof Sys2Proof.Machine Sys2Proof.Laws

/-! ## The first failing sink call -/

/-- The first call that is answered fail is one call. -/
theorem first_fail_unique {s : State} {n m : Nat} {x y : Fin 4} (hn : s.accepts n) (hx : s.answerAt n = .fail x)
    (hm : s.accepts m) (hy : s.answerAt m = .fail y) : n = m ∧ x = y := by
  rcases Nat.lt_trichotomy n m with hlt | rfl | hlt
  · rw [hm n hlt] at hx; cases hx
  · rw [hx] at hy; cases hy; exact ⟨rfl, rfl⟩
  · rw [hn m hlt] at hy; cases hy

/-- An emission ends at its first failing call, with the bytes accepted by then (R213, R236). -/
theorem runEmission_fail {cs : List Cmd} {s : State} {n : Nat} {taken : Fin 4} (hn : n < 2 * cs.length) (hacc : s.accepts n)
    (hfail : s.answerAt n = .fail taken) : runEmission cs s
      = .next (raiseIOFailure ((s.popAnswers (n + 1)).deliver ((framesOf cs).take (bytesAccepted n taken)))) := by
  rcases runEmission_cases cs s with ⟨hall, -⟩ | ⟨m, taken', -, hacc', hfail', e⟩
  · rw [hall n hn] at hfail; cases hfail
  · obtain ⟨rfl, rfl⟩ := first_fail_unique hacc hfail hacc' hfail'
    exact e

/-- So does any instruction: one with a call to fail emits something. -/
theorem exec_fail {i : Instr} {s : State} {n : Nat} {taken : Fin 4} (hn : n < 2 * (emission i s).length) (hacc : s.accepts n)
    (hfail : s.answerAt n = .fail taken) : exec i s = .next (raiseIOFailure
      ((s.popAnswers (n + 1)).deliver ((framesOf (emission i s)).take (bytesAccepted n taken)))) := by
  have hne : emission i s ≠ [] := fun he => by simp [he] at hn
  rw [exec_eq_runEmission hne, runEmission_fail hn hacc hfail]

/-- Settles O14. -/
theorem firstFailingCallStopsTheCommand : Obligations.FirstFailingCallStopsTheCommand :=
  fun _ _ _ _ _ hn hacc hfail => exec_fail hn hacc hfail

/-! ## The wire primitives -/

section
variable {i : Instr} {c : Cmd} {s : State} {n : Fin 4}

/-- A single wire command whose opcode byte is not accepted sends nothing (R40). -/
theorem exec_single_fail_first (he : emission i s = [c]) (h0 : s.answerAt 0 = .fail n) :
    exec i s = .next (raiseIOFailure (s.popAnswers 1)) := by
  have h := exec_fail (i := i) (n := 0) (by simp [he]) (fun _ hk => absurd hk (Nat.not_lt_zero _)) h0
  simpa [bytesAccepted] using h

/-- A single wire command whose operand is not accepted has sent its opcode byte and the drawn front of the operand
(R40, D18). -/
theorem exec_single_fail_second (he : emission i s = [c]) (h0 : s.answerAt 0 = .accept) (h1 : s.answerAt 1 = .fail n) :
    exec i s = .next (raiseIOFailure ((s.popAnswers 2).deliver (c.frame.take (n.val + 1)))) := by
  have hacc : s.accepts 1 := fun k hk => by rwa [Nat.lt_one_iff.1 hk]
  have h := exec_fail (i := i) (by simp [he]) hacc h1
  simpa [he, bytesAccepted, Nat.add_comm 1] using h

end

/-- What is selected in a list of programs is the address of one of them. -/
theorem exists_program_of_sel_mem {ps : List (Word × List Word)} {a : Word} (h : Cmd.sel a ∈ cmdsOf ps) :
    ∃ q ∈ ps, q.1 = a := by
  obtain ⟨q, hq, hmem⟩ := List.mem_flatMap.1 h
  exact ⟨q, hq, by simpa [programOf, eq_comm] using hmem⟩

/-- A host command selects mapped addresses only (R211). -/
theorem sel_mem_emission_mapped {i : Instr} {s : State} {a : Word} (hp : s.params.wf) (hl : laneOf i = .command)
    (h : Cmd.sel a ∈ emission i s) : (programLength a.toNat).isSome = true := by
  rw [emission_eq_cmdsOf hl] at h
  obtain ⟨q, hq, rfl⟩ := exists_program_of_sel_mem h
  rw [programsOf_complete hp i q hq]
  rfl

/-- Settles O9: the accepting and the two failing calls of a single wire command, and the consumer over its frame. -/
theorem selectPrimitive : Obligations.SelectPrimitive := by
  intro a s
  refine ⟨fun hacc => ?sent, fun ha => ?target, fun n h0 => ?first, fun n h0 h1 => ?second, fun i hp hl => ?mapped⟩
  case sent => exact exec_of_emission (i := .select a) rfl (List.cons_ne_nil _ _) hacc
  case target => exact congrArg Dev.sel (feedAll_frame s.dev (.sel a) ha)
  case first => exact ⟨_, exec_single_fail_first rfl h0, rfl, rfl, rfl, rfl, rfl⟩
  case second => exact ⟨_, exec_single_fail_second rfl h0 h1, rfl, rfl, rfl, rfl, rfl⟩
  case mapped => exact sel_mem_emission_mapped hp hl

/-- Settles O10, as O9; the word goes to the run of the chain that stays selected. -/
theorem chainPrimitive : Obligations.ChainPrimitive := by
  intro w s
  refine ⟨fun hacc => ?sent, fun ha a hs => ?shifted, fun n h0 => ?first, fun n h0 h1 => ?second⟩
  case sent => exact exec_of_emission (i := .chain w) rfl (List.cons_ne_nil _ _) hacc
  case shifted =>
    have hfeed := feedAll_frame s.dev (.chn w) ha
    exact ⟨(congrArg Dev.run hfeed).trans (onChain_run hs w),
      (congrArg Dev.sel hfeed).trans ((onChain_sel s.dev w).trans hs)⟩
  case first => exact ⟨_, exec_single_fail_first rfl h0, rfl, rfl, rfl, rfl, rfl⟩
  case second => exact ⟨_, exec_single_fail_second rfl h0 h1, rfl, rfl, rfl, rfl, rfl⟩

/-! ## The frames of a host command -/

/-- The number of words of a list of programs. -/
def wordCount (ps : List (Word × List Word)) : Nat := (ps.map fun q => q.2.length).sum

@[simp] theorem wordCount_nil : wordCount [] = 0 := rfl
@[simp] theorem wordCount_cons (q : Word × List Word) (ps : List (Word × List Word)) :
    wordCount (q :: ps) = q.2.length + wordCount ps := by simp [wordCount]

/-- A program has one SELECT and a CHAIN for each word (R47). -/
theorem countP_programOf (a : Word) (ws : List Word) : (programOf a ws).countP Cmd.isSelect = 1
    ∧ (programOf a ws).countP (fun c => !c.isSelect) = ws.length := by
  simp [programOf, List.countP_cons, List.countP_map, Function.comp_def, Cmd.isSelect]

theorem countP_cmdsOf (ps : List (Word × List Word)) : (cmdsOf ps).countP Cmd.isSelect = ps.length
    ∧ (cmdsOf ps).countP (fun c => !c.isSelect) = wordCount ps := by
  induction ps with
  | nil => exact ⟨rfl, rfl⟩
  | cons q ps ih =>
    obtain ⟨hsel, hchn⟩ := ih
    obtain ⟨hsel', hchn'⟩ := countP_programOf q.1 q.2
    simp only [cmdsOf, List.flatMap_cons, List.countP_append] at hsel hchn ⊢
    rw [hsel, hchn, hsel', hchn', List.length_cons, wordCount_cons]
    exact ⟨Nat.add_comm _ _, rfl⟩

theorem length_eq_selects_add_chains (cs : List Cmd) :
    cs.length = cs.countP Cmd.isSelect + cs.countP (fun c => !c.isSelect) := by
  simpa using List.length_eq_countP_add_countP Cmd.isSelect (l := cs)

/-- The programs of a host command with its operands in range, and their words: the table of R217. -/
theorem programsOf_counts {i : Instr} {s : State} (hp : s.params.wf) (hr : operandsInRange i) :
    ((programsOf i s).length, wordCount (programsOf i s), 5 * ((programsOf i s).length + wordCount (programsOf i s)))
      = frameCount i := by
  obtain ⟨-, hsix, -⟩ := hp
  cases i
  case encPat k =>
    obtain ⟨k, hk⟩ := checkIndex_le (n := 9) hr
    simp [programsOf, hk, frameCount, patWords]
  case encRng r =>
    obtain ⟨r, hr⟩ := checkIndex_le (n := 1) hr
    simp [programsOf, hr, frameCount]
  case encEdg e =>
    obtain ⟨e, he⟩ := checkIndex_le (n := 1) hr
    simp [programsOf, he, frameCount]
  case encTmr t =>
    obtain ⟨t, ht⟩ := checkIndex_le (n := 1) hr
    simp [programsOf, ht, frameCount]
  case encSum role => simp [programsOf, frameCount, hsix]
  case encState => simp [programsOf, frameCount, hsix]
  all_goals rfl

/-- The frames and bytes of a host command with its operands in range are those of R217. -/
theorem emission_counts {i : Instr} {s : State} (hp : s.params.wf) (hr : operandsInRange i) (hl : laneOf i = .command) :
    ((emission i s).countP Cmd.isSelect, (emission i s).countP fun c => !c.isSelect, (framesOf (emission i s)).length)
      = frameCount i := by
  obtain ⟨hsel, hchn⟩ := countP_cmdsOf (programsOf i s)
  rw [length_framesOf, length_eq_selects_add_chains, emission_eq_cmdsOf hl, hsel, hchn, programsOf_counts hp hr]

/-- On an accepting sink every instruction but RESET appends exactly its frames. -/
theorem exec_out_accepting {i : Instr} {s : State} (hi : i ≠ .reset) (hacc : s.accepts (2 * (emission i s).length)) :
    ∃ t, exec i s = .next t ∧ t.out = s.out ++ framesOf (emission i s) := by
  rcases exec_cases i s with ⟨-, -, e⟩ | ⟨-, he, t, e, -, -, -, -, hout, -⟩ | ⟨-, he, e⟩
  · exact ⟨_, e.trans (runEmission_ok hacc), rfl⟩
  · exact ⟨t, e, by simp [he, hout hi]⟩
  · exact ⟨_, e, by simp [he]⟩

/-- Settles O34. -/
theorem framesPerCommand : Obligations.FramesPerCommand := by
  intro i s hp hr hl
  have hcounts := emission_counts hp hr hl
  refine ⟨hcounts, fun hi hacc => ?_⟩
  obtain ⟨t, ht, hout⟩ := exec_out_accepting hi hacc
  exact ⟨t, ht, by rw [hout, List.length_append, ← hcounts]⟩

/-! ## Encoding is pure -/

/-- What an instruction emits depends on BANK, LVL and the parameters: the builder, which `emission_congr` asks for too, is not
read. -/
theorem emission_congr_of_bank_lvl {i : Instr} {s s' : State} (hb : s'.bank = s.bank) (hl : s'.lvl = s.lvl)
    (hp : s'.params = s.params) : emission i s' = emission i s :=
  emission_congr (t := { s' with b := s.b }) ⟨hb, rfl, hl⟩ hp i

/-- A wire row is one frame (entry 2). -/
theorem length_emission_of_wire {i : Instr} (h : laneOf i ≠ .command) (s : State) : (emission i s).length = 1 := by
  cases i
  case select | chain | addrFsmDesc | addrPattern | addrRange | addrEdge | addrTimer | addrSum | wordPatw | wordRngw
      | wordEdgw | wordTmrlo | wordTmrhi | wordSumf | wordSumm | wordSump | wordCtrl => rfl
  all_goals exact absurd rfl h

theorem length_emission_le {s : State} (hp : s.params.wf) (i : Instr) : (emission i s).length ≤ 34 := by
  by_cases hl : laneOf i = .command
  · rw [emission_eq_cmdsOf hl]
    exact length_cmdsOf_programsOf hp i
  · rw [length_emission_of_wire hl]
    decide

/-- Settles O36. -/
theorem encodingIsPure : Obligations.EncodingIsPure := by
  refine ⟨fun i s t _ hne h => ?unchanged, fun i s s' hb hlvl hp _ _ => ?same, fun i s hp => ?bounds⟩
  case unchanged =>
    have hregs := runEmission_sameRegisters (exec_eq_runEmission hne ▸ h)
    obtain ⟨hparams, -⟩ := exec_inputs h
    exact ⟨hregs.bank, hregs.b, hregs.lvl, emission_congr hregs hparams i⟩
  case same =>
    have he := emission_congr_of_bank_lvl (i := i) hb hlvl hp
    refine ⟨he, fun hi hacc hacc' => ?_⟩
    obtain ⟨t, ht, hout⟩ := exec_out_accepting hi hacc
    obtain ⟨t', ht', hout'⟩ := exec_out_accepting hi (he ▸ hacc')
    exact ⟨t, t', _, ht, ht', hout, he ▸ hout'⟩
  case bounds =>
    have hlen := length_emission_le hp i
    exact ⟨hlen, by rw [length_framesOf]; omega⟩

/-! ## The order of two programs -/

/-- After two complete programs an address reads as the later of them that programs it, any other as the first SELECT leaves
it (R52). -/
theorem read_two_programs (d : Dev) {a b : Word} {us vs : List Word} (ha : programLength a.toNat = some us.length)
    (hb : programLength b.toNat = some vs.length) (x : Nat) :
    ((programOf a us ++ programOf b vs).foldl Dev.onCmd d).img.read x
      = if b.toNat = x then some vs else if a.toNat = x then some us else d.dropShort.img.read x := by
  obtain ⟨-, -, -, hfirst⟩ := foldl_program d a us ha
  obtain ⟨-, -, -, hsecond⟩ := foldl_program ((programOf a us).foldl Dev.onCmd d) b vs hb
  rw [List.foldl_append, hsecond, read_onSelect_of_runComplete (runComplete_program d ha), hfirst, onSelect_img]

/-- Settles O57: the two readings of `read_two_programs` differ only where both programs are of one address. -/
theorem programOrderDoesNotMatter : Obligations.ProgramOrderDoesNotMatter := by
  intro d a b us vs hne ha hb x
  have hne : a.toNat ≠ b.toNat := fun h => hne (BitVec.eq_of_toNat_eq h)
  rw [read_two_programs d ha hb, read_two_programs d hb ha]
  by_cases hbx : b.toNat = x
  · rw [if_pos hbx, if_neg (by omega), if_pos hbx]
  · rw [if_neg hbx, if_neg hbx]

/-! ## Where frames come from -/

/-- The six encode commands (R210). -/
def IsEncodeCommand (i : Instr) : Prop :=
  (∃ k, i = .encPat k) ∨ (∃ r, i = .encRng r) ∨ (∃ e, i = .encEdg e) ∨ (∃ k, i = .encTmr k) ∨ (∃ role, i = .encSum role)
    ∨ i = .encState

/-- A host command that emits is an encode command. -/
theorem isEncodeCommand_of_emission {i : Instr} {s : State} (hl : laneOf i = .command) (hne : emission i s ≠ []) :
    IsEncodeCommand i := by
  cases i
  case encPat | encRng | encEdg | encTmr | encSum | encState => simp [IsEncodeCommand]
  case select | chain | addrFsmDesc | addrPattern | addrRange | addrEdge | addrTimer | addrSum | wordPatw | wordRngw
      | wordEdgw | wordTmrlo | wordTmrhi | wordSumf | wordSumm | wordSump | wordCtrl => cases hl
  all_goals exact absurd rfl hne

/-- A command that emits appends a front of its frames, and all of them when it ends OK (R213, R236). -/
theorem runEmission_out_take {cs : List Cmd} {s t : State} (h : runEmission cs s = .next t) :
    ∃ n, t.out = s.out ++ (framesOf cs).take n
      ∧ (t.reply.map Reply.status = some .ok → t.out = s.out ++ framesOf cs) := by
  rcases runEmission_cases cs s with ⟨-, e⟩ | ⟨n, taken, -, -, -, e⟩ <;> rw [e] at h <;> cases h
  · exact ⟨(framesOf cs).length, by simp, fun _ => rfl⟩
  · exact ⟨bytesAccepted n taken, rfl, fun hok => by simp at hok⟩

/-- What a host command can do to OUT: leave it, empty it (RESET), or append a front of an encode command's frames. -/
theorem exec_out_cases {i : Instr} {s t : State} (hl : laneOf i = .command) (h : exec i s = .next t) :
    t.out = s.out ∨ (t.out = [] ∧ i = .reset) ∨ IsEncodeCommand i ∧ ∃ n, t.out = s.out ++ (framesOf (emission i s)).take n
      ∧ (t.reply.map Reply.status = some .ok → t.out = s.out ++ framesOf (emission i s)) := by
  by_cases he : emission i s = []
  · obtain ⟨-, -, -, hout⟩ := exec_of_emission_nil h he
    by_cases hi : i = .reset
    · subst hi
      cases h
      exact .inr (.inl ⟨rfl, rfl⟩)
    · exact .inl (hout hi)
  · exact .inr (.inr ⟨isEncodeCommand_of_emission hl he, runEmission_out_take (exec_eq_runEmission he ▸ h)⟩)

/-- No internal packet waits after a step (R210, entry 1). -/
theorem step_inner {s t : State} (h : step s = .next t) : t.inner = none := by
  rcases step_cases h with ⟨hi, -, rfl⟩ | ⟨p, i, -, -, he⟩ | ⟨p, -, -, rfl⟩ | ⟨bytes, rest, i, hi, -, -, he⟩
    | ⟨bytes, rest, hi, -, rfl⟩
  · exact hi
  · exact (exec_inputs he).2.2
  · rfl
  · exact (exec_inputs he).2.2.trans hi
  · exact hi

/-- Settles O60: without an internal packet a step runs the host command presented first (`exec_out_cases`), or sends
nothing. -/
theorem framesComeFromEncodeCommands : Obligations.FramesComeFromEncodeCommands := by
  refine ⟨rfl, fun s t h => ⟨step_inner h, fun hinner => ?_⟩⟩
  rcases step_cases h with ⟨-, -, rfl⟩ | ⟨p, i, hi, -⟩ | ⟨p, hi, -⟩ | ⟨bytes, rest, i, -, hport, hd, he⟩
    | ⟨bytes, rest, -, -, rfl⟩
  · exact .inl rfl
  · rw [hinner] at hi; cases hi
  · rw [hinner] at hi; cases hi
  · obtain ⟨-, hl⟩ := decodedIsWellFormedOnItsLane .command bytes i hd
    rcases exec_out_cases hl he with hsame | ⟨hempty, rfl⟩ | ⟨hencode, n, htake, hok⟩
    · exact .inl hsame
    · exact .inr (.inl ⟨hempty, bytes, rest, hport, hd⟩)
    · exact .inr (.inr ⟨bytes, rest, i, n, hport, hd, hencode, htake, hok⟩)
  · exact .inl rfl

end Sys2Proof.Proofs

/-! SUPPORT. The statements of 60_exceptions.md: how a command ends (`Ending`), what each status says of the operands and the
sink's answers, what a failing call leaves, and the step that runs a decoded packet. -/

namespace Sys2Proof.Proofs
open Sys2Proof Sys2Proof.Machine Sys2Proof.Laws

/-! ## The three endings -/

theorem accepts_zero (s : State) : s.accepts 0 := fun _ hk => absurd hk (Nat.not_lt_zero _)

/-- Everything that can be said of the state an instruction ends in, by its status: OK when its operands are in range and every
sink call is accepted, IOFailure at the first call that is not, InvalidArgument when its operands are out of range (R230). -/
inductive Ending (i : Instr) (s : State) : State → Prop
  | ok {t : State} (hr : operandsInRange i) (hacc : s.accepts (2 * (emission i s).length))
      (hok : t.reply.map Reply.status = some .ok) : Ending i s t
  | ioFailure (n : Nat) (taken : Fin 4) (hr : operandsInRange i) (hn : n < 2 * (emission i s).length) (hacc : s.accepts n)
      (hfail : s.answerAt n = .fail taken) : Ending i s (raiseIOFailure
        ((s.popAnswers (n + 1)).deliver ((framesOf (emission i s)).take (bytesAccepted n taken))))
  | invalidArgument (hr : ¬operandsInRange i) : Ending i s (raiseInvalidArgument s)

/-- Every instruction ends in one of the three ways. -/
theorem exists_ending (i : Instr) (s : State) : ∃ t, exec i s = .next t ∧ Ending i s t := by
  rcases exec_cases i s with ⟨hr, -, e⟩ | ⟨hr, he, t, e, hok, -⟩ | ⟨hr, -, e⟩
  · rcases runEmission_cases (emission i s) s with ⟨hacc, e'⟩ | ⟨n, taken, hn, hacc, hfail, e'⟩
    · exact ⟨_, e.trans e', .ok hr hacc rfl⟩
    · exact ⟨_, e.trans e', .ioFailure n taken hr hn hacc hfail⟩
  · exact ⟨t, e, .ok hr (he ▸ accepts_zero s) hok⟩
  · exact ⟨_, e, .invalidArgument hr⟩

theorem ending_of_exec {i : Instr} {s t : State} (h : exec i s = .next t) : Ending i s t := by
  obtain ⟨t', e, hend⟩ := exists_ending i s
  rw [e] at h
  cases h
  exact hend

section
variable {i : Instr} {s t : State}

/-- Status OK means operands in range and an accepting sink, and the other way round (R243). -/
theorem Ending.ok_iff (h : Ending i s t) :
    t.reply.map Reply.status = some .ok ↔ operandsInRange i ∧ s.accepts (2 * (emission i s).length) := by
  cases h with
  | ok hr hacc hok => exact iff_of_true hok ⟨hr, hacc⟩
  | ioFailure n taken hr hn hacc hfail =>
    refine iff_of_false (by simp) fun ⟨_, hall⟩ => ?_
    rw [hall n hn] at hfail
    cases hfail
  | invalidArgument hr => exact iff_of_false (by simp) fun ⟨hin, _⟩ => hr hin

/-- Status InvalidArgument means operands out of range, and the other way round (R232). -/
theorem Ending.invalidArgument_iff (h : Ending i s t) :
    t.reply.map Reply.status = some .invalidArgument ↔ ¬operandsInRange i := by
  cases h with
  | ok hr hacc hok => simp [hok, hr]
  | ioFailure n taken hr hn hacc hfail => simp [hr]
  | invalidArgument hr => simp [hr]

/-- Status IOFailure means operands in range and a call answered fail, and the other way round (R234). -/
theorem Ending.ioFailure_iff (h : Ending i s t) : t.reply.map Reply.status = some .ioFailure
    ↔ operandsInRange i ∧ ∃ n, n < 2 * (emission i s).length ∧ s.answerAt n ≠ .accept := by
  cases h with
  | ok hr hacc hok => exact iff_of_false (by simp [hok]) fun ⟨_, n, hn, hne⟩ => hne (hacc n hn)
  | ioFailure n taken hr hn hacc hfail => exact iff_of_true rfl ⟨hr, n, hn, by simp [hfail]⟩
  | invalidArgument hr => exact iff_of_false (by simp) fun ⟨hin, _⟩ => hr hin

/-- A command that ends with IOFailure stopped at its first failing call (R213, R236). -/
theorem Ending.eq_raiseIOFailure (h : Ending i s t) (hs : t.reply.map Reply.status = some .ioFailure) :
    ∃ n taken, n < 2 * (emission i s).length ∧ s.accepts n ∧ s.answerAt n = .fail taken ∧ t = raiseIOFailure
      ((s.popAnswers (n + 1)).deliver ((framesOf (emission i s)).take (bytesAccepted n taken))) := by
  cases h with
  | ok hr hacc hok => simp [hok] at hs
  | ioFailure n taken hr hn hacc hfail => exact ⟨n, taken, hn, hacc, hfail, rfl⟩
  | invalidArgument hr => simp at hs

end

/-! ## InvalidArgument -/

/-- Settles O17: operands out of range end in `raiseInvalidArgument s`. -/
theorem invalidArgumentChangesNothing : Obligations.InvalidArgumentChangesNothing := by
  intro i s t h hs
  have hr := (ending_of_exec h).invalidArgument_iff.1 hs
  rw [exec_of_not_operandsInRange s hr] at h
  cases h
  rfl

/-- Settles O18: the status tells the operands (`Ending.invalidArgument_iff`). -/
theorem invalidArgumentExactlyForTheListedCauses : Obligations.InvalidArgumentExactlyForTheListedCauses := by
  refine fun i s => ⟨⟨exec_of_not_operandsInRange s, fun h => ?_⟩, ⟨fun hr => ?_, fun ⟨t, h, hs⟩ => ?_⟩⟩
  · exact (ending_of_exec h).invalidArgument_iff.1 rfl
  · exact ⟨_, exec_of_not_operandsInRange s hr, rfl⟩
  · exact (ending_of_exec h).invalidArgument_iff.1 hs

/-- Settles O19. -/
theorem inRangeCommandsEndOk : Obligations.InRangeCommandsEndOk := by
  intro i s hr hacc
  obtain ⟨t, h, hend⟩ := exists_ending i s
  exact ⟨t, h, hend.ok_iff.2 ⟨hr, hacc⟩⟩

/-! ## IOFailure -/

/-- The bytes accepted up to a failing call are fewer than those of the frames: the failing call's own are not all there
(R236). -/
theorem bytesAccepted_lt {n k : Nat} (taken : Fin 4) (h : n < 2 * k) : bytesAccepted n taken < 5 * k := by
  unfold bytesAccepted
  split <;> omega

/-- After IOFailure the device is undefined and every chain void, whatever is assumed of the framing (R55, R236). -/
theorem ioFailure_void (framingRestarts : Bool) (d : Dev) :
    (d.ioFailure framingRestarts).undef = true ∧ (d.ioFailure framingRestarts).img = [] := by
  unfold Dev.ioFailure
  split_ifs <;> exact ⟨rfl, rfl⟩

/-- Settles O15: the state is that of the first failing call, by `Ending.eq_raiseIOFailure`. -/
theorem ioFailureEffects : Obligations.IOFailureEffects := by
  intro i s t h hs
  obtain ⟨n, taken, hn, hacc, hfail, rfl⟩ := (ending_of_exec h).eq_raiseIOFailure hs
  obtain ⟨hundef, himg⟩ := ioFailure_void s.params.framingRestarts
    (s.dev.feedAll ((framesOf (emission i s)).take (bytesAccepted n taken)))
  refine ⟨⟨n, hn, hacc, by simp [hfail], rfl⟩, ⟨bytesAccepted n taken, ?proper, rfl⟩, rfl, rfl, rfl, rfl, rfl, rfl, hundef,
    fun a => ?void⟩
  case proper => exact length_framesOf _ ▸ bytesAccepted_lt taken hn
  case void => exact (congrArg (Memory.read · a) himg).trans (read_nil a)

/-- Settles O16: a command with a call to fail emits something (`isEncodeCommand_of_emission`). -/
theorem ioFailureExactlyOnAFailingCall : Obligations.IOFailureExactlyOnAFailingCall := by
  intro i s t h
  have hend := ending_of_exec h
  refine ⟨hend.ioFailure_iff, fun hl hs => ?_, fun hs => ?_⟩
  · obtain ⟨n, -, hn, -⟩ := hend.eq_raiseIOFailure hs
    exact isEncodeCommand_of_emission (s := s) hl fun he => by simp [he] at hn
  · obtain ⟨n, taken, -, -, -, rfl⟩ := hend.eq_raiseIOFailure hs
    rfl

/-! ## Steps -/

/-- A step whose next packet decodes is the instruction's meaning at the state without the packet (D1). -/
theorem step_of_fetch {s s' : State} {p : Packet} {i : Instr} (hf : s.fetch = some (p, s'))
    (hd : decode p.lane p.bytes = .ok i) : step s = exec i s' := by
  simp only [step, hf, hd]

/-- Settles O6: without an internal packet the first host command is fetched, else the internal packet. -/
theorem stepRunsTheDecodedPacket : Obligations.StepRunsTheDecodedPacket := by
  refine ⟨fun s bytes rest i hinner hport hd => ?port, fun s p i hinner hd => ?internal⟩
  case port => exact step_of_fetch (p := ⟨.command, bytes⟩) (by simp only [State.fetch, hinner, hport]) hd
  case internal => exact step_of_fetch (p := p) (by simp only [State.fetch, hinner]) hd

end Sys2Proof.Proofs

/-! SUPPORT. The statement of 70_reset_and_hazards.md about RESET: the command is one write of registers, and what it writes are
the values of power-on. -/

namespace Sys2Proof.Proofs
open Sys2Proof Sys2Proof.Machine

/-- RESET calls no sink: it writes its registers and completes (R260). -/
theorem exec_reset (s : State) : exec .reset s = .next (s.resetRegisters.complete none) := rfl

/-- The four registers that RESET writes get their power-on values (R33); no other field is written. -/
theorem resetRegisters_eq_powerOn (s : State) : s.resetRegisters = { s with
    bank := State.reset.bank, b := State.reset.b, lvl := State.reset.lvl, out := State.reset.out } := rfl

/-- Settles O47: the write is that of the power-on values, and completing adds only the reply. -/
theorem resetCommandRestoresTheRegisters : Obligations.ResetCommandRestoresTheRegisters := by
  intro s
  simp only [exec_reset, resetRegisters_eq_powerOn, State.complete]

end Sys2Proof.Proofs

/-! SUPPORT. The statements about how the block goes on: packets that no row reads and idle steps, the reply of every instruction,
the constants of the inverted operations, and what the consumer makes of a frame that was cut. -/

namespace Sys2Proof.Proofs
open Sys2Proof Sys2Proof.Machine Sys2Proof.Laws

/-! ## Packets that no row reads, and idle steps -/

section
variable {s s' : State} {p : Packet} {e : DecodeError}

theorem fetch_of_inner (hinner : s.inner = some p) : s.fetch = some (p, { s with inner := none }) := by
  simp only [State.fetch, hinner]

theorem fetch_of_port {bytes : List Byte} {rest : List (List Byte)} (hinner : s.inner = none) (hport : s.port = bytes :: rest) :
    s.fetch = some (⟨.command, bytes⟩, { s with port := rest }) := by
  simp only [State.fetch, hinner, hport]

theorem fetch_of_idle (hinner : s.inner = none) (hport : s.port = []) : s.fetch = none := by
  simp only [State.fetch, hinner, hport]

/-- A step whose next packet does not decode rejects it at the state without the packet (U1, U3, U6). -/
theorem step_of_fetch_error (hf : s.fetch = some (p, s')) (hd : decode p.lane p.bytes = .error e) :
    step s = rejectPacket p.lane s' := by
  simp only [step, hf, hd]

theorem step_of_fetch_none (hf : s.fetch = none) : step s = .next s := by
  simp only [step, hf]

theorem rejectPacket_command (s : State) : rejectPacket .command s = .next (raiseInvalidArgument s) := rfl

theorem rejectPacket_wire {lane : Lane} (h : lane ≠ .command) (s : State) : rejectPacket lane s = .refused .undecodableWire := by
  cases lane with
  | command => exact absurd rfl h
  | frame | address | data => rfl

end

/-- Settles O7: what is fetched is rejected by its lane, and with nothing fetched the block waits. -/
theorem undecodablePacketsAndIdleSteps : Obligations.UndecodablePacketsAndIdleSteps := by
  refine ⟨fun s bytes rest e hinner hport hd => ?port, fun s p e hinner hd => ?internal, fun s hinner hport => ?idle⟩
  case port =>
    rw [step_of_fetch_error (fetch_of_port hinner hport) hd, rejectPacket_command]
    rfl
  case internal =>
    rw [step_of_fetch_error (fetch_of_inner hinner) hd]
    refine ⟨fun hl => ?_, fun hl => rejectPacket_wire hl _⟩
    rw [hl, rejectPacket_command]
    rfl
  case idle => exact step_of_fetch_none (fetch_of_idle hinner hport)

/-! ## The reply -/

/-- However an instruction ends, it has set the reply (R230). -/
theorem Ending.exists_reply {i : Instr} {s t : State} (h : Ending i s t) : ∃ r, t.reply = some r := by
  cases h with
  | ok hr hacc hok =>
    obtain ⟨r, hreply, -⟩ := Option.map_eq_some_iff.1 hok
    exact ⟨r, hreply⟩
  | ioFailure n taken hr hn hacc hfail => exact ⟨_, raiseIOFailure_reply _⟩
  | invalidArgument hr => exact ⟨_, raiseInvalidArgument_reply _⟩

/-- Settles O13. -/
theorem everyInstructionAnswersAReply : Obligations.EveryInstructionAnswersAReply := by
  intro i s
  obtain ⟨t, h, hend⟩ := exists_ending i s
  obtain ⟨r, hr⟩ := hend.exists_reply
  exact ⟨t, r, h, hr⟩

/-! ## Inverted operations -/

/-- Settles O22, pair by pair. -/
theorem invertedConstantsAreComplements : Obligations.InvertedConstantsAreComplements := by
  intro p hp
  simp only [List.mem_cons, List.not_mem_nil, or_false] at hp
  obtain rfl | rfl | rfl := hp <;> decide

/-! ## A frame that was cut -/

/-- By default the consumer interprets nothing after a cut frame (U2, entry 13). -/
theorem ioFailure_cut_stops {d : Dev} (h : d.frag ≠ []) : d.ioFailure false = d.unparseable := by
  simp [Dev.ioFailure, h]

/-- Under the assumption of U2 the cut frame is dropped (entry 13). -/
theorem ioFailure_cut_restarts {d : Dev} (h : d.frag ≠ []) : d.ioFailure true = { d.setUndef with frag := [] } := by
  simp [Dev.ioFailure, h]

/-- Settles O58: a stopped consumer ignores every byte; one without the fragment stands at a frame boundary. -/
theorem cutFrameIsNeverMisread : Obligations.CutFrameIsNeverMisread := by
  intro s hfrag
  refine ⟨fun hr bytes => ?stops, fun hr hs => ?restarts⟩
  case stops =>
    rw [raiseIOFailure_dev, hr, ioFailure_cut_stops hfrag]
    exact feedAll_of_stopped _ bytes (unparseable_stopped _)
  case restarts =>
    rw [raiseIOFailure_dev, hr, ioFailure_cut_restarts hfrag]
    exact ⟨hs, rfl⟩

end Sys2Proof.Proofs
